-- ==== Sys2Proof/Word.lean ====
section
/-! DEFINITION. The word of the Intcode core, the parameter modes and the fault kinds (spec/00_scope.md R13, R17;
spec/30_encoding.md R67; spec/60_exceptions.md R180). -/

namespace Sys2Proof

/-- R13: a word is a signed integer. The width `WORD_BITS` (R7) is a parameter of the machine (`Config.wordBits`):
the rules check a result against it, they never wrap one, so the type is the mathematical integer. -/
abbrev Word := Int

/-- R67, R73: the three addressing modes of a parameter (mode digits 0, 1, 2). -/
inductive Mode where
  | position
  | immediate
  | relative
deriving DecidableEq, Repr

/-- R180: the eight fault kinds. The FAULT register holds one of them, or none (code 0). -/
inductive FaultKind where
  /-- R181, code 1: a negative instruction word, or an opcode outside the map of R74. -/
  | unknownOpcode
  /-- R182, code 2: a mode digit 3 to 9, or a non-zero digit above the last mode digit. -/
  | invalidParameterMode
  /-- R183, code 3: a write parameter in IMMEDIATE mode. -/
  | illegalWriteTarget
  /-- R185, code 4: an Input on an empty INQ without NeedsInput in the mask. -/
  | channelUnderflow
  /-- R184, code 5: a fetch, read or write at an address below 0. -/
  | negativeAddress
  /-- R186, code 6: a value that the finite WORD_BITS cannot hold. -/
  | valueOutOfRange
  /-- R187, code 7: an address at or above the finite MEM_LIMIT. -/
  | memoryLimitExceeded
  /-- R188, code 8: an Output to a queue that already holds the finite QUEUE_DEPTH. -/
  | channelOverflow
deriving DecidableEq, Repr

/-- R72: a parameter as decoded from its cell, the raw value and its mode. -/
structure Param where
  mode : Mode
  raw  : Word
deriving DecidableEq, Repr

end Sys2Proof
end

