-- ==== Sys2Proof/Config.lean ====
section
/-! DEFINITION. The implementation parameters of spec/00_scope.md R7 to R12, which are arguments of the model:
`State.cfg` holds them, no step writes them, and every statement about all states is a statement about all of their
values (notes/assumptions/3.md). `N_INSTANCES` (R10) is the length of the state's list of instances. -/

namespace Sys2Proof

/-- R11, R211, `NAT_EMPTY_READ`: what an instance of the star network gets when it reads its empty inbound queue. -/
inductive EmptyRead where
  | block
  | supply (v : Word)
deriving DecidableEq, Repr

/-- R11, R214, `NAT_COMPARE`: which part of the injected packet the termination test compares. -/
inductive NatCompare where
  | y
  | xy
deriving DecidableEq, Repr

/-- R11, R207, `NAT_SEED`: the values queued to an instance before its first turn: its own address alone, or a list
of the host's choosing (entry i is `NAT_SEED(i)`). -/
inductive NatSeed where
  | ownAddress
  | table (seeds : List (List Word))
deriving DecidableEq, Repr

/-- R7 to R12. `none` is `UNBOUNDED`. -/
structure Config where
  /-- R7 `WORD_BITS`. -/
  wordBits      : Option Nat
  /-- R8 `MEM_LIMIT`. -/
  memLimit      : Option Nat
  /-- R9 `QUEUE_DEPTH`. -/
  queueDepth    : Option Nat
  /-- R11 `NAT_EMPTY_READ`. -/
  natEmptyRead  : EmptyRead
  /-- R11 `NAT_COMPARE`. -/
  natCompare    : NatCompare
  /-- R11 `NAT_SEED`. -/
  natSeed       : NatSeed
  /-- R12 `PIPELINE_INPUT`. -/
  pipelineInput : Word
  /-- R12 `RING_INPUT`. -/
  ringInput     : Word
deriving DecidableEq, Repr

/-- The defaults of R7 to R12. `NAT_EMPTY_READ` has none in the spec (R11: "OPEN").
DESIGN CHOICE, unsafe: `block`, notes/assumptions/5.md; no statement rests on it. -/
def Config.default : Config where
  wordBits      := none
  memLimit      := none
  queueDepth    := none
  natEmptyRead  := .block
  natCompare    := .y
  natSeed       := .ownAddress
  pipelineInput := 0
  ringInput     := 0

/-- R10: the default number of instances of the star network. -/
def Config.defaultInstances : Nat := 50

/-- R10: the default number of instances of the pipeline and of the ring. -/
def Config.defaultChainInstances : Nat := 5

end Sys2Proof
end

