-- ==== Sys2Proof/Syntax.lean ====
section
/-! DEFINITION. The instructions, one constructor per row of spec/opcode_table.json (spec/30_encoding.md R70, R74). -/

namespace Sys2Proof

/-- R74: the ten instruction kinds with their parameters (R70: which are read and which written). -/
inductive Instr where
  /-- ADD, opcode 1: p1, p2 read, p3 written. -/
  | add (p1 p2 p3 : Param)
  /-- MUL, opcode 2: p1, p2 read, p3 written. -/
  | mul (p1 p2 p3 : Param)
  /-- IN, opcode 3: p1 written. -/
  | inp (p1 : Param)
  /-- OUT, opcode 4: p1 read. -/
  | out (p1 : Param)
  /-- JT, opcode 5: p1 (condition) and p2 (target) read. -/
  | jt (p1 p2 : Param)
  /-- JF, opcode 6: p1 (condition) and p2 (target) read. -/
  | jf (p1 p2 : Param)
  /-- LT, opcode 7: p1, p2 read, p3 written. -/
  | lt (p1 p2 p3 : Param)
  /-- EQ, opcode 8: p1, p2 read, p3 written. -/
  | eq (p1 p2 p3 : Param)
  /-- ARB, opcode 9: p1 read. -/
  | arb (p1 : Param)
  /-- HALT, opcode 99: no parameter. -/
  | halt
deriving DecidableEq, Repr

end Sys2Proof
end

