-- ==== Sys2Proof/WellFormed.lean ====
section
/-! DEFINITION. Which instructions are well formed (spec/30_encoding.md R73, R79) and which parameter values are legal
(spec/00_scope.md R7 to R10). -/

namespace Sys2Proof

/-- R79: a write parameter is not IMMEDIATE. -/
def Param.writable (p : Param) : Bool :=
  match p.mode with
  | .position  => true
  | .immediate => false
  | .relative  => true

/-- R79: the write parameters are p3 of Add, Multiply, LessThan and Equals, and p1 of Input. Every other operand may
have any mode, and a raw value may be any word (R72). -/
def Instr.wf : Instr → Bool
  | .add _ _ p3 => p3.writable
  | .mul _ _ p3 => p3.writable
  | .inp p1     => p1.writable
  | .out _      => true
  | .jt _ _     => true
  | .jf _ _     => true
  | .lt _ _ p3  => p3.writable
  | .eq _ _ p3  => p3.writable
  | .arb _      => true
  | .halt       => true

/-- R7: legal word widths are UNBOUNDED and every N with N >= 64. -/
def Config.legalWordBits (c : Config) : Bool :=
  match c.wordBits with
  | none   => true
  | some n => decide (64 ≤ n)

/-- R9: legal queue depths are UNBOUNDED and every Q with Q >= 1. -/
def Config.legalQueueDepth (c : Config) : Bool :=
  match c.queueDepth with
  | none   => true
  | some q => decide (1 ≤ q)

/-- R10: legal numbers of instances are every N >= 1. -/
def legalInstances (n : Nat) : Bool := decide (1 ≤ n)

/-- R7, R9: the parameter values the spec calls legal. (R8's bound on `MEM_LIMIT` speaks of a program, so LOAD checks it.) -/
def Config.legal (c : Config) : Bool :=
  c.legalWordBits && c.legalQueueDepth

end Sys2Proof
end

