-- ==== Sys2Proof/Decode.lean ====
section
/-! DEFINITION. The decoder and the encoder (spec/30_encoding.md R64 to R79 and R81). A word is decoded by its decimal
digits. The decoder of one word is total: it answers a decoded word or a fault, by name (R78). -/

namespace Sys2Proof

/-- The column "kind" of R74's opcode map. -/
inductive Op where
  | add | mul | inp | out | jt | jf | lt | eq | arb | halt
deriving DecidableEq, Repr

/-- R14: the decimal digit of w at the place 10^j. -/
def digit (w j : Nat) : Nat := w / 10 ^ j % 10

/-- R74, R75: the opcode map on `w mod 100`; every number outside it is illegal. -/
def opOf (n : Nat) : Option Op :=
  match n with
  | 1  => some .add
  | 2  => some .mul
  | 3  => some .inp
  | 4  => some .out
  | 5  => some .jt
  | 6  => some .jf
  | 7  => some .lt
  | 8  => some .eq
  | 9  => some .arb
  | 99 => some .halt
  | _  => none

/-- R74, the column "OP". -/
def Op.number : Op → Nat
  | .add  => 1
  | .mul  => 2
  | .inp  => 3
  | .out  => 4
  | .jt   => 5
  | .jf   => 6
  | .lt   => 7
  | .eq   => 8
  | .arb  => 9
  | .halt => 99

/-- R70, R74: the parameter count n of an instruction kind. -/
def Op.params : Op → Nat
  | .add  => 3
  | .mul  => 3
  | .inp  => 1
  | .out  => 1
  | .jt   => 2
  | .jf   => 2
  | .lt   => 3
  | .eq   => 3
  | .arb  => 1
  | .halt => 0

/-- R70, R71: an instruction occupies 1 + n cells. -/
def Op.len (op : Op) : Nat := 1 + op.params

/-- R67: the mode a digit names; digits 3 to 9 name none. -/
def modeOfDigit (d : Nat) : Option Mode :=
  match d with
  | 0 => some .position
  | 1 => some .immediate
  | 2 => some .relative
  | _ => none

/-- R67, R81: the digit of a mode. -/
def Mode.digit : Mode → Nat
  | .position  => 0
  | .immediate => 1
  | .relative  => 2

/-- What the decoder reads from one instruction word (R78): the kind and the modes. A mode past the parameter count is
`position` (R65: an absent digit is 0). -/
structure Head where
  op : Op
  m1 : Mode
  m2 : Mode
  m3 : Mode
deriving DecidableEq, Repr

/-- R67: the mode of parameter k (1 <= k <= n) of w; a parameter the kind does not have is not examined. -/
def paramMode (w n k : Nat) : Except FaultKind Mode :=
  if k ≤ n then
    match modeOfDigit (digit w (k + 1)) with
    | some m => .ok m
    | none   => .error .invalidParameterMode
  else .ok .position

/-- R79: the kinds that write, and the mode of their write parameter. -/
def Head.writesImmediate (h : Head) : Bool :=
  match h.op with
  | .add | .mul | .lt | .eq => decide (h.m3 = .immediate)
  | .inp => decide (h.m1 = .immediate)
  | .out | .jt | .jf | .arb | .halt => false

/-- R78: the decoder of an instruction word, its checks in the order R78 writes them. -/
def decodeWord (w : Word) : Except FaultKind Head :=
  if w < 0 then .error .unknownOpcode
  else
    match opOf (w.toNat % 100) with
    | none    => .error .unknownOpcode
    | some op => do
      let m1 ← paramMode w.toNat op.params 1
      let m2 ← paramMode w.toNat op.params 2
      let m3 ← paramMode w.toNat op.params 3
      if w.toNat / 10 ^ (op.params + 2) ≠ 0 then .error .invalidParameterMode
      else if (Head.mk op m1 m2 m3).writesImmediate then .error .illegalWriteTarget
      else .ok ⟨op, m1, m2, m3⟩

/-- R72: the decoded word with the raw values of its parameter cells (a raw value past the parameter count is not used). -/
def Head.instr (h : Head) (r1 r2 r3 : Word) : Instr :=
  match h.op with
  | .add  => .add ⟨h.m1, r1⟩ ⟨h.m2, r2⟩ ⟨h.m3, r3⟩
  | .mul  => .mul ⟨h.m1, r1⟩ ⟨h.m2, r2⟩ ⟨h.m3, r3⟩
  | .inp  => .inp ⟨h.m1, r1⟩
  | .out  => .out ⟨h.m1, r1⟩
  | .jt   => .jt ⟨h.m1, r1⟩ ⟨h.m2, r2⟩
  | .jf   => .jf ⟨h.m1, r1⟩ ⟨h.m2, r2⟩
  | .lt   => .lt ⟨h.m1, r1⟩ ⟨h.m2, r2⟩ ⟨h.m3, r3⟩
  | .eq   => .eq ⟨h.m1, r1⟩ ⟨h.m2, r2⟩ ⟨h.m3, r3⟩
  | .arb  => .arb ⟨h.m1, r1⟩
  | .halt => .halt

/-- Why a list of cells is no instruction. -/
inductive Reject where
  /-- There is no cell at all. -/
  | noCell
  /-- The decoder's fault (R78). -/
  | fault (k : FaultKind)
  /-- The list ends before the last parameter cell (never on the machine: every address has a cell, R49). -/
  | truncated
deriving DecidableEq, Repr

/-- R64, R78: the instruction a list of cells begins with, and the cells after it. -/
def decode (cells : List Word) : Except Reject (Instr × List Word) :=
  match cells with
  | []      => .error .noCell
  | w :: cs =>
    match decodeWord w with
    | .error k => .error (.fault k)
    | .ok h    =>
      if cs.length < h.op.params then .error .truncated
      else .ok (h.instr (cs.getD 0 0) (cs.getD 1 0) (cs.getD 2 0), cs.drop h.op.params)

/-- R13, R65: a table row's bits, read as one number, are the instruction word, and its parameter cells are 0. -/
def decodeTableWord (nbits w : Nat) : Option Instr :=
  match decode [((w % 2 ^ nbits : Nat) : Word), 0, 0, 0] with
  | .ok (i, _) => some i
  | .error _   => none

/-- The kind of an instruction (R74). -/
def Instr.op : Instr → Op
  | .add _ _ _ => .add
  | .mul _ _ _ => .mul
  | .inp _     => .inp
  | .out _     => .out
  | .jt _ _    => .jt
  | .jf _ _    => .jf
  | .lt _ _ _  => .lt
  | .eq _ _ _  => .eq
  | .arb _     => .arb
  | .halt      => .halt

/-- The parameters of an instruction, p1 first. -/
def Instr.paramList : Instr → List Param
  | .add p1 p2 p3 => [p1, p2, p3]
  | .mul p1 p2 p3 => [p1, p2, p3]
  | .inp p1       => [p1]
  | .out p1       => [p1]
  | .jt p1 p2     => [p1, p2]
  | .jf p1 p2     => [p1, p2]
  | .lt p1 p2 p3  => [p1, p2, p3]
  | .eq p1 p2 p3  => [p1, p2, p3]
  | .arb p1       => [p1]
  | .halt         => []

/-- R81: the mode digits of the operands, p1's at the place 10^2. -/
def modeDigits : List Param → Nat
  | []      => 0
  | p :: ps => p.mode.digit + 10 * modeDigits ps

/-- R81: `w = OP + 100*m1 + 1000*m2 + 10000*m3`. -/
def Instr.word (i : Instr) : Nat := i.op.number + 100 * modeDigits i.paramList

/-- R81: the instruction word, then the parameter cells in order. -/
def encode (i : Instr) : List Word := (i.word : Word) :: i.paramList.map Param.raw

end Sys2Proof
end

