-- ==== Sys2Proof/Machine/State.lean ====
section
/-! DEFINITION. The state of the block as plain data, the reasons it can stop, and the state after reset
(spec/10_state.md R19 to R43, spec/60_exceptions.md R195 to R215, spec/70_reset_and_hazards.md R224 to R228). -/

namespace Sys2Proof.Machine

/-- R29, R46: the memory of one instance, a list of (address, word) pairs. Canonical form (`Mem.wf`): addresses
strictly rising, no word 0, which is what an unlisted address reads as (R49). R47 forbids a byte representation, so a
cell holds the whole word. -/
abbrev Mem := List (Nat × Word)

/-- R18, R20 to R31: one Machine, called "instance". -/
structure Inst where
  /-- R29: memory M. -/
  mem     : Mem
  /-- R21: instruction pointer. -/
  ip      : Word
  /-- R23: relative base. -/
  rb      : Word
  /-- R25: HALTED. -/
  halted  : Bool
  /-- R26: FAULT; `none` is code 0, no fault. -/
  fault   : Option FaultKind
  /-- R26: FAULT_IP, unspecified while FAULT is 0. -/
  faultIp : Word
  /-- R30: the inbound queue, oldest value first. -/
  inq     : List Word
  /-- R30: the instance's own outbound queue, oldest value first; not used while `outTo` names another queue. -/
  outq    : List Word
  /-- R31: `some j` when this instance's OUTQ is the same queue as INQ(j). -/
  outTo   : Option Nat
deriving DecidableEq, Repr

/-- R43, R224: an instance right after LOAD with an empty program and no inbound value. FAULT_IP: R43 says
"unspecified". DESIGN CHOICE, unsafe: 0, notes/assumptions/1.md. -/
def Inst.reset : Inst where
  mem     := []
  ip      := 0
  rb      := 0
  halted  := false
  fault   := none
  faultIp := 0
  inq     := []
  outq    := []
  outTo   := none

/-- R195: the resume mask; `Halted` is always selected. -/
structure Mask where
  needsInput : Bool
  hasOutput  : Bool
deriving DecidableEq, Repr

/-- R38, R195: the statuses with which a resume transaction ends. -/
inductive Status where
  | needsInput
  | hasOutput
  | halted
  | fault (k : FaultKind)
deriving DecidableEq, Repr

/-- Who moves next. -/
inductive Control where
  /-- No transaction is in progress: the host's next one may begin. -/
  | idle
  /-- R195: a resume transaction of instance i is in its loop. -/
  | running (i : Nat) (mask : Mask)
  /-- R195: the resume transaction of instance i has returned this status; its caller has not acted on it yet. -/
  | stopped (i : Nat) (st : Status)
  /-- R200, R202, R211: the scheduler's next transaction is due: the LOAD of a pipeline's stage, or a RESUME. -/
  | turn
deriving DecidableEq, Repr

/-- R201, R202: a linear pipeline in progress. -/
structure Pipeline where
  /-- R200: the program of every instance. -/
  prog   : List Word
  /-- R201: phase[i]. -/
  phases : List Word
  /-- R35: the instance whose turn is next, or is in progress. -/
  next   : Nat
  /-- R202: s[next - 1]. -/
  signal : Word
  /-- R202: stage `next` has been LOADed, and its RESUME is due or in progress. -/
  loaded : Bool
deriving DecidableEq, Repr

/-- R204 to R206: a feedback ring in progress. -/
structure Ring where
  /-- R35: the instance whose turn is next, or is in progress. -/
  next : Nat
  /-- R35, R206: the last value instance N-1 pushed into INQ(0), if any. -/
  last : Option Word
deriving DecidableEq, Repr

/-- R207 to R214: a star network in progress. -/
structure Star where
  /-- R35: the instance whose turn is next, or is in progress. -/
  next     : Nat
  /-- R207: part[i], each instance's partial output triple. -/
  part     : List (List Word)
  /-- R207, R210: the sentinel buffer. -/
  held     : Option (Word × Word)
  /-- R207, R213: the last injected packet. -/
  lastInj  : Option (Word × Word)
  /-- R212: a turn of this round ended in HasOutput. -/
  roundOut : Bool
  /-- R211: the turn in progress has been supplied a value, and its second RESUME is due or in progress. -/
  supplied : Bool
deriving DecidableEq, Repr

/-- R35: the scheduler state, one set per composition pattern. -/
inductive Sched where
  /-- No pattern runs: the caller of a resume transaction is the host. -/
  | off
  | pipeline (p : Pipeline)
  | ring (r : Ring)
  | star (t : Star)
deriving DecidableEq, Repr

/-- R200, R34: a composition pattern as the host selects it. -/
inductive Pattern where
  | pipeline (prog phases : List Word)
  | ring (prog phases : List Word)
  | star (prog : List Word)
deriving DecidableEq, Repr

/-- R36 to R42: the host's transactions. `readOutq` is R40's reading of the whole OUTQ. `start` selects a pattern; the
spec does not say how a pattern is started. DESIGN CHOICE, unsafe: notes/assumptions/7.md. -/
inductive HostCmd where
  | load (i : Nat) (prog inbound : List Word)
  | resume (i : Nat) (mask : Mask)
  | pushIn (i : Nat) (v : Word)
  | popOut (i : Nat)
  | readOutq (i : Nat)
  | readStatus (i : Nat)
  | readMem (i : Nat) (a : Word)
  | start (p : Pattern)
deriving DecidableEq, Repr

/-- R27: RUN_STATE. -/
inductive RunState where
  | ready
  | halted
  | faulted
deriving DecidableEq, Repr

/-- R27: the read-only STATUS view. -/
structure StatusView where
  runState  : RunState
  faultCode : Nat
  faultIp   : Word
  ip        : Word
  rb        : Word
  inqLen    : Nat
  outqLen   : Nat
deriving DecidableEq, Repr

/-- R203, R206, R214, R236: how a pattern's run ends. -/
inductive PatternEnd where
  /-- R203, R206: the result of a pipeline or a ring. -/
  | result (v : Word)
  /-- R214: the result y of a star network, with its packet (x, y). -/
  | packet (x y : Word)
  /-- R215. -/
  | networkFault (i : Nat) (k : FaultKind)
  /-- R202. -/
  | pipelineOutputError (i : Nat)
  /-- R206. -/
  | noResult
  /-- R213. -/
  | networkDeadlock
deriving DecidableEq, Repr

/-- What a transaction returns to the host. -/
inductive Reply where
  /-- The port refused the transaction (R37, R39, R42, R225): nothing changed. -/
  | refused (c : HostCmd)
  | loaded (i : Nat)
  | stopped (i : Nat) (st : Status)
  | pushed (i : Nat)
  /-- R40: `none` is "empty". -/
  | popped (i : Nat) (v : Option Word)
  | outq (i : Nat) (q : List Word)
  | status (i : Nat) (v : StatusView)
  | cell (i : Nat) (a v : Word)
  | ended (e : PatternEnd)
deriving DecidableEq, Repr

/-- The whole block. -/
structure State where
  /-- R34: the parameters, fixed for a run. -/
  cfg     : Config
  /-- R19: the instances by index; `none` is an instance that was never LOADed (R225). N_INSTANCES (R10) is its length. -/
  insts   : List (Option Inst)
  /-- Who moves next. -/
  ctl     : Control
  /-- R35: scheduler state. -/
  sched   : Sched
  /-- R36: the host transactions waiting to be performed, oldest first. -/
  host    : List HostCmd
  /-- R36, R42, R222, R225: the transactions at the ports, whatever the block is doing, oldest first
  (notes/assumptions/4.md). -/
  atPort  : List HostCmd
  /-- What the transactions returned, oldest first. -/
  replies : List Reply
deriving DecidableEq, Repr

/-- Why the block cannot go on. A fault of an INSTANCE (R180) is no such reason: it is a next state (R190). -/
inductive Fault where
  /-- Raised by exec, and by step where it fetches, when no resume transaction runs on a loaded instance whose
  RUN_STATE is READY: R83 takes no step there. Safe: the block stops where the spec gives no step. -/
  | noStep
  /-- Raised by Output when its OUTQ is wired to the INQ of an instance that was never LOADed, so that there is no
  queue (no transaction of the spec makes such a wiring). Safe. -/
  | noQueue
  /-- Raised by the scheduler when it appends to an INQ that already holds QUEUE_DEPTH values: the spec states no
  effect (notes/assumptions/6.md). Safe. -/
  | schedulerQueueFull (i : Nat)
  /-- Raised by the scheduler when the port refuses its LOAD or RESUME of instance i (notes/assumptions/9.md). Safe. -/
  | schedulerRefused (i : Nat)
  /-- Raised by the scheduler on a stop that the mask of its turn excludes, so that no rule says what follows (no run
  reaches it: notes/assumptions/9.md). Safe. -/
  | schedulerStop (i : Nat)
  /-- Raised by step where the scheduler's turn is due and no pattern runs (no run reaches it). Safe. -/
  | noPattern
deriving DecidableEq, Repr

/-- Why an instruction has no meaning. -/
inductive Refusal where
  /-- Raised by exec's arm of an instruction that is not modelled yet; no arm raises it now. Safe. -/
  | notModelled (mnemonic : String)
deriving DecidableEq, Repr

/-- R225: before its first LOAD an instance does not exist. The block with n instances, none of them LOADed. -/
def State.unloaded (cfg : Config) (n : Nat) : State where
  cfg     := cfg
  insts   := List.replicate n none
  ctl     := .idle
  sched   := .off
  host    := []
  atPort  := []
  replies := []

/-- R224: the block with n instances right after its only reset, LOAD, of every instance with an empty program and no
inbound value; no transaction and no pattern is in progress (R226, R228). DESIGN CHOICE, unsafe: which program,
notes/assumptions/2.md. -/
def State.resetOf (n : Nat) : State where
  cfg     := Config.default
  insts   := List.replicate n (some Inst.reset)
  ctl     := .idle
  sched   := .off
  host    := []
  atPort  := []
  replies := []

/-- R10: the default number of instances of a pattern. -/
def Pattern.defaultInstances : Pattern → Nat
  | .pipeline _ _ => Config.defaultChainInstances
  | .ring _ _     => Config.defaultChainInstances
  | .star _       => Config.defaultInstances

/-- R10, R224: the block right after reset with the default number of instances of a pattern. -/
def State.resetFor (p : Pattern) : State := State.resetOf p.defaultInstances

/-- R224: the state right after reset. DESIGN CHOICE, unsafe: the star network's default number of instances,
notes/assumptions/2.md. -/
def State.reset : State := State.resetOf Config.defaultInstances

end Sys2Proof.Machine
end

