-- ==== Sys2Proof/Machine/Ops.lean ====
section
/-! DEFINITION. The named operations over memory, registers, queues and the resume transaction, and the entry into the
faulted state (spec/00_scope.md R7 to R9, R15; spec/10_state.md R31, R37; spec/20_memory.md R49, R50;
spec/60_exceptions.md R190). -/

namespace Sys2Proof.Machine

/-- The outcome of one step of the block. -/
abbrev Result := Host.Outcome State Fault Refusal

/-! ### The parameters -/

/-- R7: v is representable in `WORD_BITS`. -/
def representable (c : Config) (v : Word) : Bool :=
  match c.wordBits with
  | none   => true
  | some n => decide (-((2 ^ (n - 1) : Nat) : Word) ≤ v ∧ v ≤ ((2 ^ (n - 1) : Nat) : Word) - 1)

/-- R8: address a is below `MEM_LIMIT`. -/
def inLimit (c : Config) (a : Nat) : Bool :=
  match c.memLimit with
  | none   => true
  | some l => decide (a < l)

/-- R9: a queue may hold this many values. -/
def holds (c : Config) (len : Nat) : Bool :=
  match c.queueDepth with
  | none   => true
  | some q => decide (len ≤ q)

/-! ### Memory -/

/-- R49: the word at address a, 0 where nothing is listed. -/
def Mem.read : Mem → Nat → Word
  | [], _ => 0
  | (b, v) :: m, a => if a = b then v else Mem.read m a

/-- The memory without an entry for address a. -/
def Mem.erase (m : Mem) (a : Nat) : Mem := m.filter (fun e => decide (e.1 ≠ a))

/-- The memory with the entry (a, v) in its place by address. -/
def Mem.insert : Mem → Nat → Word → Mem
  | [], a, v => [(a, v)]
  | (b, u) :: m, a, v => if a < b then (a, v) :: (b, u) :: m else (b, u) :: Mem.insert m a v

/-- R50: `M[a] <- v`. Writing 0, which an unlisted address reads as, removes the entry. -/
def Mem.write (m : Mem) (a : Nat) (v : Word) : Mem :=
  if v = 0 then Mem.erase m a else Mem.insert (Mem.erase m a) a v

/-- Every address listed is above n, and they rise strictly. -/
def Mem.sortedFrom : Mem → Nat → Bool
  | [], _ => true
  | (b, _) :: m, n => decide (n ≤ b) && Mem.sortedFrom m (b + 1)

/-- The canonical form: addresses strictly rising, and no entry 0. -/
def Mem.wf (m : Mem) : Bool := Mem.sortedFrom m 0 && m.all (fun e => decide (e.2 ≠ 0))

/-- R37: the memory that holds the program's words from address a on. -/
def Mem.ofProgram : Nat → List Word → Mem
  | _, [] => []
  | a, v :: vs => if v = 0 then Mem.ofProgram (a + 1) vs else (a, v) :: Mem.ofProgram (a + 1) vs

/-- The memory with words written at consecutive addresses from a on. -/
def Mem.writeAll (m : Mem) : Nat → List Word → Mem
  | _, [] => m
  | a, v :: vs => Mem.writeAll (Mem.write m a v) (a + 1) vs

/-! ### The checks of the check phase (R85), each a value or the fault it raises -/

/-- R49, R50: the checks of an access, NegativeAddress and then MemoryLimitExceeded; the address, now a Nat (R13). -/
def checkAddress (c : Config) (a : Word) : Except FaultKind Nat :=
  if a < 0 then .error .negativeAddress
  else if inLimit c a.toNat then .ok a.toNat
  else .error .memoryLimitExceeded

/-- R186: an exact result, or ValueOutOfRange. -/
def checkValue (c : Config) (v : Word) : Except FaultKind Word :=
  if representable c v then .ok v else .error .valueOutOfRange

/-- R49: `MemRead(a, 1)`. -/
def memRead (c : Config) (x : Inst) (a : Word) : Except FaultKind Word := do
  let n ← checkAddress c a
  .ok (Mem.read x.mem n)

/-- R50: `MemWrite(a, 1, v)` in the commit phase, its checks passed. -/
def Inst.write (x : Inst) (a : Nat) (v : Word) : Inst := { x with mem := Mem.write x.mem a v }

/-! ### Instances -/

/-- R37: the instance LOAD builds. FAULT_IP after LOAD: DESIGN CHOICE, unsafe, notes/assumptions/1.md. Its OUTQ is its
own queue (R30): DEDUCED, unsafe, notes/assumptions/8.md. -/
def Inst.load (prog inbound : List Word) : Inst :=
  { Inst.reset with mem := Mem.ofProgram 0 prog, inq := inbound }

/-- R27: RUN_STATE is READY. -/
def Inst.ready (x : Inst) : Bool := x.fault.isNone && !x.halted

/-- The instance with index i, if it exists. -/
def State.inst? (s : State) (i : Nat) : Option Inst :=
  match s.insts[i]? with
  | some (some x) => some x
  | _             => none

/-- The state with instance i replaced. -/
def State.setInst (s : State) (i : Nat) (x : Inst) : State := { s with insts := s.insts.set i (some x) }

/-! ### Queues -/

/-- R30, R31: the queue that is OUTQ(i): the instance's own, or INQ(j) where it is wired. -/
def State.outQueue (s : State) (i : Nat) : Option (List Word) :=
  match s.inst? i with
  | none   => none
  | some x =>
    match x.outTo with
    | none   => some x.outq
    | some j =>
      match s.inst? j with
      | none   => none
      | some y => some y.inq

/-- R30, R31: the state with OUTQ(i) holding q. -/
def State.setOutQueue (s : State) (i : Nat) (q : List Word) : State :=
  match s.inst? i with
  | none   => s
  | some x =>
    match x.outTo with
    | none   => s.setInst i { x with outq := q }
    | some j =>
      match s.inst? j with
      | none   => s
      | some y => s.setInst j { y with inq := q }

/-! ### The resume transaction -/

/-- R195: the empty mask, that of `run_to_completion` (R199). -/
def Mask.none : Mask := { needsInput := false, hasOutput := false }

/-- R15, `stop Status`: the resume transaction of instance i ends with this status. -/
def State.stop (s : State) (i : Nat) (st : Status) : State := { s with ctl := .stopped i st }

/-- R195: RESUME(i, mask) begins: a faulted or halted instance returns its status at once (R192, R198). -/
def State.beginResume (s : State) (i : Nat) (mask : Mask) : Option State :=
  match s.inst? i with
  | none   => none
  | some x =>
    match x.fault with
    | some k => some (s.stop i (.fault k))
    | none   => if x.halted then some (s.stop i .halted) else some { s with ctl := .running i mask }

/-- R190, fault entry: FAULT <- k, FAULT_IP <- ip0, and the resume transaction returns Fault(k); nothing else changes.
There is no return from it (R192): only a new LOAD, which builds the instance afresh. -/
def State.takeFault (s : State) (i : Nat) (k : FaultKind) : State :=
  match s.inst? i with
  | none   => s
  | some x => (s.setInst i { x with fault := some k, faultIp := x.ip }).stop i (.fault k)

/-- R83: the instance that takes the next step, with its index and the resume mask: a resume transaction is in
progress on it and its RUN_STATE is READY. -/
def State.active (s : State) : Option (Nat × Mask × Inst) :=
  match s.ctl with
  | .running i m =>
    match s.inst? i with
    | some x => if x.ready then some (i, m, x) else none
    | none   => none
  | .idle        => none
  | .stopped _ _ => none
  | .turn        => none

/-- R83: run a meaning on the active instance; where there is none, no step is taken. -/
def State.onActive (s : State) (k : Nat → Mask → Inst → Result) : Result :=
  match s.active with
  | some (i, m, x) => k i m x
  | none           => .fault .noStep

/-- R85, R97: go on when every check passed, else enter the faulted state (R190). -/
def State.attempt (s : State) (i : Nat) {α : Type} (e : Except FaultKind α) (k : α → Result) : Result :=
  match e with
  | .ok a    => k a
  | .error f => .next (s.takeFault i f)

end Sys2Proof.Machine
end

