-- ==== Sys2Proof/Machine/Operands.lean ====
section
/-! DEFINITION. The parameter resolver, the next instruction pointer and the shape the three-parameter instructions
share (spec/40_datapath.md R89 to R96). -/

namespace Sys2Proof.Machine

/-- R89, R91: the address `rb + raw` of a RELATIVE parameter, with the rb of the start of the step (R92). -/
def relativeAddress (c : Config) (x : Inst) (raw : Word) : Except FaultKind Word := checkValue c (x.rb + raw)

/-- R89: `ReadOperand`. -/
def readOperand (c : Config) (x : Inst) (p : Param) : Except FaultKind Word :=
  match p.mode with
  | .immediate => .ok p.raw
  | .position  => memRead c x p.raw
  | .relative  => do
    let a ← relativeAddress c x p.raw
    memRead c x a

/-- R90: `WriteAddress`. An IMMEDIATE parameter never comes here from the decoder (R79); R73's table names its fault. -/
def writeAddress (c : Config) (x : Inst) (p : Param) : Except FaultKind Nat :=
  match p.mode with
  | .immediate => .error .illegalWriteTarget
  | .position  => checkAddress c p.raw
  | .relative  => do
    let a ← relativeAddress c x p.raw
    checkAddress c a

/-- R95: the advance `ip0 + len`, checked in the check phase. -/
def advance (c : Config) (x : Inst) (len : Nat) : Except FaultKind Word := checkValue c (x.ip + len)

/-- R97, R191 (6) to (8): the check phase of a three-parameter instruction with result r: p1, p2, the write address,
the result, the advance by 4. -/
def check3 (c : Config) (x : Inst) (r : Word → Word → Except FaultKind Word) (p1 p2 p3 : Param) :
    Except FaultKind (Nat × Word × Word) := do
  let v1 ← readOperand c x p1
  let v2 ← readOperand c x p2
  let ea ← writeAddress c x p3
  let v ← r v1 v2
  let next ← advance c x 4
  .ok (ea, v, next)

/-- R98, R99, R111, R112: a three-parameter instruction: the checks, then `MemWrite(ea, 1, r)` and `ip <- next`. -/
def store3 (r : Config → Word → Word → Except FaultKind Word) (p1 p2 p3 : Param) (s : State) : Result :=
  s.onActive fun i _ x =>
    s.attempt i (check3 s.cfg x (r s.cfg) p1 p2 p3) fun (ea, v, next) =>
      .next (s.setInst i { x.write ea v with ip := next })

/-- R107, R108: the check phase of a jump whose condition on p1 is `taken`: p1, p2, then the target, or the advance
by 3 where the jump is not taken. -/
def checkJump (c : Config) (x : Inst) (taken : Word → Bool) (p1 p2 : Param) : Except FaultKind Word := do
  let v1 ← readOperand c x p1
  let v2 ← readOperand c x p2
  if taken v1 then .ok v2 else advance c x 3

/-- R107, R108: a jump: the checks, then `ip <-` the target or the advance. -/
def jump (taken : Word → Bool) (p1 p2 : Param) (s : State) : Result :=
  s.onActive fun i _ x =>
    s.attempt i (checkJump s.cfg x taken p1 p2) fun next =>
      .next (s.setInst i { x with ip := next })

end Sys2Proof.Machine
end

