-- ==== Sys2Proof/Machine/Fetch.lean ====
section
/-! DEFINITION. Fetch, decode and parameter cells (spec/40_datapath.md R86 to R88), and placing an instruction where the
next step fetches. -/

namespace Sys2Proof.Machine

/-- R88: `MemRead(ip0 + k, 1)`, its address checked first. -/
def paramCell (c : Config) (x : Inst) (k : Nat) : Except FaultKind Word := do
  let a ← checkValue c (x.ip + k)
  memRead c x a

/-- R88: parameter cell k of an instruction with n parameters; a cell past them is not read. -/
def paramCellOf (c : Config) (x : Inst) (n k : Nat) : Except FaultKind Word :=
  if k ≤ n then paramCell c x k else .ok 0

/-- R86 to R88: the instruction at ip, or the first fault of R191 (1) to (5). -/
def fetch (c : Config) (x : Inst) : Except FaultKind Instr := do
  let w ← memRead c x x.ip
  let h ← decodeWord w
  let r1 ← paramCellOf c x h.op.params 1
  let r2 ← paramCellOf c x h.op.params 2
  let r3 ← paramCellOf c x h.op.params 3
  .ok (h.instr r1 r2 r3)

/-- R97: the step of the active instance: fetch, decode, parameter cells, then the family arm (`run`). -/
def stepInstruction (run : Instr → State → Result) (s : State) : Result :=
  s.onActive fun i _ x => s.attempt i (fetch s.cfg x) fun ins => run ins s

/-- The state in which the next step fetches these cells: they stand at the ip of the instance whose resume
transaction is in progress, or else at the ip of instance 0, where a RESUME with the empty mask is begun on it. The
instance is made READY, and exists, and nothing stands at the ports (notes/assumptions/10.md). -/
def State.placeCells (s : State) (cells : List Word) : State :=
  let i := match s.ctl with
    | .running i _ => i
    | .idle | .stopped _ _ | .turn => 0
  let m := match s.ctl with
    | .running _ m => m
    | .idle | .stopped _ _ | .turn => Mask.none
  let x := (s.inst? i).getD Inst.reset
  let a := x.ip.toNat
  { s.setInst i { x with mem := Mem.writeAll x.mem a cells, ip := (a : Word), halted := false, fault := none } with
    ctl := .running i m, atPort := [] }

end Sys2Proof.Machine
end

