-- ==== Sys2Proof/Machine/Flags.lean ====
section
/-! DEFINITION. The core has no condition flags (spec/10_state.md R28): a comparison's 1 or 0 is a word (R14), and the
only status bits are those of the STATUS view (R27). -/

namespace Sys2Proof.Machine

/-- R14: `bool(c)`. -/
def boolWord (b : Bool) : Word := if b then 1 else 0

/-- R180: the codes of the fault kinds. -/
def faultCode (k : FaultKind) : Nat :=
  match k with
  | .unknownOpcode        => 1
  | .invalidParameterMode => 2
  | .illegalWriteTarget   => 3
  | .channelUnderflow     => 4
  | .negativeAddress      => 5
  | .valueOutOfRange      => 6
  | .memoryLimitExceeded  => 7
  | .channelOverflow      => 8

/-- R26: what FAULT holds as a number, 0 for no fault. -/
def faultNumber (f : Option FaultKind) : Nat :=
  match f with
  | none   => 0
  | some k => faultCode k

/-- R27: RUN_STATE: FAULTED when FAULT != 0, else HALTED when HALTED = 1, else READY. -/
def runState (x : Inst) : RunState :=
  match x.fault with
  | some _ => .faulted
  | none   => if x.halted then .halted else .ready

/-- R27: the numbers of RUN_STATE. -/
def runStateNumber (r : RunState) : Nat :=
  match r with
  | .ready   => 0
  | .halted  => 1
  | .faulted => 2

/-- R27: the STATUS view of an instance whose OUTQ holds q. -/
def statusView (x : Inst) (q : List Word) : StatusView where
  runState  := runState x
  faultCode := faultNumber x.fault
  faultIp   := x.faultIp
  ip        := x.ip
  rb        := x.rb
  inqLen    := x.inq.length
  outqLen   := q.length

end Sys2Proof.Machine
end

