-- ==== Sys2Proof/Machine/Ports.lean ====
section
/-! DEFINITION. The host's transactions (spec/10_state.md R36 to R42; spec/60_exceptions.md R199; what a port refuses,
spec/92_eei_decisions.md D16 and spec/70_reset_and_hazards.md R225). -/

namespace Sys2Proof.Machine

/-- The state with one more reply to the host. -/
def State.reply (s : State) (r : Reply) : State := { s with replies := s.replies ++ [r] }

/-- R8, R37: a program of this length is not longer than `MEM_LIMIT`. -/
def fitsMemory (c : Config) (len : Nat) : Bool :=
  match c.memLimit with
  | none   => true
  | some l => decide (len ≤ l)

/-- R37, D16: LOAD accepts this program and these inbound values. -/
def canLoad (c : Config) (prog inbound : List Word) : Bool :=
  prog.all (representable c) && inbound.all (representable c) && fitsMemory c prog.length && holds c inbound.length

/-- R37: LOAD(i, program, inbound), or `none` where the port refuses it. That it refuses an index at or above
N_INSTANCES the spec does not say. DESIGN CHOICE, safe: notes/assumptions/17.md. -/
def State.load (s : State) (i : Nat) (prog inbound : List Word) : Option State :=
  if i < s.insts.length ∧ canLoad s.cfg prog inbound then some (s.setInst i (Inst.load prog inbound)) else none

/-- R39: a push that the port accepts, or `none`. -/
def State.pushIn (s : State) (i : Nat) (v : Word) : Option State :=
  match s.inst? i with
  | none   => none
  | some x =>
    if representable s.cfg v ∧ holds s.cfg (x.inq.length + 1) then some (s.setInst i { x with inq := x.inq ++ [v] })
    else none

/-- R40: the state without the oldest value of OUTQ(i), and that value if there is one; `none` where there is no OUTQ(i). -/
def State.popOut (s : State) (i : Nat) : Option (State × Option Word) :=
  match s.outQueue i with
  | none          => none
  | some []       => some (s, none)
  | some (v :: q) => some (s.setOutQueue i q, some v)

/-- R42: READ_MEM(i, a), refused for a < 0. -/
def State.readMem (s : State) (i : Nat) (a : Word) : Option Word :=
  match s.inst? i with
  | none   => none
  | some x => if a < 0 then none else some (Mem.read x.mem a.toNat)

/-- R41: READ_STATUS(i). -/
def State.readStatus (s : State) (i : Nat) : Option StatusView :=
  match s.inst? i, s.outQueue i with
  | some x, some q => some (statusView x q)
  | _, _           => none

/-! ### Transactions that stand at the ports -/

/-- R27, R40 to R42: the transactions that only read. -/
def isRead (c : HostCmd) : Bool :=
  match c with
  | .readOutq _ | .readStatus _ | .readMem _ _                            => true
  | .load _ _ _ | .resume _ _ | .pushIn _ _ | .popOut _ | .start _ => false

/-- The instance a transaction names (R37 to R42). -/
def HostCmd.names (c : HostCmd) : Option Nat :=
  match c with
  | .load i _ _ | .resume i _ | .pushIn i _ | .popOut i | .readOutq i | .readStatus i | .readMem i _ => some i
  | .start _                                                                                       => none

/-- R225: a LOAD, which builds the instance it names. -/
def HostCmd.isLoad (c : HostCmd) : Bool :=
  match c with
  | .load _ _ _ => true
  | .resume _ _ | .pushIn _ _ | .popOut _ | .readOutq _ | .readStatus _ | .readMem _ _ | .start _ => false

/-- R225: another transaction than LOAD that names an instance that does not exist. -/
def State.namesUnloaded (s : State) (c : HostCmd) : Bool :=
  match c.names with
  | none   => false
  | some i => !c.isLoad && (s.inst? i).isNone

/-- R42: a READ_MEM of the instance whose resume transaction is running. -/
def State.readsRunning (s : State) (c : HostCmd) : Bool :=
  match s.ctl, c with
  | .running i _, .readMem j _ => decide (j = i)
  | _, _                       => false

/-- R42, R225: what is refused at the port whatever the block is doing (spec/93_implementation_defined.md I25). -/
def State.refusedAtPort (s : State) (c : HostCmd) : Bool := s.namesUnloaded c || s.readsRunning c

/-- What may be performed while instance i runs: of another instance, a read, and, where no pattern runs, whatever
writes a queue or an instance. Every other transaction of instance i waits (R36), and so do a second RESUME and a START
(R19: one instance executes at a time); in a pattern only the instance whose turn it is, and between turns the
scheduler, move values (R200). -/
def admittedWhileRunning (c : HostCmd) (i : Nat) (d : Sched) : Bool :=
  match c with
  | .readMem j _ | .readOutq j | .readStatus j => decide (j ≠ i)
  | .load j _ _ | .pushIn j _ | .popOut j      => decide (j ≠ i) && decide (d = .off)
  | .resume _ _ | .start _                     => false

/-- What may be performed now: anything while no transaction is in progress, and between the transactions of a
pattern, and before a stop is reported, the reads (R222, R200). -/
def admitted (c : HostCmd) (ctl : Control) (d : Sched) : Bool :=
  match ctl with
  | .idle        => true
  | .running i _ => admittedWhileRunning c i d
  | .stopped _ _ => isRead c
  | .turn        => isRead c

/-- The transaction at the ports that the next step takes up, with the state without it: the oldest one, unless it must
wait (notes/assumptions/4.md). -/
def State.takenUp (s : State) : Option (HostCmd × State) :=
  match s.atPort with
  | []     => none
  | c :: l => if s.refusedAtPort c || admitted c s.ctl s.sched then some (c, { s with atPort := l }) else none

/-- R199: `run_to_completion(initial_inbound)` of a program on instance i, whose result is the whole OUTQ or the fault. -/
def runToCompletion (i : Nat) (prog inbound : List Word) : List HostCmd :=
  [.load i prog inbound, .resume i Mask.none, .readOutq i]

end Sys2Proof.Machine
end

