-- ==== Sys2Proof/Machine/Scheduler.lean ====
section
/-! DEFINITION. The multi-instance scheduler: the linear pipeline, the feedback ring and the star network
(spec/60_exceptions.md R200 to R215; their reset, spec/70_reset_and_hazards.md R228, R230). -/

namespace Sys2Proof.Machine

/-- Go on with the state, or stop the block. -/
def orFault {α : Type} (e : Except Fault α) (k : α → Result) : Result :=
  match e with
  | .ok a    => k a
  | .error f => .fault f

/-- The scheduler appends v to INQ(i). On a queue that already holds QUEUE_DEPTH values the spec states no effect:
notes/assumptions/6.md, safe. -/
def State.append (s : State) (i : Nat) (v : Word) : Except Fault State :=
  match s.inst? i with
  | none   => .error (.schedulerRefused i)
  | some x =>
    if holds s.cfg (x.inq.length + 1) then .ok (s.setInst i { x with inq := x.inq ++ [v] })
    else .error (.schedulerQueueFull i)

/-- The scheduler appends x and then y to INQ(i) (R209, R213). -/
def State.append2 (s : State) (i : Nat) (x y : Word) : Except Fault State := do
  let t ← s.append i x
  t.append i y

/-- R200: a RESUME of one instance by the scheduler. -/
def State.issueTurn (s : State) (i : Nat) (mask : Mask) : Result :=
  match s.beginResume i mask with
  | some t => .next t
  | none   => .fault (.schedulerRefused i)

/-- R200: the scheduler's next transaction is due, with this scheduler state. -/
def State.nextTurn (s : State) (d : Sched) : State := { s with ctl := .turn, sched := d }

/-- R236: the pattern's run ends, and the host is told how. -/
def State.finish (s : State) (e : PatternEnd) : State := { s with ctl := .idle, sched := .off }.reply (.ended e)

/-! ### Linear pipeline -/

/-- R202: LOAD(i, P, [phase[i], s[i-1]]) of stage `next`, whose RESUME is then due. -/
def pipelineLoad (p : Pipeline) (s : State) : Result :=
  match p.phases[p.next]? with
  | none    => .fault (.schedulerRefused p.next)
  | some ph =>
    match s.load p.next p.prog [ph, p.signal] with
    | none   => .fault (.schedulerRefused p.next)
    | some t => .next (t.nextTurn (.pipeline { p with loaded := true }))

/-- R202: the next transaction of a pipeline: the LOAD of stage `next`, then RESUME(i, {}). -/
def pipelineTurn (p : Pipeline) (s : State) : Result :=
  if p.loaded then s.issueTurn p.next Mask.none else pipelineLoad p s

/-- R202, R203, R215: what follows the stop of stage i. -/
def pipelineStop (p : Pipeline) (i : Nat) (st : Status) (s : State) : Result :=
  match st with
  | .fault k => .next (s.finish (.networkFault i k))
  | .halted  =>
    match s.outQueue i with
    | some [v] =>
      if i + 1 < p.phases.length then .next (s.nextTurn (.pipeline { p with next := i + 1, signal := v, loaded := false }))
      else .next (s.finish (.result v))
    | _ => .next (s.finish (.pipelineOutputError i))
  | .needsInput => .fault (.schedulerStop i)
  | .hasOutput  => .fault (.schedulerStop i)

/-! ### Feedback ring -/

/-- R205: the mask of a ring's turns. -/
def ringMask : Mask := { needsInput := false, hasOutput := true }

/-- R205: the ring's next turn. -/
def ringTurn (r : Ring) (s : State) : Result := s.issueTurn r.next ringMask

/-- R206: every instance has HALTED = 1. -/
def allHalted (s : State) : Bool :=
  s.insts.all fun o =>
    match o with
    | some x => x.halted
    | none   => false

/-- R206: after each turn: the end, or the next turn in round-robin order. -/
def ringAfterTurn (r : Ring) (i : Nat) (s : State) : Result :=
  if allHalted s then
    match r.last with
    | some v => .next (s.finish (.result v))
    | none   => .next (s.finish .noResult)
  else .next (s.nextTurn (.ring { r with next := (i + 1) % s.insts.length }))

/-- R206: the value instance i has just pushed stands last in OUTQ(i) (R197: one value per HasOutput stop). -/
def lastPushed (s : State) (i : Nat) : Option Word :=
  match s.outQueue i with
  | some q => q.getLast?
  | none   => none

/-- R205, R206, R215: what follows the stop of instance i; instance N-1 pushes into INQ(0). -/
def ringStop (r : Ring) (i : Nat) (st : Status) (s : State) : Result :=
  match st with
  | .fault k    => .next (s.finish (.networkFault i k))
  | .halted     => ringAfterTurn r i s
  | .hasOutput  =>
    if i + 1 = s.insts.length then ringAfterTurn { r with last := lastPushed s i } i s else ringAfterTurn r i s
  | .needsInput => .fault (.schedulerStop i)

/-! ### Star network -/

/-- R208: the mask of a star network's turns. -/
def starMask : Mask := { needsInput := true, hasOutput := true }

/-- R208, R211: the network's next RESUME: a new turn's, or one more in the same turn. -/
def starTurn (t : Star) (s : State) : Result := s.issueTurn t.next starMask

/-- R212: the idle test at the end of a round. -/
def starIdle (t : Star) (s : State) : Bool :=
  (s.insts.all fun o =>
    match o with
    | some x => x.inq.isEmpty
    | none   => true) && t.part.all List.isEmpty && !t.roundOut

/-- R214: the injected packet and the last injected one agree in the compared part. -/
def sameInjection (c : Config) (last : Option (Word × Word)) (x y : Word) : Bool :=
  match last with
  | none          => false
  | some (x', y') =>
    match c.natCompare with
    | .y  => decide (y = y')
    | .xy => decide (x = x' ∧ y = y')

/-- R213, R214: idle injection of the held packet, and the termination test. The injection is made before the end. -/
def starInject (t : Star) (s : State) : Result :=
  match t.held with
  | none        => .next (s.finish .networkDeadlock)
  | some (x, y) =>
    orFault (s.append2 0 x y) fun s' =>
      if sameInjection s.cfg t.lastInj x y then .next (s'.finish (.packet x y))
      else .next (s'.nextTurn (.star { t with next := 0, roundOut := false, supplied := false, lastInj := some (x, y) }))

/-- R208, R212: after the turn of instance i: the next instance's turn, or at the end of the round the idle test. -/
def starEndTurn (t : Star) (i : Nat) (s : State) : Result :=
  if i + 1 < s.insts.length then .next (s.nextTurn (.star { t with next := i + 1, supplied := false }))
  else if starIdle t s then starInject t s
  else .next (s.nextTurn (.star { t with next := 0, roundOut := false, supplied := false }))

/-- R209: a value of instance i's output joins part[i]; a full triple (d, x, y) is routed to INQ(d), or to the
sentinel where d names no instance (R210: the latest packet replaces the held one). -/
def starCollect (t : Star) (i : Nat) (v : Word) (s : State) : Result :=
  let t := { t with roundOut := true }
  match t.part.getD i [] ++ [v] with
  | [d, x, y] =>
    let t := { t with part := t.part.set i [] }
    if 0 ≤ d ∧ d < s.insts.length then orFault (s.append2 d.toNat x y) (starEndTurn t i)
    else starEndTurn { t with held := some (x, y) } i s
  | q => starEndTurn { t with part := t.part.set i q } i s

/-- R211: after a NeedsInput stop of instance i, by NAT_EMPTY_READ: the turn ends, or a value is supplied and one more
RESUME of i is due in the same turn; a second NeedsInput ends the turn. -/
def starEmptyRead (t : Star) (i : Nat) (s : State) : Result :=
  if t.supplied then starEndTurn t i s
  else
    match s.cfg.natEmptyRead with
    | .block    => starEndTurn t i s
    | .supply v =>
      orFault (s.append i v) fun s' => .next (s'.nextTurn (.star { t with next := i, supplied := true }))

/-- R208, R209, R211, R215: what follows the stop of instance i. -/
def starStop (t : Star) (i : Nat) (st : Status) (s : State) : Result :=
  match st with
  | .fault k    => .next (s.finish (.networkFault i k))
  | .halted     => starEndTurn t i s
  | .hasOutput  =>
    match s.popOut i with
    | some (s', some v) => starCollect t i v s'
    | _                 => .fault (.schedulerStop i)
  | .needsInput => starEmptyRead t i s

/-! ### Boot of a pattern (R230) -/

/-- R201, R202: the pipeline's set-up; each stage is LOADed at its turn. -/
def startPipeline (prog phases : List Word) (s : State) : Option State :=
  if 0 < s.insts.length ∧ phases.length = s.insts.length
      ∧ phases.all (fun ph => canLoad s.cfg prog [ph, s.cfg.pipelineInput]) then
    some (s.nextTurn (.pipeline
      { prog := prog, phases := phases, next := 0, signal := s.cfg.pipelineInput, loaded := false }))
  else none

/-- R204: the instances of a ring of n from index i on: instance i LOADed with its phase, its OUTQ wired to
INQ((i+1) mod n). -/
def ringInsts (prog : List Word) (n : Nat) : Nat → List Word → List (Option Inst)
  | _, [] => []
  | i, ph :: phs => some { Inst.load prog [ph] with outTo := some ((i + 1) % n) } :: ringInsts prog n (i + 1) phs

/-- R204, R228, R230: the ring's set-up: every LOAD, the wiring, then RING_INPUT appended to INQ(0). -/
def startRing (prog phases : List Word) (s : State) : Option (Except Fault State) :=
  if 0 < s.insts.length ∧ phases.length = s.insts.length
      ∧ phases.all (fun ph => canLoad s.cfg prog [ph]) ∧ representable s.cfg s.cfg.ringInput then
    some ((({ s with insts := ringInsts prog phases.length 0 phases }).nextTurn
      (.ring { next := 0, last := none })).append 0 s.cfg.ringInput)
  else none

/-- R11: NAT_SEED(i) for i below n. -/
def natSeeds (c : Config) (n : Nat) : List (List Word) :=
  match c.natSeed with
  | .ownAddress => (List.range n).map fun (i : Nat) => [(i : Word)]
  | .table l    => (List.range n).map fun (i : Nat) => l.getD i []

/-- R7, R11: the value NAT_EMPTY_READ supplies is a word. -/
def supplyOk (c : Config) : Bool :=
  match c.natEmptyRead with
  | .block    => true
  | .supply v => representable c v

/-- R207, R228: the star network's set-up: every instance LOADed with its seed, no wiring, nothing assembled, held or
injected. -/
def startStar (prog : List Word) (s : State) : Option State :=
  let n := s.insts.length
  if 0 < n ∧ (natSeeds s.cfg n).all (canLoad s.cfg prog) ∧ supplyOk s.cfg then
    some (({ s with insts := (natSeeds s.cfg n).map fun q => some (Inst.load prog q) }).nextTurn
      (.star { next := 0, part := List.replicate n [], held := none, lastInj := none, roundOut := false,
               supplied := false }))
  else none

end Sys2Proof.Machine
end

