-- ==== Sys2Proof/Machine/Control.lean ====
section
/-! DEFINITION. What the block does between instructions: one host transaction (spec/10_state.md R36 to R42), the report of
a stop to its caller, or the scheduler's next turn (spec/60_exceptions.md R195, R200). -/

namespace Sys2Proof.Machine

/-- The port's answer: the transaction's state, or the refusal told to the host with nothing changed (R37, R39). -/
def State.orRefuse (s : State) (c : HostCmd) (t : Option State) : Result :=
  match t with
  | some t => .next t
  | none   => .next (s.reply (.refused c))

/-- A transaction that returns a value and changes nothing, or its refusal. -/
def State.answer {α : Type} (s : State) (c : HostCmd) (v : Option α) (r : α → Reply) : Result :=
  s.orRefuse c (v.map fun a => s.reply (r a))

/-- R200, R204, R207, R230: the host starts a pattern (notes/assumptions/7.md). -/
def startPattern (p : Pattern) (s : State) : Result :=
  match p with
  | .pipeline prog phases => s.orRefuse (.start p) (startPipeline prog phases s)
  | .star prog            => s.orRefuse (.start p) (startStar prog s)
  | .ring prog phases     =>
    match startRing prog phases s with
    | none   => .next (s.reply (.refused (.start p)))
    | some e => orFault e .next

/-- R37 to R42: one host transaction, already taken from the list of pending ones. -/
def perform (c : HostCmd) (s : State) : Result :=
  match c with
  | .load i prog inbound => s.orRefuse c ((s.load i prog inbound).map fun t => t.reply (.loaded i))
  | .resume i mask       => s.orRefuse c (s.beginResume i mask)
  | .pushIn i v          => s.orRefuse c ((s.pushIn i v).map fun t => t.reply (.pushed i))
  | .popOut i            => s.orRefuse c ((s.popOut i).map fun r => r.1.reply (.popped i r.2))
  | .readOutq i          => s.answer c (s.outQueue i) (.outq i)
  | .readStatus i        => s.answer c (s.readStatus i) (.status i)
  | .readMem i a         => s.answer c (s.readMem i a) (.cell i a)
  | .start p             => startPattern p s

/-- R36: the block between transactions: the host's next one, or, where none is pending, the block waits, and nothing
changes (notes/assumptions/4.md). -/
def stepIdle (s : State) : Result :=
  match s.host with
  | []     => .next s
  | c :: h => perform c { s with host := h }

/-- R36, R42, R225: a transaction that stood at the ports is refused or performed. -/
def stepPresented (c : HostCmd) (s : State) : Result :=
  if s.refusedAtPort c then .next (s.reply (.refused c)) else perform c s

/-- R195, R200: the stop of instance i goes to its caller: the host, or the pattern that runs. -/
def stepStopped (i : Nat) (st : Status) (s : State) : Result :=
  match s.sched with
  | .off        => .next ({ s with ctl := .idle }.reply (.stopped i st))
  | .pipeline p => pipelineStop p i st s
  | .ring r     => ringStop r i st s
  | .star t     => starStop t i st s

/-- R200: the scheduler issues its next transaction. -/
def stepTurn (s : State) : Result :=
  match s.sched with
  | .off        => .fault .noPattern
  | .pipeline p => pipelineTurn p s
  | .ring r     => ringTurn r s
  | .star t     => starTurn t s

/-- What the block does by itself: an instruction of the instance whose resume transaction is in progress (R195's loop),
or what happens between resume transactions. `run` is the dispatch of R97. -/
def stepOwn (run : Instr → State → Result) (s : State) : Result :=
  match s.ctl with
  | .running _ _   => stepInstruction run s
  | .stopped i st  => stepStopped i st s
  | .turn          => stepTurn s
  | .idle          => stepIdle s

/-- One step of the block: the transaction at the ports that can be taken up, or what the block does by itself. -/
def stepWith (run : Instr → State → Result) (s : State) : Result :=
  match s.takenUp with
  | some (c, u) => stepPresented c u
  | none        => stepOwn run s

end Sys2Proof.Machine
end

