-- ==== Sys2Proof/Machine/Arithmetic.lean ====
section
/-! DEFINITION. Add and Multiply (spec/41_arithmetic.md R98 to R101). -/

namespace Sys2Proof.Machine

/-- R98, R100: the exact sum, or ValueOutOfRange. -/
def sumResult (c : Config) (v1 v2 : Word) : Except FaultKind Word := checkValue c (v1 + v2)

/-- R99, R100: the exact product, or ValueOutOfRange. -/
def productResult (c : Config) (v1 v2 : Word) : Except FaultKind Word := checkValue c (v1 * v2)

/-- R98: ADD. -/
def execAdd (p1 p2 p3 : Param) (s : State) : Result := store3 sumResult p1 p2 p3 s

/-- R99: MUL. -/
def execMul (p1 p2 p3 : Param) (s : State) : Result := store3 productResult p1 p2 p3 s

end Sys2Proof.Machine
end

