-- ==== Sys2Proof/Machine/Comparison.lean ====
section
/-! DEFINITION. LessThan and Equals (spec/44_compare.md R110 to R112). -/

namespace Sys2Proof.Machine

/-- R111: 1 where p1 < p2 as signed integers, else 0; never out of range. -/
def lessResult (_ : Config) (v1 v2 : Word) : Except FaultKind Word := .ok (boolWord (decide (v1 < v2)))

/-- R112: 1 where p1 = p2, else 0; never out of range. -/
def equalResult (_ : Config) (v1 v2 : Word) : Except FaultKind Word := .ok (boolWord (decide (v1 = v2)))

/-- R111: LT. -/
def execLt (p1 p2 p3 : Param) (s : State) : Result := store3 lessResult p1 p2 p3 s

/-- R112: EQ. -/
def execEq (p1 p2 p3 : Param) (s : State) : Result := store3 equalResult p1 p2 p3 s

end Sys2Proof.Machine
end

