-- ==== Sys2Proof/Machine/Halt.lean ====
section
/-! DEFINITION. Halt (spec/46_halt.md R115, R116). -/

namespace Sys2Proof.Machine

/-- R116: HALT. `HALTED <- 1`, nothing else of the instance changes, and the resume transaction returns Halted whatever
the mask (R198). -/
def execHalt (s : State) : Result :=
  s.onActive fun i _ x => .next ((s.setInst i { x with halted := true }).stop i .halted)

end Sys2Proof.Machine
end

