-- ==== Sys2Proof/Machine/InputOutput.lean ====
section
/-! DEFINITION. Input and Output (spec/42_io.md R102 to R105; the stops, spec/60_exceptions.md R196, R197). -/

namespace Sys2Proof.Machine

/-- R103: the checks of IN before its channel check: the write address, then the advance by 2. -/
def checkIn (c : Config) (x : Inst) (p1 : Param) : Except FaultKind (Nat × Word) := do
  let ea ← writeAddress c x p1
  let next ← advance c x 2
  .ok (ea, next)

/-- R103, R105: IN. An empty INQ blocks where the mask has NeedsInput (R196: the instance is unchanged), and is
ChannelUnderflow where it has not. -/
def execInp (p1 : Param) (s : State) : Result :=
  s.onActive fun i m x =>
    s.attempt i (checkIn s.cfg x p1) fun (ea, next) =>
      match x.inq with
      | []     => if m.needsInput then .next (s.stop i .needsInput) else .next (s.takeFault i .channelUnderflow)
      | v :: q => .next (s.setInst i { x.write ea v with ip := next, inq := q })

/-- R104: the checks of OUT before its channel check: the operand, then the advance by 2. -/
def checkOut (c : Config) (x : Inst) (p1 : Param) : Except FaultKind (Word × Word) := do
  let v ← readOperand c x p1
  let next ← advance c x 2
  .ok (v, next)

/-- R104: OUT. The value goes to OUTQ(i), which may be wired (R102); the resume transaction then stops with HasOutput
where the mask has it (R197). -/
def execOut (p1 : Param) (s : State) : Result :=
  s.onActive fun i m x =>
    s.attempt i (checkOut s.cfg x p1) fun (v, next) =>
      match s.outQueue i with
      | none   => .fault .noQueue
      | some q =>
        if holds s.cfg (q.length + 1) then
          let t := (s.setInst i { x with ip := next }).setOutQueue i (q ++ [v])
          .next (if m.hasOutput then t.stop i .hasOutput else t)
        else .next (s.takeFault i .channelOverflow)

end Sys2Proof.Machine
end

