-- ==== Sys2Proof/Machine/Jumps.lean ====
section
/-! DEFINITION. JumpIfTrue and JumpIfFalse (spec/43_jumps.md R106 to R109; the test is `!= 0`, spec/90_conflicts.md C1). -/

namespace Sys2Proof.Machine

/-- R107: the condition of JT. -/
def takenTrue (v : Word) : Bool := decide (v ≠ 0)

/-- R108: the condition of JF. -/
def takenFalse (v : Word) : Bool := decide (v = 0)

/-- R107: JT. -/
def execJt (p1 p2 : Param) (s : State) : Result := jump takenTrue p1 p2 s

/-- R108: JF. -/
def execJf (p1 p2 : Param) (s : State) : Result := jump takenFalse p1 p2 s

end Sys2Proof.Machine
end

