-- ==== Sys2Proof/Machine/RelativeBase.lean ====
section
/-! DEFINITION. AdjustRelativeBase (spec/45_relative_base.md R113, R114). -/

namespace Sys2Proof.Machine

/-- R114: the checks of ARB: the operand (read at the old rb, R92), the new rb, the advance by 2. -/
def checkArb (c : Config) (x : Inst) (p1 : Param) : Except FaultKind (Word × Word) := do
  let v ← readOperand c x p1
  let r ← checkValue c (x.rb + v)
  let next ← advance c x 2
  .ok (r, next)

/-- R114: ARB. -/
def execArb (p1 : Param) (s : State) : Result :=
  s.onActive fun i _ x =>
    s.attempt i (checkArb s.cfg x p1) fun (r, next) =>
      .next (s.setInst i { x with rb := r, ip := next })

end Sys2Proof.Machine
end

