-- ==== Sys2Proof/Machine/Step.lean ====
section
/-! DEFINITION. One step of the block, and the state whose next step runs a given instruction
(spec/40_datapath.md R83, R97). -/

namespace Sys2Proof.Machine

/-- One step: an instruction, a host transaction, or an action of the scheduler. -/
def step (s : State) : Host.Outcome State Fault Refusal := stepWith exec s

/-- The state with the instruction word of a table row, and parameter cells of 0, where the next step fetches
(notes/assumptions/10.md). -/
def State.withFetchWord (s : State) (nbits w : Nat) : State :=
  s.placeCells [((w % 2 ^ nbits : Nat) : Word), 0, 0, 0]

end Sys2Proof.Machine
end

