-- ==== Sys2Proof/Safety.lean ====
section
/-! DEFINITION. The terms the statements are made in: a running instance, what changes in a step, the legal words, and
the invariants of the block. -/

namespace Sys2Proof.Machine

/-! ### A step's subject and what it changes -/

/-- R83: a resume transaction with mask m is in progress on instance i, which is x and READY. -/
abbrev Running (s : State) (i : Nat) (m : Mask) (x : Inst) : Prop :=
  s.ctl = .running i m ∧ s.inst? i = some x ∧ x.halted = false ∧ x.fault = none

/-- From s to t every instance but i, the configuration, the scheduler's state and the host's lists are unchanged, and
instance i is y. (The transaction's control, `ctl`, is stated beside it.) -/
def OnlyInst (s : State) (i : Nat) (y : Inst) (t : State) : Prop :=
  t.inst? i = some y ∧ (∀ j, j ≠ i → t.inst? j = s.inst? j) ∧ t.insts.length = s.insts.length
    ∧ t.cfg = s.cfg ∧ t.sched = s.sched ∧ t.host = s.host ∧ t.atPort = s.atPort ∧ t.replies = s.replies

/-- R24 to R30: y has x's cursor except ip, and x's HALTED, FAULT, FAULT_IP, queues and wiring. -/
def SameBesidesMemAndIp (x y : Inst) : Prop :=
  y.rb = x.rb ∧ y.halted = x.halted ∧ y.fault = x.fault ∧ y.faultIp = x.faultIp ∧ y.inq = x.inq ∧ y.outq = x.outq
    ∧ y.outTo = x.outTo

/-- R50: in y's memory address a reads v, and every other address reads as in x's. -/
def StoresCell (x y : Inst) (a : Nat) (v : Word) : Prop :=
  Mem.read y.mem a = v ∧ ∀ b, b ≠ a → Mem.read y.mem b = Mem.read x.mem b

/-- R29: every address reads the same. -/
def SameMemory (x y : Inst) : Prop := ∀ a, Mem.read y.mem a = Mem.read x.mem a

/-- R190: the whole effect of fault entry: FAULT and FAULT_IP of instance i, and the status of its transaction. -/
def FaultEntry (s : State) (i : Nat) (k : FaultKind) (t : State) : Prop :=
  ∃ x, s.inst? i = some x ∧ OnlyInst s i { x with fault := some k, faultIp := x.ip } t ∧ t.ctl = .stopped i (.fault k)

/-- R29, R221: memory, cursor, HALTED, FAULT, FAULT_IP and wiring are x's; only the queues may differ. -/
def SameBesidesQueues (x y : Inst) : Prop :=
  y.mem = x.mem ∧ y.ip = x.ip ∧ y.rb = x.rb ∧ y.halted = x.halted ∧ y.fault = x.fault ∧ y.faultIp = x.faultIp
    ∧ y.outTo = x.outTo

/-- R36, R41, R42, R200: the kinds of transaction that can be performed while another instance's resume transaction is in
its loop: a read at any time, a LOAD, PUSH_IN or POP_OUT where no pattern runs. -/
def HostCmd.concurrent (c : HostCmd) (d : Sched) : Prop :=
  match c with
  | .readOutq _ | .readStatus _ | .readMem _ _ => True
  | .load _ _ _ | .pushIn _ _ | .popOut _      => d = .off
  | .resume _ _ | .start _                     => False

/-- R40, R41, R42: c only reads. -/
def HostCmd.Reads (c : HostCmd) : Prop := ∃ j, c = .readOutq j ∨ c = .readStatus j ∨ ∃ a, c = .readMem j a

/-- R36, R222, R200, R19: the block can perform the host's transaction c now: any one while no transaction is in
progress, a read between a pattern's transactions or where a stop waits to be reported, and a concurrent one that does
not name the running instance. -/
def MayPerform (s : State) (c : HostCmd) : Prop :=
  match s.ctl with
  | .idle        => True
  | .running i _ => c.names ≠ some i ∧ c.concurrent s.sched
  | .stopped _ _ => c.Reads
  | .turn        => c.Reads

/-- R225: c is no LOAD, and names an instance that was never LOADed. -/
def NamesUnloaded (s : State) (c : HostCmd) : Prop :=
  ∃ i, c.names = some i ∧ s.inst? i = none ∧ ∀ prog inbound, c ≠ .load i prog inbound

/-- R42: c is a READ_MEM of the instance whose resume transaction is running. -/
def ReadsRunning (s : State) (c : HostCmd) : Prop := ∃ i m a, s.ctl = .running i m ∧ c = .readMem i a

/-- R42, R225: the port refuses c, whatever the block is doing. -/
def MustRefuse (s : State) (c : HostCmd) : Prop := NamesUnloaded s c ∨ ReadsRunning s c

/-- No transaction stands at the ports, or the oldest one waits. -/
def PortQuiet (s : State) : Prop := ∀ c l, s.atPort = c :: l → ¬ MayPerform s c ∧ ¬ MustRefuse s c

/-- R36: the next step performs the host's transaction c, and u is the state without it: the oldest one at the ports,
where it can be performed now, or, with nothing at the ports and no transaction in progress, the oldest pending one. -/
def TakesUp (s : State) (c : HostCmd) (u : State) : Prop :=
  (∃ l, s.atPort = c :: l ∧ MayPerform s c ∧ u = { s with atPort := l })
    ∨ (s.ctl = .idle ∧ s.atPort = [] ∧ ∃ h, s.host = c :: h ∧ u = { s with host := h })

/-- R37, R204, R207, R202: the next step may LOAD instance i: the host's LOAD of it, the boot of a ring or a star
network, or the pipeline's turn of it. -/
def loads (s : State) (i : Nat) : Bool :=
  match s.ctl with
  | .idle =>
    match s.atPort ++ s.host with
    | .load j _ _ :: _          => decide (j = i)
    | .start (.ring _ _) :: _   => true
    | .start (.star _) :: _     => true
    | _                         => false
  | .turn =>
    match s.sched with
    | .pipeline p => decide (p.next = i) && !p.loaded
    | _           => false
  | .running _ _ =>
    match s.atPort with
    | .load j _ _ :: _ => decide (j = i)
    | _                => false
  | .stopped _ _ => false

/-- R208, R212, R213: what a star network's scheduler has after an output turn of instance i: whose turn is next, the
output recorded for the rest of its round (after the last instance's turn a new round begins), and the last injected
packet as before; the next turn has been supplied nothing (R211). -/
def OutputTurnRecorded (s : State) (i : Nat) (t t' : Star) : Prop :=
  t'.next = (if i + 1 < s.insts.length then i + 1 else 0) ∧ t'.lastInj = t.lastInj
    ∧ t'.roundOut = decide (i + 1 < s.insts.length) ∧ t'.supplied = false

/-! ### Instruction words -/

/-- R77: the legal instruction words, as R77 lists them. -/
def legalWords : List Word :=
  ([1, 2, 7, 8] : List Word).flatMap (fun op =>
    ([0, 1, 2] : List Word).flatMap fun a => ([0, 1, 2] : List Word).flatMap fun b =>
      ([0, 2] : List Word).map fun c => op + 100 * a + 1000 * b + 10000 * c)
  ++ [3, 203] ++ [4, 104, 204] ++ [9, 109, 209]
  ++ ([5, 6] : List Word).flatMap (fun op =>
    ([0, 1, 2] : List Word).flatMap fun a => ([0, 1, 2] : List Word).map fun b => op + 100 * a + 1000 * b)
  ++ [99]

/-- The cells of a memory from address a on. -/
def cellsAt (m : Mem) (a n : Nat) : List Word := (List.range n).map fun k => Mem.read m (a + k)

/-! ### The invariant of the data -/

/-- R7 to R9, R27, R30: what holds of every instance: its memory is canonical, within MEM_LIMIT and made of words;
its registers and queues hold words; its queues are within QUEUE_DEPTH; it is not both halted and faulted. -/
def Inst.ok (c : Config) (x : Inst) : Bool :=
  Mem.wf x.mem && x.mem.all (fun e => inLimit c e.1 && representable c e.2)
    && representable c x.ip && representable c x.rb && representable c x.faultIp
    && x.inq.all (representable c) && x.outq.all (representable c)
    && holds c x.inq.length && holds c x.outq.length
    && (!x.halted || x.fault.isNone)

/-- R209, R210, R211: the values a star network holds, or supplies, are words. -/
def Sched.ok (c : Config) (d : Sched) : Bool :=
  match d with
  | .off        => true
  | .pipeline _ => true
  | .ring _     => true
  | .star t     =>
    t.part.all (fun q => q.all (representable c)) && supplyOk c
      && match t.held with
        | none        => true
        | some (x, y) => representable c x && representable c y

/-- The data of the block is as R7 to R10 say, for the legal parameter values. -/
def State.dataOk (s : State) : Bool :=
  s.cfg.legal && legalInstances s.insts.length && Sched.ok s.cfg s.sched
    && s.insts.all fun o =>
      match o with
      | none   => true
      | some x => Inst.ok s.cfg x

/-! ### The invariant of the control -/

/-- Every instance exists. -/
def allLoaded (s : State) : Bool := s.insts.all Option.isSome

/-- R31: a wired OUTQ is the INQ of an instance that exists. -/
def wiringOk (s : State) : Bool :=
  s.insts.all fun o =>
    match o with
    | none   => true
    | some x =>
      match x.outTo with
      | none   => true
      | some j => (s.inst? j).isSome

/-- R201 to R208: a pattern's state fits its instances, and its LOADs and RESUMEs will be accepted. -/
def schedOk (s : State) : Bool :=
  match s.sched with
  | .off        => true
  | .pipeline p =>
    decide (p.phases.length = s.insts.length) && decide (p.next < s.insts.length)
      && (p.phases.all fun ph => canLoad s.cfg p.prog [ph, p.signal])
      && (!p.loaded || (s.inst? p.next).isSome)
  | .ring r     => allLoaded s && decide (r.next < s.insts.length)
  | .star t     => allLoaded s && decide (t.next < s.insts.length) && decide (t.part.length = s.insts.length)

/-- R202, R205, R208: a turn is one of the instance whose turn it is, with its pattern's mask. -/
def turnOk (d : Sched) (i : Nat) (m : Mask) : Bool :=
  match d with
  | .off        => true
  | .pipeline p => decide (i = p.next) && decide (m = Mask.none)
  | .ring r     => decide (i = r.next) && decide (m = ringMask)
  | .star t     => decide (i = t.next) && decide (m = starMask)

/-- R196, R197: the status with which a turn stops is one its mask selects, and after HasOutput the value is in OUTQ. -/
def stopOk (s : State) (i : Nat) (st : Status) : Bool :=
  match s.sched with
  | .off        => true
  | .pipeline p => decide (i = p.next) && decide (st ≠ .needsInput) && decide (st ≠ .hasOutput)
  | .ring r     => decide (i = r.next) && decide (st ≠ .needsInput)
  | .star t     =>
    decide (i = t.next) &&
      (decide (st ≠ .hasOutput) ||
        match s.outQueue i with
        | some (_ :: _) => true
        | _             => false)

/-- Who moves next is as R83, R195 and R200 say. -/
def State.ctlOk (s : State) : Bool :=
  wiringOk s && schedOk s &&
    match s.ctl with
    | .idle         => decide (s.sched = .off)
    | .running i m  =>
      (match s.inst? i with
        | some x => x.ready
        | none   => false) && turnOk s.sched i m
    | .stopped i st => (s.inst? i).isSome && stopOk s i st
    | .turn         => decide (s.sched ≠ .off)

end Sys2Proof.Machine
end

