-- ==== Sys2Proof/Certificates/Slice0/Obligations.lean ====
section
/-! DEFINITION. The statements for the provers. Each docstring names the rules of spec/ it formalises. -/

open Sys2Proof Sys2Proof.Machine

/-! ### Encoding -/

/-- R65, R67, R74, R81: words written out from the spec's encodings (one per kind at least) decode to the instructions
they stand for. -/
def Obligations.SpecWordsDecode : Prop :=
  decode [1001, 26, -4, 26] = .ok (.add ⟨.position, 26⟩ ⟨.immediate, -4⟩ ⟨.position, 26⟩, [])
  ∧ decode [22201, 0, 1, 1] = .ok (.add ⟨.relative, 0⟩ ⟨.relative, 1⟩ ⟨.relative, 1⟩, [])
  ∧ decode [1002, 27, 2, 27] = .ok (.mul ⟨.position, 27⟩ ⟨.immediate, 2⟩ ⟨.position, 27⟩, [])
  ∧ decode [3, 9, 8] = .ok (.inp ⟨.position, 9⟩, [8])
  ∧ decode [203, -3] = .ok (.inp ⟨.relative, -3⟩, [])
  ∧ decode [104, 7] = .ok (.out ⟨.immediate, 7⟩, [])
  ∧ decode [1005, 28, 6] = .ok (.jt ⟨.position, 28⟩ ⟨.immediate, 6⟩, [])
  ∧ decode [2206, -3, -2] = .ok (.jf ⟨.relative, -3⟩ ⟨.relative, -2⟩, [])
  ∧ decode [21107, 1, 2, 3] = .ok (.lt ⟨.immediate, 1⟩ ⟨.immediate, 2⟩ ⟨.relative, 3⟩, [])
  ∧ decode [1108, -7, 7, 5] = .ok (.eq ⟨.immediate, -7⟩ ⟨.immediate, 7⟩ ⟨.position, 5⟩, [])
  ∧ decode [209, 2] = .ok (.arb ⟨.relative, 2⟩, [])
  ∧ decode [99] = .ok (.halt, [])

/-- R64, R72, R81: the decoder gives back every well-formed instruction from its cells, whatever cells follow, at every
value of every operand. -/
def Obligations.DecodeOfEncode : Prop :=
  ∀ (i : Instr) (rest : List Word), i.wf = true → decode (encode i ++ rest) = .ok (i, rest)

/-- R70, R71, R79: whatever decodes is a well-formed instruction's encoding, of the length its kind has, and the
decoder leaves the cells after it. -/
def Obligations.EncodeOfDecode : Prop :=
  ∀ (cells rest : List Word) (i : Instr), decode cells = .ok (i, rest) →
    i.wf = true ∧ cells = encode i ++ rest ∧ (encode i).length = i.op.len

/-- R77: the words that decode without a fault are exactly the 99 that R77 lists. -/
def Obligations.LegalWordsAreTheListed99 : Prop :=
  legalWords.length = 99 ∧ legalWords.Nodup ∧ ∀ w : Word, (∃ h, decodeWord w = .ok h) ↔ w ∈ legalWords

/-- R78 with R66 to R69, R75 and R79: the decoder's answer on every word: the first failing check, in R78's order,
or the kind and the modes the digits name. -/
def Obligations.DecoderChecksInOrder : Prop :=
  ∀ w : Word,
    (w < 0 → decodeWord w = .error .unknownOpcode)
    ∧ (0 ≤ w → opOf (w.toNat % 100) = none → decodeWord w = .error .unknownOpcode)
    ∧ ∀ op, 0 ≤ w → opOf (w.toNat % 100) = some op →
        ((∃ k, 1 ≤ k ∧ k ≤ op.params ∧ 2 < digit w.toNat (k + 1)) → decodeWord w = .error .invalidParameterMode)
        ∧ ((∀ k, 1 ≤ k → k ≤ op.params → digit w.toNat (k + 1) ≤ 2) →
            (w.toNat / 10 ^ (op.params + 2) ≠ 0 → decodeWord w = .error .invalidParameterMode)
            ∧ (w.toNat / 10 ^ (op.params + 2) = 0 →
                ((op.params = 3 ∧ digit w.toNat 4 = 1) ∨ (op = .inp ∧ digit w.toNat 2 = 1) →
                  decodeWord w = .error .illegalWriteTarget)
                ∧ (¬ ((op.params = 3 ∧ digit w.toNat 4 = 1) ∨ (op = .inp ∧ digit w.toNat 2 = 1)) →
                  ∃ m1 m2 m3 : Mode, decodeWord w = .ok ⟨op, m1, m2, m3⟩
                    ∧ (1 ≤ op.params → m1.digit = digit w.toNat 2)
                    ∧ (2 ≤ op.params → m2.digit = digit w.toNat 3)
                    ∧ (3 ≤ op.params → m3.digit = digit w.toNat 4))))

/-- R68: no word with a non-zero digit above the last parameter's mode digit decodes (it raises InvalidParameterMode),
and the one Halt word is 99. -/
def Obligations.HighDigitsMustBeZero : Prop :=
  (∀ (w : Word) (op : Op), 0 ≤ w → opOf (w.toNat % 100) = some op → w.toNat / 10 ^ (op.params + 2) ≠ 0 →
    decodeWord w = .error .invalidParameterMode)
  ∧ (∀ (w : Word) (h : Head), decodeWord w = .ok h → w.toNat < 10 ^ (h.op.params + 2))
  ∧ ∀ w : Word, (∃ h, decodeWord w = .ok h ∧ h.op = .halt) ↔ w = 99

/-! ### Memory and operands -/

/-- R49: MemRead: NegativeAddress, then MemoryLimitExceeded, else the cell, which is 0 where nothing was written. -/
def Obligations.MemReadChecksThenReads : Prop :=
  ∀ (c : Config) (x : Inst) (a : Word),
    (a < 0 → memRead c x a = .error .negativeAddress)
    ∧ (∀ l, 0 ≤ a → c.memLimit = some l → l ≤ a.toNat → memRead c x a = .error .memoryLimitExceeded)
    ∧ (0 ≤ a → (∀ l, c.memLimit = some l → a.toNat < l) → memRead c x a = .ok (Mem.read x.mem a.toNat))
    ∧ ((∀ v, (a.toNat, v) ∉ x.mem) → Mem.read x.mem a.toNat = 0)

/-- R89, R91: what a read parameter gives in each mode, with the relative base the step began with. -/
def Obligations.ReadOperandByMode : Prop :=
  ∀ (c : Config) (x : Inst) (raw : Word),
    readOperand c x ⟨.immediate, raw⟩ = .ok raw
    ∧ readOperand c x ⟨.position, raw⟩ = memRead c x raw
    ∧ (representable c (x.rb + raw) = true → readOperand c x ⟨.relative, raw⟩ = memRead c x (x.rb + raw))
    ∧ (representable c (x.rb + raw) = false → readOperand c x ⟨.relative, raw⟩ = .error .valueOutOfRange)

/-- R90: the address a write parameter names in each mode, with its checks. -/
def Obligations.WriteAddressByMode : Prop :=
  ∀ (c : Config) (x : Inst) (m : Mode) (raw a : Word),
    ((m = .position ∧ a = raw) ∨ (m = .relative ∧ a = x.rb + raw ∧ representable c (x.rb + raw) = true) →
      (a < 0 → writeAddress c x ⟨m, raw⟩ = .error .negativeAddress)
      ∧ (∀ l, 0 ≤ a → c.memLimit = some l → l ≤ a.toNat → writeAddress c x ⟨m, raw⟩ = .error .memoryLimitExceeded)
      ∧ (0 ≤ a → (∀ l, c.memLimit = some l → a.toNat < l) → writeAddress c x ⟨m, raw⟩ = .ok a.toNat))
    ∧ (m = .relative → representable c (x.rb + raw) = false →
        writeAddress c x ⟨m, raw⟩ = .error .valueOutOfRange)

/-! ### What each instruction does -/

/-- R98, R100, R95: ADD writes the exact sum to the write address and advances by 4; nothing else changes. -/
def Obligations.AddWritesSum : Prop :=
  ∀ (s : State) (i : Nat) (m : Mask) (x : Inst) (p1 p2 p3 : Param) (v1 v2 : Word) (ea : Nat),
    Running s i m x → readOperand s.cfg x p1 = .ok v1 → readOperand s.cfg x p2 = .ok v2 →
    writeAddress s.cfg x p3 = .ok ea → representable s.cfg (v1 + v2) = true → representable s.cfg (x.ip + 4) = true →
    ∃ (t : State) (y : Inst), exec (.add p1 p2 p3) s = .next t ∧ OnlyInst s i y t ∧ t.ctl = s.ctl
      ∧ StoresCell x y ea (v1 + v2) ∧ y.ip = x.ip + 4 ∧ SameBesidesMemAndIp x y

/-- R99, R100, R95: MUL writes the exact product to the write address and advances by 4; nothing else changes. -/
def Obligations.MulWritesProduct : Prop :=
  ∀ (s : State) (i : Nat) (m : Mask) (x : Inst) (p1 p2 p3 : Param) (v1 v2 : Word) (ea : Nat),
    Running s i m x → readOperand s.cfg x p1 = .ok v1 → readOperand s.cfg x p2 = .ok v2 →
    writeAddress s.cfg x p3 = .ok ea → representable s.cfg (v1 * v2) = true → representable s.cfg (x.ip + 4) = true →
    ∃ (t : State) (y : Inst), exec (.mul p1 p2 p3) s = .next t ∧ OnlyInst s i y t ∧ t.ctl = s.ctl
      ∧ StoresCell x y ea (v1 * v2) ∧ y.ip = x.ip + 4 ∧ SameBesidesMemAndIp x y

/-- R110, R111, R112, R95: LT writes 1 where p1 < p2 (signed) and EQ where p1 = p2, else 0, to the write address, and
each advances by 4; nothing else changes. -/
def Obligations.ComparisonsWriteOneOrZero : Prop :=
  ∀ (s : State) (i : Nat) (m : Mask) (x : Inst) (p1 p2 p3 : Param) (v1 v2 : Word) (ea : Nat),
    Running s i m x → readOperand s.cfg x p1 = .ok v1 → readOperand s.cfg x p2 = .ok v2 →
    writeAddress s.cfg x p3 = .ok ea → representable s.cfg (x.ip + 4) = true →
    (∃ (t : State) (y : Inst), exec (.lt p1 p2 p3) s = .next t ∧ OnlyInst s i y t ∧ t.ctl = s.ctl
      ∧ StoresCell x y ea (if v1 < v2 then 1 else 0) ∧ y.ip = x.ip + 4 ∧ SameBesidesMemAndIp x y)
    ∧ ∃ (t : State) (y : Inst), exec (.eq p1 p2 p3) s = .next t ∧ OnlyInst s i y t ∧ t.ctl = s.ctl
      ∧ StoresCell x y ea (if v1 = v2 then 1 else 0) ∧ y.ip = x.ip + 4 ∧ SameBesidesMemAndIp x y

/-- R103: IN takes the oldest value of INQ, writes it to the write address and advances by 2. -/
def Obligations.InpTakesOldestValue : Prop :=
  ∀ (s : State) (i : Nat) (m : Mask) (x : Inst) (p1 : Param) (ea : Nat) (v : Word) (q : List Word),
    Running s i m x → writeAddress s.cfg x p1 = .ok ea → representable s.cfg (x.ip + 2) = true → x.inq = v :: q →
    ∃ (t : State) (y : Inst), exec (.inp p1) s = .next t ∧ OnlyInst s i y t ∧ t.ctl = s.ctl
      ∧ StoresCell x y ea v ∧ y.ip = x.ip + 2 ∧ y.inq = q
      ∧ y.rb = x.rb ∧ y.halted = x.halted ∧ y.fault = x.fault ∧ y.faultIp = x.faultIp ∧ y.outq = x.outq
      ∧ y.outTo = x.outTo

/-- R103, R105, R196, R185: IN on an empty INQ, its address and advance checks passed: with NeedsInput in the mask the
transaction stops with NeedsInput and the instance is unchanged; without it, ChannelUnderflow. -/
def Obligations.InpOnEmptyQueue : Prop :=
  ∀ (s : State) (i : Nat) (m : Mask) (x : Inst) (p1 : Param) (ea : Nat),
    Running s i m x → writeAddress s.cfg x p1 = .ok ea → representable s.cfg (x.ip + 2) = true → x.inq = [] →
    ∃ t : State, exec (.inp p1) s = .next t
      ∧ (m.needsInput = true → OnlyInst s i x t ∧ t.ctl = .stopped i .needsInput)
      ∧ (m.needsInput = false → FaultEntry s i .channelUnderflow t)

/-- R104, R102, R197: OUT appends its operand to OUTQ and advances by 2; with HasOutput in the mask the transaction
then stops with HasOutput. OUTQ is the instance's own queue here. -/
def Obligations.OutAppendsToOwnQueue : Prop :=
  ∀ (s : State) (i : Nat) (m : Mask) (x : Inst) (p1 : Param) (v : Word),
    Running s i m x → readOperand s.cfg x p1 = .ok v → representable s.cfg (x.ip + 2) = true → x.outTo = none →
    (∀ q, s.cfg.queueDepth = some q → x.outq.length < q) →
    ∃ t : State, exec (.out p1) s = .next t
      ∧ OnlyInst s i { x with ip := x.ip + 2, outq := x.outq ++ [v] } t
      ∧ t.ctl = if m.hasOutput then .stopped i .hasOutput else s.ctl

/-- R31, R102, R104, R197: OUT of an instance whose OUTQ is wired to INQ(j) appends to INQ(j), at once, and changes
nothing else of instance j; where j is the instance itself, its own INQ grows. -/
def Obligations.OutAppendsToWiredQueue : Prop :=
  ∀ (s : State) (i j : Nat) (m : Mask) (x z : Inst) (p1 : Param) (v : Word),
    Running s i m x → readOperand s.cfg x p1 = .ok v → representable s.cfg (x.ip + 2) = true → x.outTo = some j →
    s.inst? j = some z → (∀ q, s.cfg.queueDepth = some q → z.inq.length < q) →
    ∃ t : State, exec (.out p1) s = .next t
      ∧ t.ctl = (if m.hasOutput then .stopped i .hasOutput else s.ctl)
      ∧ (j = i → OnlyInst s i { x with ip := x.ip + 2, inq := x.inq ++ [v] } t)
      ∧ (j ≠ i → t.inst? i = some { x with ip := x.ip + 2 } ∧ t.inst? j = some { z with inq := z.inq ++ [v] }
          ∧ (∀ k, k ≠ i → k ≠ j → t.inst? k = s.inst? k) ∧ t.insts.length = s.insts.length
          ∧ t.cfg = s.cfg ∧ t.sched = s.sched ∧ t.host = s.host ∧ t.atPort = s.atPort ∧ t.replies = s.replies)

/-- R107: JT: where p1 is not 0 (a negative p1 too) ip becomes the value of p2, unchecked; else ip advances by 3. -/
def Obligations.JtJumpsOnNonZero : Prop :=
  ∀ (s : State) (i : Nat) (m : Mask) (x : Inst) (p1 p2 : Param) (v1 v2 : Word),
    Running s i m x → readOperand s.cfg x p1 = .ok v1 → readOperand s.cfg x p2 = .ok v2 →
    (v1 = 0 → representable s.cfg (x.ip + 3) = true) →
    ∃ t : State, exec (.jt p1 p2) s = .next t
      ∧ OnlyInst s i { x with ip := if v1 ≠ 0 then v2 else x.ip + 3 } t ∧ t.ctl = s.ctl

/-- R108: JF: where p1 is 0 ip becomes the value of p2, unchecked; else ip advances by 3. -/
def Obligations.JfJumpsOnZero : Prop :=
  ∀ (s : State) (i : Nat) (m : Mask) (x : Inst) (p1 p2 : Param) (v1 v2 : Word),
    Running s i m x → readOperand s.cfg x p1 = .ok v1 → readOperand s.cfg x p2 = .ok v2 →
    (v1 ≠ 0 → representable s.cfg (x.ip + 3) = true) →
    ∃ t : State, exec (.jf p1 p2) s = .next t
      ∧ OnlyInst s i { x with ip := if v1 = 0 then v2 else x.ip + 3 } t ∧ t.ctl = s.ctl

/-- R109: for every p1, exactly one of JT and JF transfers to the target, and the other advances by 3. -/
def Obligations.JtAndJfAreComplements : Prop :=
  ∀ (s : State) (i : Nat) (m : Mask) (x : Inst) (p1 p2 : Param) (v1 v2 : Word),
    Running s i m x → readOperand s.cfg x p1 = .ok v1 → readOperand s.cfg x p2 = .ok v2 →
    representable s.cfg (x.ip + 3) = true →
    ∃ (t u : State) (y z : Inst), exec (.jt p1 p2) s = .next t ∧ exec (.jf p1 p2) s = .next u
      ∧ t.inst? i = some y ∧ u.inst? i = some z
      ∧ ((v1 ≠ 0 ∧ y.ip = v2 ∧ z.ip = x.ip + 3) ∨ (v1 = 0 ∧ y.ip = x.ip + 3 ∧ z.ip = v2))

/-- R114, R92: ARB adds its operand, read at the old relative base, to the relative base and advances by 2. -/
def Obligations.ArbAddsToBase : Prop :=
  ∀ (s : State) (i : Nat) (m : Mask) (x : Inst) (p1 : Param) (v : Word),
    Running s i m x → readOperand s.cfg x p1 = .ok v → representable s.cfg (x.rb + v) = true →
    representable s.cfg (x.ip + 2) = true →
    ∃ t : State, exec (.arb p1) s = .next t
      ∧ OnlyInst s i { x with rb := x.rb + v, ip := x.ip + 2 } t ∧ t.ctl = s.ctl

/-- R116, R198: HALT sets HALTED, leaves everything else of the instance, its ip included, and the transaction returns
Halted whatever the mask. -/
def Obligations.HaltSetsHalted : Prop :=
  ∀ (s : State) (i : Nat) (m : Mask) (x : Inst), Running s i m x →
    ∃ t : State, exec .halt s = .next t ∧ OnlyInst s i { x with halted := true } t ∧ t.ctl = .stopped i .halted

/-- R94, R62: all operand reads precede the write: ADD [a], [a], [a] doubles M[a]; and where it writes its own
instruction word, it still advances by 4, and the next fetch of that address sees the sum. -/
def Obligations.AliasedAddDoubles : Prop :=
  ∀ (s : State) (i : Nat) (m : Mask) (x : Inst) (a : Nat),
    Running s i m x → inLimit s.cfg a = true →
    representable s.cfg (Mem.read x.mem a + Mem.read x.mem a) = true → representable s.cfg (x.ip + 4) = true →
    ∃ (t : State) (y : Inst), exec (.add ⟨.position, a⟩ ⟨.position, a⟩ ⟨.position, a⟩) s = .next t
      ∧ t.inst? i = some y ∧ Mem.read y.mem a = 2 * Mem.read x.mem a ∧ y.ip = x.ip + 4
      ∧ (x.ip = a → memRead t.cfg y x.ip = .ok (2 * Mem.read x.mem a))

/-! ### Frames -/

/-- R24, R28, R54, R98, R99, R111, R112: what ADD, MUL, LT and EQ leave unchanged when they complete: every register
but ip, the queues, every other instance, and every address but the write address. -/
def Obligations.ThreeOperandFrame : Prop :=
  ∀ (s t : State) (i : Nat) (m : Mask) (x y : Inst) (p1 p2 p3 : Param) (ins : Instr),
    ins = .add p1 p2 p3 ∨ ins = .mul p1 p2 p3 ∨ ins = .lt p1 p2 p3 ∨ ins = .eq p1 p2 p3 →
    Running s i m x → exec ins s = .next t → t.inst? i = some y → y.fault = none →
    OnlyInst s i y t ∧ t.ctl = s.ctl ∧ SameBesidesMemAndIp x y
      ∧ ∀ (ea b : Nat), writeAddress s.cfg x p3 = .ok ea → b ≠ ea → Mem.read y.mem b = Mem.read x.mem b

/-- R103: what IN leaves unchanged when it completes or blocks: every register but ip, OUTQ, every other instance, and
every address but the write address. -/
def Obligations.InpFrame : Prop :=
  ∀ (s t : State) (i : Nat) (m : Mask) (x y : Inst) (p1 : Param),
    Running s i m x → exec (.inp p1) s = .next t → t.inst? i = some y → y.fault = none →
    OnlyInst s i y t ∧ y.rb = x.rb ∧ y.halted = x.halted ∧ y.faultIp = x.faultIp ∧ y.outq = x.outq ∧ y.outTo = x.outTo
      ∧ ∀ (ea b : Nat), writeAddress s.cfg x p1 = .ok ea → b ≠ ea → Mem.read y.mem b = Mem.read x.mem b

/-- R107, R108, R114, R116: what JT, JF, ARB and HALT leave unchanged when they complete: memory, the queues, every
other instance; JT, JF and HALT also rb, JT, JF and ARB also HALTED, and HALT also ip. -/
def Obligations.RegisterOnlyFrame : Prop :=
  ∀ (s t : State) (i : Nat) (m : Mask) (x y : Inst) (p1 p2 : Param) (ins : Instr),
    ins = .jt p1 p2 ∨ ins = .jf p1 p2 ∨ ins = .arb p1 ∨ ins = .halt →
    Running s i m x → exec ins s = .next t → t.inst? i = some y → y.fault = none →
    OnlyInst s i y t ∧ SameMemory x y ∧ y.inq = x.inq ∧ y.outq = x.outq ∧ y.outTo = x.outTo ∧ y.faultIp = x.faultIp
      ∧ (ins ≠ .arb p1 → y.rb = x.rb) ∧ (ins ≠ .halt → y.halted = x.halted) ∧ (ins = .halt → y.ip = x.ip)

/-- R104, R102: what OUT leaves unchanged when it completes: memory, every register but ip, and of the other instances
everything but the INQ its OUTQ is wired to. -/
def Obligations.OutFrame : Prop :=
  ∀ (s t : State) (i : Nat) (m : Mask) (x y : Inst) (p1 : Param),
    Running s i m x → exec (.out p1) s = .next t → t.inst? i = some y → y.fault = none →
    SameMemory x y ∧ y.rb = x.rb ∧ y.halted = x.halted ∧ y.faultIp = x.faultIp ∧ y.outTo = x.outTo
      ∧ (x.outTo ≠ some i → y.inq = x.inq) ∧ (x.outTo ≠ none → y.outq = x.outq)
      ∧ t.cfg = s.cfg ∧ t.sched = s.sched ∧ t.host = s.host ∧ t.atPort = s.atPort ∧ t.replies = s.replies
      ∧ (∀ j, j ≠ i → x.outTo ≠ some j → t.inst? j = s.inst? j)
      ∧ ∀ (j : Nat) (z : Inst), j ≠ i → s.inst? j = some z →
          ∃ z', t.inst? j = some z' ∧ SameBesidesQueues z z' ∧ z'.outq = z.outq

/-- R23, R24, R25, R95, R96: who writes the cursor and HALTED: rb changes only by ARB, HALTED only by HALT, and ip only
to ip plus the instruction's length or, by a jump, to the value of p2. -/
def Obligations.CursorWriters : Prop :=
  ∀ (s t : State) (i : Nat) (m : Mask) (x y : Inst) (ins : Instr),
    Running s i m x → exec ins s = .next t → t.inst? i = some y →
    (y.rb ≠ x.rb → ∃ p1, ins = .arb p1) ∧ (y.halted ≠ x.halted → ins = .halt)
      ∧ (y.ip ≠ x.ip → y.ip = x.ip + ins.op.len
          ∨ ∃ p1 p2, (ins = .jt p1 p2 ∨ ins = .jf p1 p2) ∧ readOperand s.cfg x p2 = .ok y.ip)

/-! ### Faults -/

/-- R190, R85: fault entry is precise: a step after which the running instance is faulted has changed FAULT, FAULT_IP
and the transaction's status, and nothing else. -/
def Obligations.FaultEntryIsPrecise : Prop :=
  ∀ (s t : State) (i : Nat) (m : Mask) (x y : Inst) (k : FaultKind),
    Running s i m x → step s = .next t → t.inst? i = some y → y.fault = some k → FaultEntry s i k t

/-- R191 (6), (7), R93: a failing operand of ADD, MUL, LT, EQ, JT, JF, OUT or ARB, or a failing write address, is the
fault the instruction takes: p1 first, then p2, then the write address.
The model's choice (notes/assumptions/13.md): exec of an IN whose parameter is IMMEDIATE, which no decoder gives it,
takes IllegalWriteTarget; likewise a write parameter of the others. -/
def Obligations.OperandFaultsInOrder : Prop :=
  ∀ (s : State) (i : Nat) (m : Mask) (x : Inst) (p1 p2 p3 : Param) (k : FaultKind) (ins : Instr),
    Running s i m x →
    (ins = .add p1 p2 p3 ∨ ins = .mul p1 p2 p3 ∨ ins = .lt p1 p2 p3 ∨ ins = .eq p1 p2 p3 ∨ ins = .jt p1 p2
        ∨ ins = .jf p1 p2 ∨ ins = .out p1 ∨ ins = .arb p1 →
      readOperand s.cfg x p1 = .error k → ∃ t, exec ins s = .next t ∧ FaultEntry s i k t)
    ∧ (ins = .add p1 p2 p3 ∨ ins = .mul p1 p2 p3 ∨ ins = .lt p1 p2 p3 ∨ ins = .eq p1 p2 p3 ∨ ins = .jt p1 p2
        ∨ ins = .jf p1 p2 →
      ∀ v1, readOperand s.cfg x p1 = .ok v1 → readOperand s.cfg x p2 = .error k →
        ∃ t, exec ins s = .next t ∧ FaultEntry s i k t)
    ∧ (ins = .add p1 p2 p3 ∨ ins = .mul p1 p2 p3 ∨ ins = .lt p1 p2 p3 ∨ ins = .eq p1 p2 p3 →
      ∀ v1 v2, readOperand s.cfg x p1 = .ok v1 → readOperand s.cfg x p2 = .ok v2 → writeAddress s.cfg x p3 = .error k →
        ∃ t, exec ins s = .next t ∧ FaultEntry s i k t)
    ∧ (ins = .inp p1 → writeAddress s.cfg x p1 = .error k → ∃ t, exec ins s = .next t ∧ FaultEntry s i k t)

/-- R186, R191 (8): a sum, a product, a new relative base or an advance that WORD_BITS cannot hold raises
ValueOutOfRange, after every operand and address check. -/
def Obligations.ResultOutOfRangeFaults : Prop :=
  ∀ (s : State) (i : Nat) (m : Mask) (x : Inst) (p1 p2 p3 : Param) (v1 v2 : Word) (ea : Nat),
    Running s i m x → readOperand s.cfg x p1 = .ok v1 → readOperand s.cfg x p2 = .ok v2 →
    writeAddress s.cfg x p3 = .ok ea →
    (representable s.cfg (v1 + v2) = false ∨ representable s.cfg (x.ip + 4) = false →
      ∃ t, exec (.add p1 p2 p3) s = .next t ∧ FaultEntry s i .valueOutOfRange t)
    ∧ (representable s.cfg (v1 * v2) = false ∨ representable s.cfg (x.ip + 4) = false →
      ∃ t, exec (.mul p1 p2 p3) s = .next t ∧ FaultEntry s i .valueOutOfRange t)
    ∧ (representable s.cfg (x.ip + 4) = false →
      (∃ t, exec (.lt p1 p2 p3) s = .next t ∧ FaultEntry s i .valueOutOfRange t)
      ∧ ∃ t, exec (.eq p1 p2 p3) s = .next t ∧ FaultEntry s i .valueOutOfRange t)
    ∧ (representable s.cfg (x.rb + v1) = false ∨ representable s.cfg (x.ip + 2) = false →
      ∃ t, exec (.arb p1) s = .next t ∧ FaultEntry s i .valueOutOfRange t)
    ∧ (representable s.cfg (x.ip + 3) = false →
      (v1 = 0 → ∃ t, exec (.jt p1 p2) s = .next t ∧ FaultEntry s i .valueOutOfRange t)
      ∧ (v1 ≠ 0 → ∃ t, exec (.jf p1 p2) s = .next t ∧ FaultEntry s i .valueOutOfRange t))
    ∧ (representable s.cfg (x.ip + 2) = false →
      (∃ t, exec (.out p1) s = .next t ∧ FaultEntry s i .valueOutOfRange t)
      ∧ ∃ t, exec (.inp p3) s = .next t ∧ FaultEntry s i .valueOutOfRange t)

/-- R188: an Output whose destination queue already holds QUEUE_DEPTH values raises ChannelOverflow, and no step raises
it with QUEUE_DEPTH UNBOUNDED. -/
def Obligations.OutToFullQueueOverflows : Prop :=
  (∀ (s : State) (i : Nat) (m : Mask) (x : Inst) (p1 : Param) (v : Word) (q : List Word) (n : Nat),
    Running s i m x → readOperand s.cfg x p1 = .ok v → representable s.cfg (x.ip + 2) = true →
    s.outQueue i = some q → s.cfg.queueDepth = some n → n ≤ q.length →
    ∃ t, exec (.out p1) s = .next t ∧ FaultEntry s i .channelOverflow t)
  ∧ ∀ (s t : State) (i : Nat) (m : Mask) (x y : Inst),
      Running s i m x → step s = .next t → t.inst? i = some y → y.fault = some .channelOverflow →
      s.cfg.queueDepth ≠ none

/-- R186, R187: ValueOutOfRange is never raised with WORD_BITS UNBOUNDED, MemoryLimitExceeded never with MEM_LIMIT
UNBOUNDED. -/
def Obligations.UnboundedParametersNeverFault : Prop :=
  ∀ (s t : State) (i : Nat) (m : Mask) (x y : Inst),
    Running s i m x → step s = .next t → t.inst? i = some y →
    (y.fault = some .valueOutOfRange → s.cfg.wordBits ≠ none)
      ∧ (y.fault = some .memoryLimitExceeded → s.cfg.memLimit ≠ none)

/-! ### The step -/

/-- R86 to R88, R97: where the cells at ip decode to an instruction, its parameter cells can be read, and
nothing at the ports can be taken up, the step is exactly that instruction's meaning. -/
def Obligations.StepRunsDecodedInstruction : Prop :=
  ∀ (s : State) (i : Nat) (m : Mask) (x : Inst) (ins : Instr) (rest : List Word),
    Running s i m x → PortQuiet s → 0 ≤ x.ip →
    (∀ k, k ≤ ins.op.params → inLimit s.cfg (x.ip.toNat + k) = true) →
    (∀ k : Nat, 1 ≤ k → k ≤ ins.op.params → representable s.cfg (x.ip + k) = true) →
    decode (cellsAt x.mem x.ip.toNat 4) = .ok (ins, rest) → step s = exec ins s

/-- R191 (1) to (5), R86, R88: the faults before an instruction's own checks, in their order: the fetch address, the
decoder's fault, then the parameter cells. -/
def Obligations.FetchFaultsInOrder : Prop :=
  ∀ (s : State) (i : Nat) (m : Mask) (x : Inst), Running s i m x → PortQuiet s →
    (x.ip < 0 → ∃ t, step s = .next t ∧ FaultEntry s i .negativeAddress t)
    ∧ (0 ≤ x.ip → inLimit s.cfg x.ip.toNat = false → ∃ t, step s = .next t ∧ FaultEntry s i .memoryLimitExceeded t)
    ∧ (0 ≤ x.ip → inLimit s.cfg x.ip.toNat = true →
        (∀ k, decodeWord (Mem.read x.mem x.ip.toNat) = .error k → ∃ t, step s = .next t ∧ FaultEntry s i k t)
        ∧ ∀ (h : Head) (n : Nat), decodeWord (Mem.read x.mem x.ip.toNat) = .ok h → 1 ≤ n → n ≤ h.op.params →
            (∀ k, 1 ≤ k → k < n → inLimit s.cfg (x.ip.toNat + k) = true ∧ representable s.cfg (x.ip + (k : Nat)) = true) →
            (representable s.cfg (x.ip + (n : Nat)) = false → ∃ t, step s = .next t ∧ FaultEntry s i .valueOutOfRange t)
            ∧ (representable s.cfg (x.ip + (n : Nat)) = true → inLimit s.cfg (x.ip.toNat + n) = false →
                ∃ t, step s = .next t ∧ FaultEntry s i .memoryLimitExceeded t))

/-- R75, R181: every word with an opcode outside the map is UnknownOpcode, and so is the fetch of a cell that nothing
has written. -/
def Obligations.UnknownOpcodes : Prop :=
  (∀ w : Word, 0 ≤ w → (w % 100 = 0 ∨ (10 ≤ w % 100 ∧ w % 100 ≤ 98)) → decodeWord w = .error .unknownOpcode)
  ∧ ∀ (s : State) (i : Nat) (m : Mask) (x : Inst),
      Running s i m x → PortQuiet s → 0 ≤ x.ip → inLimit s.cfg x.ip.toNat = true → (∀ v, (x.ip.toNat, v) ∉ x.mem) →
      ∃ t, step s = .next t ∧ FaultEntry s i .unknownOpcode t

/-- R227, R221: an instruction's effect on its own instance is a function of that instance, the mask and the
parameters: no other instance, queue, scheduler state or host transaction can influence it. -/
def Obligations.InstructionSeesOnlyItsInstance : Prop :=
  ∀ (ins : Instr) (s1 s2 t1 : State) (i j : Nat) (m : Mask) (x : Inst),
    Running s1 i m x → Running s2 j m x → s1.cfg = s2.cfg → x.outTo = none → exec ins s1 = .next t1 →
    ∃ t2, exec ins s2 = .next t2 ∧ t1.inst? i = t2.inst? j

/-! ### Whole-machine rules -/

/-- R19, R29, R221: whatever the step is, an instance that it neither LOADs nor runs keeps its memory, cursor, HALTED,
FAULT, FAULT_IP and wiring: at most its queues change.
The model's choice (notes/assumptions/8.md): that its wiring stays through a LOAD of another instance and through the end
of a ring. -/
def Obligations.StepLeavesOtherInstances : Prop :=
  ∀ (s t : State) (i : Nat) (x : Inst),
    s.inst? i = some x → loads s i = false → (∀ m, s.ctl = .running i m → x.ready = false) → step s = .next t →
    ∃ y, t.inst? i = some y ∧ SameBesidesQueues x y

/-- R25, R26, R115, R192: a faulted instance keeps FAULT and FAULT_IP, a halted one HALTED, and neither executes
anything more: all its state but its queues stays as it is, until a LOAD. -/
def Obligations.FaultedAndHaltedStay : Prop :=
  ∀ (s t : State) (i : Nat) (x : Inst),
    s.inst? i = some x → x.halted = true ∨ x.fault ≠ none → loads s i = false → step s = .next t →
    ∃ y, t.inst? i = some y ∧ y.halted = x.halted ∧ y.fault = x.fault ∧ y.faultIp = x.faultIp ∧ y.ip = x.ip
      ∧ y.rb = x.rb ∧ SameMemory x y

/-- R34, R10: no step changes a parameter or the number of instances. -/
def Obligations.ConfigurationIsFixed : Prop :=
  ∀ s t : State, step s = .next t → t.cfg = s.cfg ∧ t.insts.length = s.insts.length

/-- R7 to R10, R22, R27, R30, R49: every step keeps every memory canonical and within MEM_LIMIT, every memory, register
and queue word within WORD_BITS, every queue within QUEUE_DEPTH, at least one instance, and no instance both halted and
faulted. -/
def Obligations.StepKeepsData : Prop :=
  ∀ s t : State, s.dataOk = true → step s = .next t → t.dataOk = true

/-- R83, R195, R196, R197, R200: every step keeps the control in order: the instance that runs is READY, and it is the
one whose turn it is, with its pattern's mask; a stop's status is one its mask selects; wirings lead to instances.
The model's choice (notes/assumptions/7.md): START begins a pattern with its first turn due. -/
def Obligations.StepKeepsControl : Prop :=
  ∀ s t : State, s.dataOk = true → s.ctlOk = true → step s = .next t → t.ctlOk = true

/-- R224, R226, R228, R10: the state after reset meets both invariants; in it every instance has ip 0, rb 0, HALTED 0,
FAULT 0, empty queues and every cell 0, and no transaction and no pattern is in progress. So it is with every legal
number n of instances, and the default number is 5 for a pipeline and a ring, and 50 for a star network.
The model's choices (notes/assumptions/2.md): that State.reset itself has 50 instances, and which program it holds. -/
def Obligations.ResetState : Prop :=
  (∀ n, legalInstances n = true →
    (State.resetOf n).dataOk = true ∧ (State.resetOf n).ctlOk = true ∧ (State.resetOf n).ctl = .idle
    ∧ (State.resetOf n).sched = .off ∧ (State.resetOf n).insts.length = n
    ∧ ∀ i, i < n → ∃ x, (State.resetOf n).inst? i = some x ∧ x.ip = 0 ∧ x.rb = 0 ∧ x.halted = false ∧ x.fault = none
        ∧ x.inq = [] ∧ x.outq = [] ∧ ∀ a, Mem.read x.mem a = 0)
  ∧ State.reset = State.resetOf 50
  ∧ ∀ prog phases : List Word, State.resetFor (.pipeline prog phases) = State.resetOf 5
      ∧ State.resetFor (.ring prog phases) = State.resetOf 5 ∧ State.resetFor (.star prog) = State.resetOf 50

/-- R83, R190, R195, R200: with unbounded queues the block never gets stuck: from every state that meets the invariants
the step answers a next state, never a stop of the block, and that state meets them again.
The model's choices: the host's lists (notes/assumptions/4.md); with no host transaction pending the step leaves the
state as it is. -/
def Obligations.StepAlwaysProceeds : Prop :=
  ∀ s : State, s.dataOk = true → s.ctlOk = true → s.cfg.queueDepth = none →
    ∃ t, step s = .next t ∧ t.dataOk = true ∧ t.ctlOk = true

/-! ### The host's transactions -/

/-- R37, R43, R224: LOAD builds the instance afresh: the program in memory from address 0, 0 elsewhere, ip 0, rb 0, not
halted, no fault, INQ the initial values, OUTQ empty; every other instance is unchanged.
The model's choices: the host's lists (notes/assumptions/4.md), and that LOAD unwires OUTQ and leaves the wiring of
every other instance (notes/assumptions/8.md). -/
def Obligations.LoadBuildsInstance : Prop :=
  ∀ (s u : State) (i : Nat) (prog inbound : List Word),
    TakesUp s (.load i prog inbound) u → i < s.insts.length →
    (∀ v ∈ prog, representable s.cfg v = true) → (∀ v ∈ inbound, representable s.cfg v = true) →
    (∀ l, s.cfg.memLimit = some l → prog.length ≤ l) → (∀ q, s.cfg.queueDepth = some q → inbound.length ≤ q) →
    ∃ (t : State) (y : Inst), step s = .next t ∧ t.inst? i = some y
      ∧ (∀ a, Mem.read y.mem a = prog.getD a 0) ∧ y.ip = 0 ∧ y.rb = 0 ∧ y.halted = false ∧ y.fault = none
      ∧ y.inq = inbound ∧ y.outq = [] ∧ t.outQueue i = some [] ∧ (∀ j, j ≠ i → t.inst? j = s.inst? j)
      ∧ t.ctl = s.ctl ∧ t.sched = s.sched ∧ t.host = u.host ∧ t.atPort = u.atPort ∧ t.replies = s.replies ++ [.loaded i]

/-- R37, D16: the port refuses a LOAD of an unrepresentable word, of a program longer than MEM_LIMIT, or of more
inbound values than QUEUE_DEPTH; then nothing changes.
The model's choices: it refuses a LOAD of an index at or above N_INSTANCES too, of which the spec does not speak
(notes/assumptions/17.md), and the host's lists (notes/assumptions/4.md). -/
def Obligations.LoadIsRefused : Prop :=
  ∀ (s u : State) (i : Nat) (prog inbound : List Word), TakesUp s (.load i prog inbound) u →
    (s.insts.length ≤ i ∨ (∃ v ∈ prog, representable s.cfg v = false) ∨ (∃ v ∈ inbound, representable s.cfg v = false)
      ∨ (∃ l, s.cfg.memLimit = some l ∧ l < prog.length) ∨ (∃ q, s.cfg.queueDepth = some q ∧ q < inbound.length)) →
    step s = .next { u with replies := s.replies ++ [.refused (.load i prog inbound)] }

/-- R38, R195, R192, R198, R115, R193: RESUME of a faulted instance returns its fault at once, of a halted one Halted at once,
and changes no instance; of a READY one it starts the loop with that mask. R19, R36, R200: what stands at the ports while
the loop runs, is not refused there, and must not be performed in it waits, unanswered, while the loop goes on: a RESUME,
a START, any transaction that names the running instance, and, in a pattern, a LOAD, a PUSH_IN or a POP_OUT. When a
resume transaction of the host's stops, the host is told its status (a read at the ports comes before, R222).
The model's choice: the host's lists, and that such a transaction waits (notes/assumptions/4.md). -/
def Obligations.ResumeBegins : Prop :=
  (∀ (s u : State) (i : Nat) (m : Mask) (x : Inst), TakesUp s (.resume i m) u → s.inst? i = some x →
    ∃ c : Control, step s = .next { u with ctl := c }
      ∧ (∀ k, x.fault = some k → c = .stopped i (.fault k))
      ∧ (x.fault = none → x.halted = true → c = .stopped i .halted)
      ∧ (x.fault = none → x.halted = false → c = .running i m))
  ∧ (∀ (s : State) (i : Nat) (st : Status), s.ctl = .stopped i st → s.sched = .off → PortQuiet s →
      step s = .next { s with ctl := .idle, replies := s.replies ++ [.stopped i st] })
  ∧ ∀ (s t : State) (i j : Nat) (m k : Mask) (p : Pattern) (prog inbound : List Word) (v : Word) (c : HostCmd)
      (l : List HostCmd), s.ctl = .running i m → s.atPort = c :: l → ¬ MustRefuse s c →
      c = .resume j k ∨ c = .start p ∨ c.names = some i
        ∨ (s.sched ≠ .off ∧ (c = .load j prog inbound ∨ c = .pushIn j v ∨ c = .popOut j)) →
      step s = .next t → t.atPort = c :: l ∧ t.host = s.host ∧ t.replies = s.replies ∧ PortQuiet s

/-- R39: PUSH_IN appends to INQ, or is refused, with nothing changed, when INQ is full or the value is not
representable.
The model's choice: the host's lists (notes/assumptions/4.md). -/
def Obligations.PushInAppends : Prop :=
  ∀ (s u : State) (i : Nat) (v : Word) (x : Inst), TakesUp s (.pushIn i v) u → s.inst? i = some x →
    ∃ t, step s = .next t ∧ t.ctl = s.ctl ∧ t.host = u.host ∧ t.atPort = u.atPort ∧ t.cfg = s.cfg ∧ t.sched = s.sched
      ∧ (representable s.cfg v = true → (∀ q, s.cfg.queueDepth = some q → x.inq.length < q) →
          t.inst? i = some { x with inq := x.inq ++ [v] } ∧ (∀ j, j ≠ i → t.inst? j = s.inst? j)
            ∧ t.replies = s.replies ++ [.pushed i])
      ∧ (representable s.cfg v = false ∨ (∃ q, s.cfg.queueDepth = some q ∧ q ≤ x.inq.length) →
          t.insts = s.insts ∧ t.replies = s.replies ++ [.refused (.pushIn i v)])

/-- R40, R31: POP_OUT returns and removes the oldest value of OUTQ, the wired queue where it is wired, or reports empty;
every other queue, and everything else of every instance, is unchanged.
The model's choice: the host's lists (notes/assumptions/4.md). -/
def Obligations.PopOutTakesOldest : Prop :=
  ∀ (s u : State) (i : Nat) (q : List Word), TakesUp s (.popOut i) u → s.outQueue i = some q →
    ∃ t, step s = .next t ∧ t.ctl = s.ctl ∧ t.host = u.host ∧ t.atPort = u.atPort
      ∧ t.cfg = s.cfg ∧ t.sched = s.sched ∧ t.replies = s.replies ++ [.popped i q.head?]
      ∧ t.outQueue i = some q.tail ∧ (q = [] → t.insts = s.insts)
      ∧ (∀ x, s.inst? i = some x → x.outTo = none →
          t.inst? i = some { x with outq := q.tail } ∧ ∀ j, j ≠ i → t.inst? j = s.inst? j)
      ∧ ∀ x z k, s.inst? i = some x → x.outTo = some k → s.inst? k = some z →
          t.inst? k = some { z with inq := q.tail } ∧ ∀ j, j ≠ k → t.inst? j = s.inst? j

/-- R27, R40, R41, R42, R222: the reading transactions return the whole OUTQ, STATUS and M[a], and change nothing but the
host's lists; READ_MEM refuses an address below 0, and is refused while the resume transaction of the instance it names
is running. So it is too between the transactions of a pattern, where a stop waits to be reported, and for another
instance during a turn.
The model's choice: the host's lists (notes/assumptions/4.md). -/
def Obligations.ReadsReturnAndChangeNothing : Prop :=
  (∀ (s : State) (i : Nat) (m : Mask) (a : Word) (l : List HostCmd),
    s.ctl = .running i m → s.atPort = .readMem i a :: l →
    step s = .next { s with atPort := l, replies := s.replies ++ [.refused (.readMem i a)] })
  ∧ ∀ (s u : State) (i : Nat) (x : Inst) (q : List Word) (a : Word) (c : HostCmd),
    TakesUp s c u → s.inst? i = some x → s.outQueue i = some q →
    ∃ r : Reply, (c = .readOutq i ∨ c = .readStatus i ∨ c = .readMem i a →
        step s = .next { u with replies := s.replies ++ [r] })
      ∧ (c = .readOutq i → r = .outq i q)
      ∧ (c = .readStatus i → ∃ v, r = .status i v ∧ v.ip = x.ip ∧ v.rb = x.rb ∧ v.inqLen = x.inq.length
          ∧ v.outqLen = q.length ∧ v.faultIp = x.faultIp
          ∧ v.runState = (if x.fault ≠ none then .faulted else if x.halted then .halted else .ready)
          ∧ v.faultCode = match x.fault with
            | none => 0
            | some .unknownOpcode => 1
            | some .invalidParameterMode => 2
            | some .illegalWriteTarget => 3
            | some .channelUnderflow => 4
            | some .negativeAddress => 5
            | some .valueOutOfRange => 6
            | some .memoryLimitExceeded => 7
            | some .channelOverflow => 8)
      ∧ (c = .readMem i a → r = if a < 0 then .refused c else .cell i a (Mem.read x.mem a.toNat))

/-- R225: every transaction but LOAD (and the model's START) that names an instance that was never LOADed is refused at
the port, whatever the block is doing, and nothing changes; so is a pending one of an idle block.
The model's choices: so is one that names an index at or above N_INSTANCES (notes/assumptions/17.md), and the host's
lists (notes/assumptions/4.md). -/
def Obligations.UnloadedInstanceIsRefused : Prop :=
  ∀ (s : State) (i : Nat) (m : Mask) (v a : Word) (c : HostCmd) (l : List HostCmd), s.inst? i = none →
    c = .resume i m ∨ c = .pushIn i v ∨ c = .popOut i ∨ c = .readOutq i ∨ c = .readStatus i ∨ c = .readMem i a →
    (s.atPort = c :: l → step s = .next { s with atPort := l, replies := s.replies ++ [.refused c] })
    ∧ (s.ctl = .idle → s.atPort = [] → s.host = c :: l →
        step s = .next { s with host := l, replies := s.replies ++ [.refused c] })

/-! ### The scheduler (its next action comes when nothing at the ports is due, R222: the premise PortQuiet) -/

/-- R202, R203, R12, R228, R230: the boot of a pipeline leaves its program and phases, stage 0's turn due and
PIPELINE_INPUT as its signal, and changes no instance; the turn of a stage LOADs it with its phase and the signal, and
then, in a transaction of its own, RESUMEs it with the empty mask. (A read at the ports comes before either, R222.)
The model's choices: the START transaction (notes/assumptions/7.md), and that LOAD unwires OUTQ and leaves the wiring of
every other instance (notes/assumptions/8.md). -/
def Obligations.PipelineTurnLoadsStage : Prop :=
  (∀ (s u : State) (prog phases : List Word), TakesUp s (.start (.pipeline prog phases)) u →
    phases.length = s.insts.length → phases ≠ [] →
    (∀ ph ∈ phases, canLoad s.cfg prog [ph, s.cfg.pipelineInput] = true) →
    step s = .next { u with
      ctl   := .turn
      sched := .pipeline { prog := prog, phases := phases, next := 0, signal := s.cfg.pipelineInput, loaded := false } })
  ∧ (∀ (s : State) (p : Pipeline) (ph : Word), PortQuiet s →
    s.ctl = .turn → s.sched = .pipeline p → p.loaded = false → p.phases[p.next]? = some ph → p.next < s.insts.length →
    canLoad s.cfg p.prog [ph, p.signal] = true →
    ∃ (t : State) (y : Inst), step s = .next { t with sched := .pipeline { p with loaded := true } }
      ∧ OnlyInst s p.next y t ∧ t.ctl = .turn
      ∧ (∀ a, Mem.read y.mem a = p.prog.getD a 0) ∧ y.inq = [ph, p.signal] ∧ y.outq = [] ∧ y.outTo = none
      ∧ y.ip = 0 ∧ y.rb = 0 ∧ y.ready = true)
  ∧ ∀ (s : State) (p : Pipeline) (x : Inst), PortQuiet s →
    s.ctl = .turn → s.sched = .pipeline p → p.loaded = true → s.inst? p.next = some x →
    ∃ c, step s = .next { s with ctl := c }
      ∧ (x.ready = true → c = .running p.next Mask.none)
      ∧ (x.fault = none → x.halted = true → c = .stopped p.next .halted)

/-- R202, R203: after a halted stage: exactly one output becomes the next stage's signal, or the result at the last
stage; none or several end the pipeline with PipelineOutputError.
The model's choice: the report to the host's list, and the scheduler's state dropped at the end
(notes/assumptions/4.md, notes/assumptions/9.md). -/
def Obligations.PipelineStageEnds : Prop :=
  ∀ (s : State) (p : Pipeline) (i : Nat) (q : List Word),
    s.ctl = .stopped i .halted → PortQuiet s → s.sched = .pipeline p → s.outQueue i = some q →
    (∀ v, q = [v] → i + 1 < p.phases.length →
      step s = .next { s with ctl := .turn, sched := .pipeline { p with next := i + 1, signal := v, loaded := false } })
    ∧ (∀ v, q = [v] → p.phases.length ≤ i + 1 →
      step s = .next { s with ctl := .idle, sched := .off, replies := s.replies ++ [.ended (.result v)] })
    ∧ (q.length ≠ 1 →
      step s = .next { s with ctl := .idle, sched := .off, replies := s.replies ++ [.ended (.pipelineOutputError i)] })

/-- R204, R230: a ring's boot: instance i LOADed with its phase, its OUTQ wired to INQ((i+1) mod N), RING_INPUT after the
phase in INQ(0), and instance 0's turn next.
The model's choice: the START transaction (notes/assumptions/7.md). -/
def Obligations.RingBoots : Prop :=
  ∀ (s u : State) (prog phases : List Word), TakesUp s (.start (.ring prog phases)) u → phases.length = s.insts.length → phases ≠ [] →
    (∀ ph ∈ phases, canLoad s.cfg prog [ph] = true) → representable s.cfg s.cfg.ringInput = true →
    (∀ q, s.cfg.queueDepth = some q → 2 ≤ q) →
    ∃ t, step s = .next t ∧ t.ctl = .turn ∧ t.sched = .ring { next := 0, last := none }
      ∧ ∀ (i : Nat) (ph : Word), phases[i]? = some ph → ∃ y, t.inst? i = some y
          ∧ y.inq = (if i = 0 then [ph, s.cfg.ringInput] else [ph]) ∧ y.outTo = some ((i + 1) % phases.length)
          ∧ y.ip = 0 ∧ y.rb = 0 ∧ y.ready = true ∧ ∀ a, Mem.read y.mem a = prog.getD a 0

/-- R205, R206: after a ring's turn of instance i: the turn of instance (i+1) mod N, or, when every instance is halted,
the end, with the last value instance N-1 pushed, or NoResult.
The model's choices: the report to the host's list, that a ring's wiring stays after its end, the scheduler's state
dropped at the end, and where the last pushed value is read (notes/assumptions/4.md, 8.md, 9.md and 16.md there). -/
def Obligations.RingTurnsAndEnds : Prop :=
  ∀ (s : State) (r : Ring) (i : Nat) (st : Status) (q : List Word),
    s.ctl = .stopped i st → PortQuiet s → s.sched = .ring r → st = .halted ∨ st = .hasOutput → s.outQueue i = some q →
    ∃ r' : Ring, r'.last = (if st = .hasOutput ∧ i + 1 = s.insts.length then q.getLast? else r.last)
      ∧ ((∃ o ∈ s.insts, ∀ x, o = some x → x.halted = false) →
          step s = .next { s with ctl := .turn, sched := .ring { r' with next := (i + 1) % s.insts.length } })
      ∧ ((∀ o ∈ s.insts, ∃ x, o = some x ∧ x.halted = true) →
          step s = .next { s with ctl := .idle, sched := .off,
                                  replies := s.replies ++ [.ended (match r'.last with
                                    | some v => .result v
                                    | none   => .noResult)] })

/-- R207, R228, R230: a star network's boot: instance i LOADed with its seed, by default its own address; no wiring,
every triple empty, nothing held, nothing injected yet, and instance 0's turn next.
The model's choices: the START transaction (notes/assumptions/7.md), and a list of seeds with no entry for an instance
gives it none (notes/assumptions/15.md). -/
def Obligations.StarBoots : Prop :=
  ∀ (s u : State) (prog : List Word) (seed : Nat → List Word), TakesUp s (.start (.star prog)) u → s.insts ≠ [] → supplyOk s.cfg = true →
    (s.cfg.natSeed = .ownAddress → ∀ i : Nat, seed i = [(i : Word)]) →
    (∀ l, s.cfg.natSeed = .table l → ∀ i : Nat, seed i = l.getD i []) →
    (∀ i : Nat, i < s.insts.length → canLoad s.cfg prog (seed i) = true) →
    ∃ (t : State) (n : Star), step s = .next t ∧ t.ctl = .turn ∧ t.sched = .star n ∧ n.next = 0 ∧ n.held = none
      ∧ n.lastInj = none ∧ n.roundOut = false ∧ n.supplied = false ∧ n.part.length = s.insts.length ∧ (∀ q ∈ n.part, q = [])
      ∧ t.insts.length = s.insts.length
      ∧ ∀ i : Nat, i < s.insts.length → ∃ y, t.inst? i = some y ∧ y.inq = seed i ∧ y.outq = [] ∧ y.outTo = none
          ∧ y.ip = 0 ∧ y.rb = 0 ∧ y.ready = true ∧ ∀ a, Mem.read y.mem a = prog.getD a 0

/-- R200, R205, R208, R211, R198: a turn of a ring is RESUME of the next instance with the mask (HasOutput), of a star
network with (NeedsInput, HasOutput), and so is the second RESUME of a turn; a halted instance's turn returns Halted at
once; no instance changes. (A read at the ports comes before the RESUME, R222.) -/
def Obligations.RingAndStarTurnsResume : Prop :=
  ∀ (s : State) (i : Nat) (x : Inst), s.ctl = .turn → PortQuiet s → s.inst? i = some x →
    (∀ r : Ring, s.sched = .ring r → r.next = i →
      ∃ c, step s = .next { s with ctl := c }
        ∧ (x.ready = true → c = .running i ⟨false, true⟩)
        ∧ (x.fault = none → x.halted = true → c = .stopped i .halted))
    ∧ ∀ n : Star, s.sched = .star n → n.next = i →
      ∃ c, step s = .next { s with ctl := c }
        ∧ (x.ready = true → c = .running i ⟨true, true⟩)
        ∧ (x.fault = none → x.halted = true → c = .stopped i .halted)

/-- R209, R210, R208, R212: a value that a star network's instance outputs leaves OUTQ(i) and joins its triple; the third one
routes the packet: x then y to INQ(d) where d names an instance (its sender too), else to the sentinel, which keeps only
the latest packet; then the next turn is due. The output is recorded for the rest of the round (R212), after whose last
turn a new round begins, and the last injected packet is unchanged. -/
def Obligations.StarAssemblesAndRoutes : Prop :=
  ∀ (s : State) (t : Star) (i : Nat) (z : Inst) (d x y : Word),
    s.ctl = .stopped i .hasOutput → PortQuiet s → s.sched = .star t → s.inst? i = some z → z.outTo = none → z.outq = [y] →
    (t.part[i]? = some [d, x] → d < 0 ∨ (s.insts.length : Word) ≤ d →
      ∃ u t', step s = .next u ∧ u.ctl = .turn ∧ u.sched = .star t' ∧ t'.held = some (x, y) ∧ t'.part = t.part.set i []
        ∧ OutputTurnRecorded s i t t' ∧ u.inst? i = some { z with outq := [] }
        ∧ ∀ j, j ≠ i → u.inst? j = s.inst? j)
    ∧ (∀ (j : Nat) (w : Inst), t.part[i]? = some [d, x] → d = (j : Word) → s.inst? j = some w →
        (∀ q, s.cfg.queueDepth = some q → w.inq.length + 2 ≤ q) →
        ∃ u t', step s = .next u ∧ u.ctl = .turn ∧ u.sched = .star t' ∧ t'.held = t.held ∧ t'.part = t.part.set i []
          ∧ OutputTurnRecorded s i t t'
          ∧ (j ≠ i → u.inst? i = some { z with outq := [] } ∧ u.inst? j = some { w with inq := w.inq ++ [x, y] })
          ∧ (j = i → u.inst? i = some { z with outq := [], inq := z.inq ++ [x, y] })
          ∧ ∀ k, k ≠ i → k ≠ j → u.inst? k = s.inst? k)
    ∧ ∀ q, t.part[i]? = some q → q.length < 2 →
        ∃ u t', step s = .next u ∧ u.ctl = .turn ∧ u.sched = .star t' ∧ t'.held = t.held
          ∧ t'.part = t.part.set i (q ++ [y]) ∧ OutputTurnRecorded s i t t'
          ∧ u.inst? i = some { z with outq := [] } ∧ ∀ j, j ≠ i → u.inst? j = s.inst? j

/-- R212, R213, R214, R208: after a turn of a star network that gave no output and is not the round's last, the next
instance's turn is due; at the end of the round (after such a turn): where the network is not
idle, a new round begins; where it is idle, the held packet goes into INQ(0), and the network ends when the compared
part equals the last injected one's, else a new round begins; idle with nothing held is NetworkDeadlock.
The model's choice: the report to the host's list, and the
scheduler's state dropped at the end (notes/assumptions/4.md, notes/assumptions/9.md). -/
def Obligations.StarRoundEnds : Prop :=
  (∀ (s : State) (t : Star) (i : Nat) (st : Status), s.ctl = .stopped i st → PortQuiet s →
    s.sched = .star t → i + 1 < s.insts.length →
    st = .halted ∨ (st = .needsInput ∧ (t.supplied = true ∨ s.cfg.natEmptyRead = .block)) →
    step s = .next { s with ctl := .turn, sched := .star { t with next := i + 1, supplied := false } })
  ∧ ∀ (s : State) (t : Star) (i : Nat) (z : Inst) (st : Status),
    s.ctl = .stopped i st → PortQuiet s → s.sched = .star t → i + 1 = s.insts.length → s.inst? 0 = some z →
    st = .halted ∨ (st = .needsInput ∧ (t.supplied = true ∨ s.cfg.natEmptyRead = .block)) →
    (∀ q, s.cfg.queueDepth = some q → 2 ≤ q) →
    ((∃ (j : Nat) (w : Inst), s.inst? j = some w ∧ w.inq ≠ []) ∨ (∃ q ∈ t.part, q ≠ []) ∨ t.roundOut = true →
      step s = .next { s with ctl := .turn, sched := .star { t with next := 0, roundOut := false, supplied := false } })
    ∧ ((∀ (j : Nat) (w : Inst), s.inst? j = some w → w.inq = []) → (∀ q ∈ t.part, q = []) → t.roundOut = false →
      (t.held = none →
        step s = .next { s with ctl := .idle, sched := .off, replies := s.replies ++ [.ended .networkDeadlock] })
      ∧ ∀ x y, t.held = some (x, y) → ∃ u, step s = .next u ∧ u.inst? 0 = some { z with inq := [x, y] }
          ∧ (∀ j, j ≠ 0 → u.inst? j = s.inst? j)
          ∧ ((∃ x' y', t.lastInj = some (x', y') ∧ y = y' ∧ (s.cfg.natCompare = .xy → x = x')) →
              u.ctl = .idle ∧ u.sched = .off ∧ u.replies = s.replies ++ [.ended (.packet x y)])
          ∧ (¬ (∃ x' y', t.lastInj = some (x', y') ∧ y = y' ∧ (s.cfg.natCompare = .xy → x = x')) →
              u.ctl = .turn ∧ u.replies = s.replies
                ∧ u.sched = .star { t with next := 0, roundOut := false, supplied := false, lastInj := some (x, y) }))

/-- R211: an instance of a star network that reads an empty queue: with Block the turn ends (before the last
instance: the next instance's turn is due); with Supply(v), v is appended to its INQ and one more RESUME of it with
(NeedsInput, HasOutput) is due in the same turn, and a second NeedsInput ends the turn. -/
def Obligations.StarEmptyRead : Prop :=
  ∀ (s : State) (t : Star) (i : Nat) (x : Inst),
    s.ctl = .stopped i .needsInput → PortQuiet s → s.sched = .star t → s.inst? i = some x → x.ready = true →
    (i + 1 < s.insts.length → s.cfg.natEmptyRead = .block ∨ t.supplied = true →
      step s = .next { s with ctl := .turn, sched := .star { t with next := i + 1, supplied := false } })
    ∧ (∀ v, s.cfg.natEmptyRead = .supply v → t.supplied = false →
        (∀ q, s.cfg.queueDepth = some q → x.inq.length < q) →
        ∃ u, step s = .next u ∧ u.ctl = .turn ∧ u.sched = .star { t with next := i, supplied := true }
          ∧ (PortQuiet u → step u = .next { u with ctl := .running i ⟨true, true⟩ })
          ∧ u.inst? i = some { x with inq := x.inq ++ [v] } ∧ ∀ j, j ≠ i → u.inst? j = s.inst? j)

/-- R215: a fault of any instance stops the whole pattern with NetworkFault(i, c); no instance changes.
The model's choices: the report to the host's list, the scheduler's state dropped at the end, and that a ring's wiring
stays (notes/assumptions/4.md, 9.md and 8.md there). -/
def Obligations.FaultStopsPattern : Prop :=
  ∀ (s : State) (i : Nat) (k : FaultKind), s.ctl = .stopped i (.fault k) → PortQuiet s → s.sched ≠ .off →
    step s = .next { s with ctl := .idle, sched := .off, replies := s.replies ++ [.ended (.networkFault i k)] }
end

