-- ==== Sys2Proof/Laws/Memory.lean ====
section
/-! SUPPORT. The laws of the memory (spec/20_memory.md R49 to R51) and that every memory operation keeps its canonical
form. -/

namespace Sys2Proof.Machine

/-! ### Reading -/

theorem Mem.read_erase_self (m : Mem) (a : Nat) : Mem.read (Mem.erase m a) a = 0 := by
  induction m with
  | nil => rfl
  | cons e m ih =>
    obtain ⟨b, u⟩ := e
    by_cases hb : b = a
    · simpa [Mem.erase, hb] using ih
    · have : Mem.erase ((b, u) :: m) a = (b, u) :: Mem.erase m a := by simp [Mem.erase, hb]
      rw [this, Mem.read, if_neg (fun h => hb h.symm), ih]

theorem Mem.read_erase_ne {a b : Nat} (m : Mem) (h : b ≠ a) : Mem.read (Mem.erase m a) b = Mem.read m b := by
  induction m with
  | nil => rfl
  | cons e m ih =>
    obtain ⟨c, u⟩ := e
    by_cases hc : c = a
    · have : Mem.erase ((c, u) :: m) a = Mem.erase m a := by simp [Mem.erase, hc]
      rw [this, ih, Mem.read, if_neg (by omega)]
    · have : Mem.erase ((c, u) :: m) a = (c, u) :: Mem.erase m a := by simp [Mem.erase, hc]
      rw [this, Mem.read, Mem.read, ih]

theorem Mem.read_insert_self (m : Mem) (a : Nat) (v : Word) (h : ∀ e ∈ m, e.1 ≠ a) :
    Mem.read (Mem.insert m a v) a = v := by
  induction m with
  | nil => simp [Mem.insert, Mem.read]
  | cons e m ih =>
    obtain ⟨b, u⟩ := e
    have hb : b ≠ a := h (b, u) (by simp)
    have hm := ih fun e he => h e (by simp [he])
    unfold Mem.insert
    split
    · simp [Mem.read]
    · rw [Mem.read, if_neg (fun h => hb h.symm), hm]

theorem Mem.read_insert_ne {a b : Nat} (m : Mem) (v : Word) (h : b ≠ a) :
    Mem.read (Mem.insert m a v) b = Mem.read m b := by
  induction m with
  | nil => simp [Mem.insert, Mem.read, h]
  | cons e m ih =>
    obtain ⟨c, u⟩ := e
    unfold Mem.insert
    split
    · rw [Mem.read, if_neg h]
    · rw [Mem.read, Mem.read, ih]

theorem Mem.not_mem_erase {m : Mem} {a : Nat} : ∀ e ∈ Mem.erase m a, e.1 ≠ a := by
  intro e he
  simpa [Mem.erase] using (List.mem_filter.mp he).2

/-- R50: a read after a write to the same address gives the word written. -/
theorem Mem.read_write_self (m : Mem) (a : Nat) (v : Word) : Mem.read (Mem.write m a v) a = v := by
  unfold Mem.write
  split
  · next h => rw [h, Mem.read_erase_self]
  · exact Mem.read_insert_self _ _ _ Mem.not_mem_erase

/-- R50: a write leaves every other address as it was. -/
theorem Mem.read_write_ne {a b : Nat} (m : Mem) (v : Word) (h : b ≠ a) :
    Mem.read (Mem.write m a v) b = Mem.read m b := by
  unfold Mem.write
  split
  · exact Mem.read_erase_ne m h
  · rw [Mem.read_insert_ne _ _ h, Mem.read_erase_ne m h]

theorem storesCell_write (x y : Inst) (a : Nat) (v : Word) (h : y.mem = Mem.write x.mem a v) : StoresCell x y a v :=
  ⟨by rw [h, Mem.read_write_self], fun _ hb => by rw [h, Mem.read_write_ne _ _ hb]⟩

/-- R49: an address that no entry names reads 0. -/
theorem Mem.read_of_not_mem {m : Mem} {a : Nat} (h : ∀ v, (a, v) ∉ m) : Mem.read m a = 0 := by
  induction m with
  | nil => rfl
  | cons e m ih =>
    obtain ⟨b, u⟩ := e
    have hb : a ≠ b := fun hab => h u (by simp [hab])
    rw [Mem.read, if_neg hb]
    exact ih fun v hv => h v (by simp [hv])

/-- A word read is 0 or stands in the list. -/
theorem Mem.read_mem (m : Mem) (a : Nat) : Mem.read m a = 0 ∨ (a, Mem.read m a) ∈ m := by
  induction m with
  | nil => exact .inl rfl
  | cons e m ih =>
    obtain ⟨b, u⟩ := e
    rw [Mem.read]
    split
    · next h => subst h; exact .inr (by simp)
    · exact ih.imp id fun h => List.mem_cons_of_mem _ h

/-- R37: the memory LOAD builds reads as the program, and 0 beyond it. -/
theorem Mem.read_ofProgram (prog : List Word) (n a : Nat) :
    Mem.read (Mem.ofProgram n prog) a = if n ≤ a then prog.getD (a - n) 0 else 0 := by
  induction prog generalizing n with
  | nil => simp [Mem.ofProgram, Mem.read]
  | cons v vs ih =>
    have hrest := ih (n + 1)
    unfold Mem.ofProgram
    rcases Nat.lt_trichotomy a n with h | h | h
    · have h1 : ¬ n ≤ a := by omega
      have h2 : ¬ n + 1 ≤ a := by omega
      have h3 : a ≠ n := by omega
      rw [if_neg h1]
      split <;> simp [Mem.read, hrest, h2, h3]
    · subst h
      have h2 : ¬ a + 1 ≤ a := by omega
      split
      · next hv => simp [hrest, h2, hv]
      · simp [Mem.read]
    · have h1 : n ≤ a := by omega
      have h2 : n + 1 ≤ a := by omega
      have h3 : a ≠ n := by omega
      have h4 : a - n = (a - (n + 1)) + 1 := by omega
      rw [if_pos h1]
      split <;> simp [Mem.read, hrest, h2, h3, h4]

/-! ### Membership -/

theorem Mem.mem_erase {m : Mem} {a : Nat} {e : Nat × Word} (h : e ∈ Mem.erase m a) : e ∈ m :=
  (List.mem_filter.mp h).1

theorem Mem.mem_insert {m : Mem} {a : Nat} {v : Word} {e : Nat × Word} (h : e ∈ Mem.insert m a v) :
    e = (a, v) ∨ e ∈ m := by
  induction m with
  | nil => exact .inl (by simpa [Mem.insert] using h)
  | cons f m ih =>
    obtain ⟨b, u⟩ := f
    unfold Mem.insert at h
    split at h
    · exact (List.mem_cons.mp h)
    · rcases List.mem_cons.mp h with rfl | h
      · exact .inr (by simp)
      · exact (ih h).imp id fun h => List.mem_cons_of_mem _ h

/-- What a write leaves in the list: the entry written, and entries that were there. -/
theorem Mem.mem_write {m : Mem} {a : Nat} {v : Word} {e : Nat × Word} (h : e ∈ Mem.write m a v) :
    e = (a, v) ∨ e ∈ m := by
  unfold Mem.write at h
  split at h
  · exact .inr (Mem.mem_erase h)
  · exact (Mem.mem_insert h).imp id Mem.mem_erase

theorem Mem.mem_ofProgram {prog : List Word} {n : Nat} {e : Nat × Word} (h : e ∈ Mem.ofProgram n prog) :
    n ≤ e.1 ∧ e.1 < n + prog.length ∧ e.2 ∈ prog := by
  induction prog generalizing n with
  | nil => simp [Mem.ofProgram] at h
  | cons v vs ih =>
    have step : e ∈ Mem.ofProgram (n + 1) vs → n ≤ e.1 ∧ e.1 < n + (v :: vs).length ∧ e.2 ∈ v :: vs := by
      intro h
      obtain ⟨h1, h2, h3⟩ := ih h
      refine ⟨by omega, by simp only [List.length_cons]; omega, List.mem_cons_of_mem _ h3⟩
    unfold Mem.ofProgram at h
    split at h
    · exact step h
    · rcases List.mem_cons.mp h with rfl | h
      · simp
      · exact step h

/-! ### The canonical form -/

theorem Mem.sortedFrom_mono {m : Mem} {n n' : Nat} (h : Mem.sortedFrom m n = true) (hn : n' ≤ n) :
    Mem.sortedFrom m n' = true := by
  cases m with
  | nil => rfl
  | cons e m =>
    obtain ⟨b, u⟩ := e
    simp only [Mem.sortedFrom, Bool.and_eq_true, decide_eq_true_eq] at h ⊢
    exact ⟨by omega, h.2⟩

theorem Mem.sortedFrom_erase {m : Mem} {n : Nat} (a : Nat) (h : Mem.sortedFrom m n = true) :
    Mem.sortedFrom (Mem.erase m a) n = true := by
  induction m generalizing n with
  | nil => rfl
  | cons e m ih =>
    obtain ⟨b, u⟩ := e
    simp only [Mem.sortedFrom, Bool.and_eq_true, decide_eq_true_eq] at h
    by_cases hb : b = a
    · have : Mem.erase ((b, u) :: m) a = Mem.erase m a := by simp [Mem.erase, hb]
      rw [this]
      exact Mem.sortedFrom_mono (ih h.2) (by omega)
    · have : Mem.erase ((b, u) :: m) a = (b, u) :: Mem.erase m a := by simp [Mem.erase, hb]
      simp [this, Mem.sortedFrom, h.1, ih h.2]

theorem Mem.sortedFrom_insert {m : Mem} {n a : Nat} (v : Word) (h : Mem.sortedFrom m n = true)
    (hm : ∀ e ∈ m, e.1 ≠ a) (hn : n ≤ a) : Mem.sortedFrom (Mem.insert m a v) n = true := by
  induction m generalizing n with
  | nil => simp [Mem.insert, Mem.sortedFrom, hn]
  | cons e m ih =>
    obtain ⟨b, u⟩ := e
    simp only [Mem.sortedFrom, Bool.and_eq_true, decide_eq_true_eq] at h
    have hb : b ≠ a := hm (b, u) (by simp)
    unfold Mem.insert
    split
    · next hab => simp [Mem.sortedFrom, hn, h.2]; omega
    · next hab =>
      have := ih h.2 (fun e he => hm e (by simp [he])) (by omega)
      simp [Mem.sortedFrom, h.1, this]

theorem Mem.wf_iff {m : Mem} : Mem.wf m = true ↔ Mem.sortedFrom m 0 = true ∧ ∀ e ∈ m, e.2 ≠ 0 := by
  simp [Mem.wf]

/-- A write keeps the canonical form. -/
theorem Mem.wf_write {m : Mem} (a : Nat) (v : Word) (h : Mem.wf m = true) : Mem.wf (Mem.write m a v) = true := by
  obtain ⟨hs, hz⟩ := Mem.wf_iff.mp h
  refine Mem.wf_iff.mpr ⟨?_, fun e he => ?_⟩
  · unfold Mem.write
    split
    · exact Mem.sortedFrom_erase a hs
    · exact Mem.sortedFrom_insert v (Mem.sortedFrom_erase a hs) Mem.not_mem_erase (Nat.zero_le a)
  · by_cases hv : v = 0
    · rw [Mem.write, if_pos hv] at he
      exact hz e (Mem.mem_erase he)
    · rcases Mem.mem_write he with rfl | he
      · exact hv
      · exact hz e he

theorem Mem.sortedFrom_ofProgram (prog : List Word) (n : Nat) : Mem.sortedFrom (Mem.ofProgram n prog) n = true := by
  induction prog generalizing n with
  | nil => rfl
  | cons v vs ih =>
    unfold Mem.ofProgram
    split
    · exact Mem.sortedFrom_mono (ih (n + 1)) (by omega)
    · simp [Mem.sortedFrom, ih (n + 1)]

theorem Mem.ofProgram_ne_zero {prog : List Word} {n : Nat} {e : Nat × Word} (h : e ∈ Mem.ofProgram n prog) :
    e.2 ≠ 0 := by
  induction prog generalizing n with
  | nil => simp [Mem.ofProgram] at h
  | cons v vs ih =>
    unfold Mem.ofProgram at h
    split at h
    · exact ih h
    · next hv =>
      rcases List.mem_cons.mp h with rfl | h
      · exact hv
      · exact ih h

/-- LOAD builds a memory in canonical form. -/
theorem Mem.wf_ofProgram (prog : List Word) (n : Nat) : Mem.wf (Mem.ofProgram n prog) = true :=
  Mem.wf_iff.mpr ⟨Mem.sortedFrom_mono (Mem.sortedFrom_ofProgram prog n) (Nat.zero_le n),
    fun _ h => Mem.ofProgram_ne_zero h⟩

/-- Writes at consecutive addresses keep the canonical form. -/
theorem Mem.wf_writeAll {m : Mem} (a : Nat) (vs : List Word) (h : Mem.wf m = true) :
    Mem.wf (Mem.writeAll m a vs) = true := by
  induction vs generalizing m a with
  | nil => exact h
  | cons v vs ih => exact ih (a + 1) (Mem.wf_write a v h)

/-- The empty memory, that of State.reset, is in canonical form. -/
theorem Mem.wf_nil : Mem.wf [] = true := rfl

end Sys2Proof.Machine
end

