-- ==== Sys2Proof/Laws/State.lean ====
section
/-! SUPPORT. One lemma per field per update of the state, and what `inst?` reads after an update. -/

namespace Sys2Proof.Machine

variable (s : State) (i j : Nat) (x y : Inst) (st : Status) (r : Reply) (d : Sched) (e : PatternEnd) (k : FaultKind)

/-! ### setInst -/

@[simp] theorem State.setInst_cfg : (s.setInst i x).cfg = s.cfg := rfl
@[simp] theorem State.setInst_ctl : (s.setInst i x).ctl = s.ctl := rfl
@[simp] theorem State.setInst_sched : (s.setInst i x).sched = s.sched := rfl
@[simp] theorem State.setInst_host : (s.setInst i x).host = s.host := rfl
@[simp] theorem State.setInst_atPort : (s.setInst i x).atPort = s.atPort := rfl
@[simp] theorem State.setInst_replies : (s.setInst i x).replies = s.replies := rfl
@[simp] theorem State.setInst_insts : (s.setInst i x).insts = s.insts.set i (some x) := rfl

/-! ### stop -/

@[simp] theorem State.stop_cfg : (s.stop i st).cfg = s.cfg := rfl
@[simp] theorem State.stop_ctl : (s.stop i st).ctl = .stopped i st := rfl
@[simp] theorem State.stop_sched : (s.stop i st).sched = s.sched := rfl
@[simp] theorem State.stop_host : (s.stop i st).host = s.host := rfl
@[simp] theorem State.stop_atPort : (s.stop i st).atPort = s.atPort := rfl
@[simp] theorem State.stop_replies : (s.stop i st).replies = s.replies := rfl
@[simp] theorem State.stop_insts : (s.stop i st).insts = s.insts := rfl

/-! ### reply -/

@[simp] theorem State.reply_cfg : (s.reply r).cfg = s.cfg := rfl
@[simp] theorem State.reply_ctl : (s.reply r).ctl = s.ctl := rfl
@[simp] theorem State.reply_sched : (s.reply r).sched = s.sched := rfl
@[simp] theorem State.reply_host : (s.reply r).host = s.host := rfl
@[simp] theorem State.reply_atPort : (s.reply r).atPort = s.atPort := rfl
@[simp] theorem State.reply_replies : (s.reply r).replies = s.replies ++ [r] := rfl
@[simp] theorem State.reply_insts : (s.reply r).insts = s.insts := rfl

/-! ### nextTurn -/

@[simp] theorem State.nextTurn_cfg : (s.nextTurn d).cfg = s.cfg := rfl
@[simp] theorem State.nextTurn_ctl : (s.nextTurn d).ctl = .turn := rfl
@[simp] theorem State.nextTurn_sched : (s.nextTurn d).sched = d := rfl
@[simp] theorem State.nextTurn_host : (s.nextTurn d).host = s.host := rfl
@[simp] theorem State.nextTurn_atPort : (s.nextTurn d).atPort = s.atPort := rfl
@[simp] theorem State.nextTurn_replies : (s.nextTurn d).replies = s.replies := rfl
@[simp] theorem State.nextTurn_insts : (s.nextTurn d).insts = s.insts := rfl

/-! ### finish -/

@[simp] theorem State.finish_cfg : (s.finish e).cfg = s.cfg := rfl
@[simp] theorem State.finish_ctl : (s.finish e).ctl = .idle := rfl
@[simp] theorem State.finish_sched : (s.finish e).sched = .off := rfl
@[simp] theorem State.finish_host : (s.finish e).host = s.host := rfl
@[simp] theorem State.finish_atPort : (s.finish e).atPort = s.atPort := rfl
@[simp] theorem State.finish_replies : (s.finish e).replies = s.replies ++ [.ended e] := rfl
@[simp] theorem State.finish_insts : (s.finish e).insts = s.insts := rfl

/-! ### Inst.write -/

@[simp] theorem Inst.write_mem (a : Nat) (v : Word) : (x.write a v).mem = Mem.write x.mem a v := rfl
@[simp] theorem Inst.write_ip (a : Nat) (v : Word) : (x.write a v).ip = x.ip := rfl
@[simp] theorem Inst.write_rb (a : Nat) (v : Word) : (x.write a v).rb = x.rb := rfl
@[simp] theorem Inst.write_halted (a : Nat) (v : Word) : (x.write a v).halted = x.halted := rfl
@[simp] theorem Inst.write_fault (a : Nat) (v : Word) : (x.write a v).fault = x.fault := rfl
@[simp] theorem Inst.write_faultIp (a : Nat) (v : Word) : (x.write a v).faultIp = x.faultIp := rfl
@[simp] theorem Inst.write_inq (a : Nat) (v : Word) : (x.write a v).inq = x.inq := rfl
@[simp] theorem Inst.write_outq (a : Nat) (v : Word) : (x.write a v).outq = x.outq := rfl
@[simp] theorem Inst.write_outTo (a : Nat) (v : Word) : (x.write a v).outTo = x.outTo := rfl

/-! ### inst? -/

variable {s i j x y}

theorem State.inst?_eq_some : s.inst? i = some x ↔ s.insts[i]? = some (some x) := by
  unfold State.inst?
  rcases h : s.insts[i]? with _ | _ | z <;> simp

/-- An instance that exists has an index below N_INSTANCES. -/
theorem State.inst?_lt (h : s.inst? i = some x) : i < s.insts.length := by
  rw [State.inst?_eq_some] at h
  exact (List.getElem?_eq_some_iff.mp h).1

/-- `inst?` reads only the list of instances. -/
theorem State.inst?_congr {t : State} (h : t.insts = s.insts) (i : Nat) : t.inst? i = s.inst? i := by
  simp [State.inst?, h]

@[simp] theorem State.inst?_stop (i j : Nat) (st : Status) : (s.stop j st).inst? i = s.inst? i := rfl
@[simp] theorem State.inst?_reply (i : Nat) (r : Reply) : (s.reply r).inst? i = s.inst? i := rfl
@[simp] theorem State.inst?_nextTurn (i : Nat) (d : Sched) : (s.nextTurn d).inst? i = s.inst? i := rfl
@[simp] theorem State.inst?_finish (i : Nat) (e : PatternEnd) : (s.finish e).inst? i = s.inst? i := rfl

theorem State.inst?_setInst_self (h : i < s.insts.length) : (s.setInst i x).inst? i = some x := by
  simp [State.inst?_eq_some, h]

theorem State.inst?_setInst_ne (h : j ≠ i) : (s.setInst i x).inst? j = s.inst? j := by
  simp [State.inst?, h.symm]

theorem State.inst?_setInst (hx : i < s.insts.length) :
    (s.setInst i y).inst? j = if j = i then some y else s.inst? j := by
  split
  · next h => subst h; exact State.inst?_setInst_self hx
  · next h => exact State.inst?_setInst_ne h

theorem State.length_setInst : (s.setInst i x).insts.length = s.insts.length := by simp

/-- The change `setInst` makes, in the statements' terms. -/
theorem onlyInst_setInst (h : i < s.insts.length) : OnlyInst s i x (s.setInst i x) :=
  ⟨State.inst?_setInst_self h, fun _ hj => State.inst?_setInst_ne hj, by simp, rfl, rfl, rfl, rfl, rfl⟩

theorem onlyInst_stop {t : State} (st : Status) (j : Nat) (h : OnlyInst s i x t) : OnlyInst s i x (t.stop j st) := h

end Sys2Proof.Machine
end

