-- ==== Sys2Proof/Laws/Ops.lean ====
section
/-! SUPPORT. What each shared operation of Machine/Ops.lean can do, said once. -/

namespace Sys2Proof.Machine

/-! ### The parameters -/

theorem holds_mono {c : Config} {n n' : Nat} (h : holds c n = true) (hn : n' ≤ n) : holds c n' = true := by
  unfold holds at *
  split at h
  · rfl
  · simp only [decide_eq_true_eq] at h ⊢; omega

theorem holds_iff {c : Config} {n : Nat} : holds c n = true ↔ ∀ q, c.queueDepth = some q → n ≤ q := by
  unfold holds
  cases c.queueDepth <;> simp

theorem inLimit_iff {c : Config} {a : Nat} : inLimit c a = true ↔ ∀ l, c.memLimit = some l → a < l := by
  unfold inLimit
  cases c.memLimit <;> simp

theorem fitsMemory_iff {c : Config} {n : Nat} : fitsMemory c n = true ↔ ∀ l, c.memLimit = some l → n ≤ l := by
  unfold fitsMemory
  cases c.memLimit <;> simp

/-- R7: 0 and 1 are words of every legal width. -/
theorem representable_small {c : Config} {v : Word} (hc : c.legal = true) (h0 : 0 ≤ v) (h1 : v ≤ 1) :
    representable c v = true := by
  unfold representable
  unfold Config.legal Config.legalWordBits at hc
  rcases h : c.wordBits with _ | n
  · rfl
  · simp only [h, Bool.and_eq_true, decide_eq_true_eq] at hc
    have : 2 ^ 63 ≤ 2 ^ (n - 1) := Nat.pow_le_pow_right (by omega) (by omega)
    have hp : (2 : Int) ^ 63 ≤ ((2 ^ (n - 1) : Nat) : Int) := by exact_mod_cast this
    simp only [decide_eq_true_eq]
    constructor <;> linarith

/-! ### The checks -/

theorem checkAddress_ok {c : Config} {a : Word} {n : Nat} :
    checkAddress c a = .ok n ↔ 0 ≤ a ∧ n = a.toNat ∧ inLimit c n = true := by
  unfold checkAddress
  by_cases h : a < 0
  · simp [h]
  · by_cases hl : inLimit c a.toNat = true
    · simp only [h, hl, if_true, if_false, Except.ok.injEq]
      exact ⟨fun e => ⟨not_lt.mp h, e.symm, e ▸ hl⟩, fun e => e.2.1.symm⟩
    · simp only [h, hl, if_false, Bool.false_eq_true, reduceCtorEq, false_iff]
      exact fun e => hl (e.2.1 ▸ e.2.2)

/-- R49, R50: the two ways an access fails. -/
theorem checkAddress_error {c : Config} {a : Word} {k : FaultKind} :
    checkAddress c a = .error k ↔
      (k = .negativeAddress ∧ a < 0) ∨ (k = .memoryLimitExceeded ∧ 0 ≤ a ∧ inLimit c a.toNat = false) := by
  unfold checkAddress
  by_cases h : a < 0
  · simp only [h, if_true, Except.error.injEq, and_true, not_le.mpr h, false_and, and_false, or_false]
    exact eq_comm
  · by_cases hl : inLimit c a.toNat = true
    · simp [h, hl]
    · simp only [Bool.not_eq_true] at hl
      simp only [h, hl, if_false, Bool.false_eq_true, Except.error.injEq, and_false, false_or, not_lt.mp h, and_true]
      exact eq_comm

theorem checkValue_ok {c : Config} {v w : Word} : checkValue c v = .ok w ↔ w = v ∧ representable c v = true := by
  unfold checkValue
  split
  · next h => simp [h, eq_comm]
  · next h => simp [h]

theorem checkValue_error {c : Config} {v : Word} {k : FaultKind} :
    checkValue c v = .error k ↔ k = .valueOutOfRange ∧ representable c v = false := by
  unfold checkValue
  split
  · next h => simp [h]
  · next h => simp [h, eq_comm]

/-- A check phase that passes passes every check. -/
theorem bind_ok {α β : Type} {e : Except FaultKind α} {f : α → Except FaultKind β} {b : β} :
    (e >>= f) = .ok b ↔ ∃ a, e = .ok a ∧ f a = .ok b := by
  cases e <;> simp [bind, Except.bind]

/-- A check phase that fails fails at its first failing check. -/
theorem bind_error {α β : Type} {e : Except FaultKind α} {f : α → Except FaultKind β} {k : FaultKind} :
    (e >>= f) = .error k ↔ e = .error k ∨ ∃ a, e = .ok a ∧ f a = .error k := by
  cases e <;> simp [bind, Except.bind]

theorem memRead_ok {c : Config} {x : Inst} {a v : Word} :
    memRead c x a = .ok v ↔ 0 ≤ a ∧ inLimit c a.toNat = true ∧ v = Mem.read x.mem a.toNat := by
  unfold memRead
  rw [bind_ok]
  constructor
  · rintro ⟨n, hn, hv⟩
    obtain ⟨h0, rfl, hl⟩ := checkAddress_ok.mp hn
    exact ⟨h0, hl, by simpa [eq_comm] using hv⟩
  · rintro ⟨h0, hl, rfl⟩
    exact ⟨a.toNat, checkAddress_ok.mpr ⟨h0, rfl, hl⟩, rfl⟩

theorem memRead_error {c : Config} {x : Inst} {a : Word} {k : FaultKind} :
    memRead c x a = .error k ↔
      (k = .negativeAddress ∧ a < 0) ∨ (k = .memoryLimitExceeded ∧ 0 ≤ a ∧ inLimit c a.toNat = false) := by
  unfold memRead
  rw [bind_error, ← checkAddress_error]
  simp

/-! ### The active instance -/

theorem Inst.ready_iff {x : Inst} : x.ready = true ↔ x.halted = false ∧ x.fault = none := by
  unfold Inst.ready
  cases x.fault <;> cases x.halted <;> simp

theorem State.active_eq_some {s : State} {i : Nat} {m : Mask} {x : Inst} :
    s.active = some (i, m, x) ↔ Running s i m x := by
  unfold State.active Running
  rcases hc : s.ctl with _ | ⟨i', m'⟩ | _ | _ <;> simp only [reduceCtorEq, false_and]
  rcases hx : s.inst? i' with _ | x'
  · simp only [reduceCtorEq, Control.running.injEq, false_iff, not_and]
    rintro ⟨rfl, rfl⟩; simp [hx]
  · by_cases hr : x'.ready = true
    · simp only [hr, if_true, Option.some.injEq, Prod.mk.injEq, Control.running.injEq]
      constructor
      · rintro ⟨rfl, rfl, rfl⟩
        exact ⟨⟨rfl, rfl⟩, hx, Inst.ready_iff.mp hr⟩
      · rintro ⟨⟨rfl, rfl⟩, h, _⟩
        rw [hx] at h
        exact ⟨rfl, rfl, by simpa using h⟩
    · simp only [hr, Bool.false_eq_true, if_false, reduceCtorEq, Control.running.injEq, false_iff, not_and]
      rintro ⟨rfl, rfl⟩ h h1 h2
      rw [hx] at h
      exact hr (Inst.ready_iff.mpr (by simp at h; subst h; exact ⟨h1, h2⟩))

theorem State.onActive_running {s : State} {i : Nat} {m : Mask} {x : Inst} (h : Running s i m x)
    (k : Nat → Mask → Inst → Result) : s.onActive k = k i m x := by
  simp [State.onActive, State.active_eq_some.mpr h]

/-- R83: whatever answers a next state was run on a running instance. -/
theorem State.onActive_next {s t : State} {k : Nat → Mask → Inst → Result} (h : s.onActive k = .next t) :
    ∃ i m x, Running s i m x ∧ k i m x = .next t := by
  unfold State.onActive at h
  split at h
  · next i m x ha => exact ⟨i, m, x, State.active_eq_some.mp ha, h⟩
  · simp at h

theorem Running.unique {s : State} {i i' : Nat} {m m' : Mask} {x x' : Inst} (h : Running s i m x)
    (h' : Running s i' m' x') : i' = i ∧ m' = m ∧ x' = x := by
  have := State.active_eq_some.mpr h
  rw [State.active_eq_some.mpr h'] at this
  simpa using this

theorem Running.lt {s : State} {i : Nat} {m : Mask} {x : Inst} (h : Running s i m x) : i < s.insts.length :=
  State.inst?_lt h.2.1

/-! ### Fault entry (R190) -/

theorem State.takeFault_eq {s : State} {i : Nat} {x : Inst} (h : s.inst? i = some x) (k : FaultKind) :
    s.takeFault i k = (s.setInst i { x with fault := some k, faultIp := x.ip }).stop i (.fault k) := by
  simp [State.takeFault, h]

theorem faultEntry_takeFault {s : State} {i : Nat} {x : Inst} (h : s.inst? i = some x) (k : FaultKind) :
    FaultEntry s i k (s.takeFault i k) := by
  rw [State.takeFault_eq h]
  exact ⟨x, h, onlyInst_stop _ _ (onlyInst_setInst (State.inst?_lt h)), rfl⟩

@[simp] theorem State.attempt_ok (s : State) (i : Nat) {α : Type} (a : α) (k : α → Result) :
    s.attempt i (.ok a) k = k a := rfl

@[simp] theorem State.attempt_error (s : State) (i : Nat) {α : Type} (f : FaultKind) (k : α → Result) :
    s.attempt i (.error f) k = .next (s.takeFault i f) := rfl

/-- R85: what checks and then a commit can answer: the fault of the check phase, or the commit's answer. -/
theorem State.attempt_next {s t : State} {i : Nat} {α : Type} {e : Except FaultKind α} {k : α → Result}
    (h : s.attempt i e k = .next t) :
    (∃ f, e = .error f ∧ t = s.takeFault i f) ∨ (∃ a, e = .ok a ∧ k a = .next t) := by
  cases e with
  | error f => exact .inl ⟨f, rfl, by simpa [eq_comm] using h⟩
  | ok a => exact .inr ⟨a, rfl, h⟩

/-! ### Queues (R30, R31) -/

theorem State.outQueue_own {s : State} {i : Nat} {x : Inst} (h : s.inst? i = some x) (hw : x.outTo = none) :
    s.outQueue i = some x.outq := by
  simp [State.outQueue, h, hw]

theorem State.outQueue_wired {s : State} {i j : Nat} {x y : Inst} (h : s.inst? i = some x) (hw : x.outTo = some j)
    (hy : s.inst? j = some y) : s.outQueue i = some y.inq := by
  simp [State.outQueue, h, hw, hy]

/-- Where OUTQ(i) is: the instance's own queue, or the INQ of an instance that exists. -/
theorem State.outQueue_cases {s : State} {i : Nat} {q : List Word} (h : s.outQueue i = some q) :
    (∃ x, s.inst? i = some x ∧ x.outTo = none ∧ q = x.outq) ∨
      (∃ x j y, s.inst? i = some x ∧ x.outTo = some j ∧ s.inst? j = some y ∧ q = y.inq) := by
  unfold State.outQueue at h
  rcases hx : s.inst? i with _ | x
  · simp [hx] at h
  · simp only [hx] at h
    rcases hw : x.outTo with _ | j
    · simp only [hw, Option.some.injEq] at h
      exact .inl ⟨x, rfl, hw, h.symm⟩
    · simp only [hw] at h
      rcases hy : s.inst? j with _ | y
      · simp [hy] at h
      · simp only [hy, Option.some.injEq] at h
        exact .inr ⟨x, j, y, rfl, hw, hy, h.symm⟩

theorem State.setOutQueue_own {s : State} {i : Nat} {x : Inst} (h : s.inst? i = some x) (hw : x.outTo = none)
    (q : List Word) : s.setOutQueue i q = s.setInst i { x with outq := q } := by
  simp [State.setOutQueue, h, hw]

theorem State.setOutQueue_wired {s : State} {i j : Nat} {x y : Inst} (h : s.inst? i = some x)
    (hw : x.outTo = some j) (hy : s.inst? j = some y) (q : List Word) :
    s.setOutQueue i q = s.setInst j { y with inq := q } := by
  simp [State.setOutQueue, h, hw, hy]

section
variable (s : State) (i : Nat) (q : List Word)

/-- `setOutQueue` changes the list of instances alone. -/
theorem State.setOutQueue_eq : ∃ l, s.setOutQueue i q = { s with insts := l } ∧ l.length = s.insts.length := by
  unfold State.setOutQueue
  split
  · exact ⟨s.insts, rfl, rfl⟩
  · split
    · exact ⟨_, rfl, by simp⟩
    · split
      · exact ⟨s.insts, rfl, rfl⟩
      · exact ⟨_, rfl, by simp⟩

@[simp] theorem State.setOutQueue_cfg : (s.setOutQueue i q).cfg = s.cfg := by
  obtain ⟨l, h, _⟩ := s.setOutQueue_eq i q; simp [h]
@[simp] theorem State.setOutQueue_ctl : (s.setOutQueue i q).ctl = s.ctl := by
  obtain ⟨l, h, _⟩ := s.setOutQueue_eq i q; simp [h]
@[simp] theorem State.setOutQueue_sched : (s.setOutQueue i q).sched = s.sched := by
  obtain ⟨l, h, _⟩ := s.setOutQueue_eq i q; simp [h]
@[simp] theorem State.setOutQueue_host : (s.setOutQueue i q).host = s.host := by
  obtain ⟨l, h, _⟩ := s.setOutQueue_eq i q; simp [h]
@[simp] theorem State.setOutQueue_atPort : (s.setOutQueue i q).atPort = s.atPort := by
  obtain ⟨l, h, _⟩ := s.setOutQueue_eq i q; simp [h]
@[simp] theorem State.setOutQueue_replies : (s.setOutQueue i q).replies = s.replies := by
  obtain ⟨l, h, _⟩ := s.setOutQueue_eq i q; simp [h]
@[simp] theorem State.setOutQueue_length : (s.setOutQueue i q).insts.length = s.insts.length := by
  obtain ⟨l, h, hl⟩ := s.setOutQueue_eq i q; simp [h, hl]

end

/-- R31: the queue that was set is the queue that is read. -/
theorem State.outQueue_setOutQueue {s : State} {i : Nat} {q : List Word} (h : s.outQueue i = some q)
    (q' : List Word) : (s.setOutQueue i q').outQueue i = some q' := by
  rcases State.outQueue_cases h with ⟨x, hx, hw, _⟩ | ⟨x, j, y, hx, hw, hy, _⟩
  · rw [State.setOutQueue_own hx hw]
    exact State.outQueue_own (x := { x with outq := q' }) (State.inst?_setInst_self (State.inst?_lt hx)) hw
  · rw [State.setOutQueue_wired hx hw hy]
    have hj := State.inst?_lt hy
    by_cases hij : i = j
    · subst hij
      rw [hx] at hy; cases hy
      exact State.outQueue_wired (x := { x with inq := q' }) (State.inst?_setInst_self hj) hw
        (State.inst?_setInst_self hj)
    · exact State.outQueue_wired (y := { y with inq := q' }) (by rw [State.inst?_setInst_ne hij]; exact hx) hw
        (State.inst?_setInst_self hj)

/-- What `setOutQueue` does to an instance that exists: its INQ or its OUTQ becomes q, or nothing. -/
theorem State.inst?_setOutQueue {s : State} {i j : Nat} {y : Inst} (q : List Word) (h : s.inst? j = some y) :
    ∃ y', (s.setOutQueue i q).inst? j = some y' ∧
      (y' = y ∨ y' = { y with inq := q } ∨ (j = i ∧ y' = { y with outq := q })) := by
  unfold State.setOutQueue
  split
  · exact ⟨y, h, .inl rfl⟩
  · next x hx =>
    split
    · rw [State.inst?_setInst (State.inst?_lt hx)]
      split
      · next hji =>
        subst hji; rw [hx] at h; cases h
        exact ⟨_, rfl, .inr (.inr ⟨rfl, rfl⟩)⟩
      · exact ⟨y, h, .inl rfl⟩
    · next j' hw =>
      split
      · exact ⟨y, h, .inl rfl⟩
      · next z hz =>
        rw [State.inst?_setInst (State.inst?_lt hz)]
        split
        · next hji =>
          subst hji; rw [hz] at h; cases h
          exact ⟨_, rfl, .inr (.inl rfl)⟩
        · exact ⟨y, h, .inl rfl⟩

/-! ### The beginning of a resume transaction (R195) -/

/-- What RESUME can answer: only the control changes. -/
theorem State.beginResume_eq_some {s t : State} {i : Nat} {m : Mask} (h : s.beginResume i m = some t) :
    ∃ x, s.inst? i = some x ∧
      ((∃ k, x.fault = some k ∧ t = { s with ctl := .stopped i (.fault k) })
        ∨ (x.fault = none ∧ x.halted = true ∧ t = { s with ctl := .stopped i .halted })
        ∨ (x.ready = true ∧ t = { s with ctl := .running i m })) := by
  unfold State.beginResume at h
  split at h
  · simp at h
  · next x hx =>
    refine ⟨x, hx, ?_⟩
    split at h
    · next k hk => exact .inl ⟨k, hk, by simpa [State.stop, eq_comm] using h⟩
    · next hk =>
      split at h
      · next hh => exact .inr (.inl ⟨hk, hh, by simpa [State.stop, eq_comm] using h⟩)
      · next hh =>
        exact .inr (.inr ⟨Inst.ready_iff.mpr ⟨by simpa using hh, hk⟩, by simpa [eq_comm] using h⟩)

theorem State.beginResume_isSome {s : State} {i : Nat} {m : Mask} {x : Inst} (h : s.inst? i = some x) :
    ∃ t, s.beginResume i m = some t := by
  unfold State.beginResume
  simp only [h]
  split
  · exact ⟨_, rfl⟩
  · split <;> exact ⟨_, rfl⟩

end Sys2Proof.Machine
end

