-- ==== Sys2Proof/Laws/Decode.lean ====
section
/-! SUPPORT. What the decoder's parts answer, check by check (spec/30_encoding.md R66 to R79). -/

namespace Sys2Proof

open Sys2Proof.Machine

theorem Op.params_le (op : Op) : op.params ≤ 3 := by cases op <;> decide

theorem Mode.digit_le (m : Mode) : m.digit ≤ 2 := by cases m <;> decide

theorem opOf_number (op : Op) : opOf op.number = some op := by cases op <;> rfl

/-- R74, R75: the opcode map names each kind once. -/
theorem opOf_eq_some {n : Nat} {op : Op} : opOf n = some op ↔ n = op.number := by
  refine ⟨fun h => ?_, fun h => h ▸ opOf_number op⟩
  unfold opOf at h
  split at h <;> simp at h <;> subst h <;> rfl

theorem modeOfDigit_digit (m : Mode) : modeOfDigit m.digit = some m := by cases m <;> rfl

theorem modeOfDigit_eq_some {d : Nat} {m : Mode} : modeOfDigit d = some m ↔ d = m.digit := by
  refine ⟨fun h => ?_, fun h => h ▸ modeOfDigit_digit m⟩
  unfold modeOfDigit at h
  split at h <;> simp at h <;> subst h <;> rfl

/-- R67: the digits 3 to 9 name no mode. -/
theorem modeOfDigit_eq_none {d : Nat} : modeOfDigit d = none ↔ 2 < d := by
  rcases d with _ | _ | _ | d <;> simp [modeOfDigit]

theorem paramMode_ok {w n k : Nat} {m : Mode} :
    paramMode w n k = .ok m ↔ (k ≤ n ∧ digit w (k + 1) = m.digit) ∨ (n < k ∧ m = .position) := by
  unfold paramMode
  by_cases h : k ≤ n
  · simp only [h, if_true, true_and, not_lt.mpr h, false_and, or_false]
    rw [← modeOfDigit_eq_some]
    cases modeOfDigit (digit w (k + 1)) <;> simp
  · simp [h, not_le.mp h, eq_comm]

theorem paramMode_error {w n k : Nat} {f : FaultKind} :
    paramMode w n k = .error f ↔ f = .invalidParameterMode ∧ k ≤ n ∧ 2 < digit w (k + 1) := by
  unfold paramMode
  by_cases h : k ≤ n
  · simp only [h, if_true, true_and]
    rw [← modeOfDigit_eq_none]
    cases modeOfDigit (digit w (k + 1)) <;> simp [eq_comm]
  · simp [h]

/-- R78: what a word that decodes satisfies. -/
theorem decodeWord_ok {w : Word} {h : Head} :
    decodeWord w = .ok h ↔
      0 ≤ w ∧ opOf (w.toNat % 100) = some h.op
        ∧ paramMode w.toNat h.op.params 1 = .ok h.m1 ∧ paramMode w.toNat h.op.params 2 = .ok h.m2
        ∧ paramMode w.toNat h.op.params 3 = .ok h.m3 ∧ w.toNat / 10 ^ (h.op.params + 2) = 0
        ∧ h.writesImmediate = false := by
  unfold decodeWord
  by_cases hw : w < 0
  · simp [hw]
  · simp only [hw, if_false, not_lt.mp hw, true_and]
    rcases ho : opOf (w.toNat % 100) with _ | op
    · simp
    · simp only [bind_ok, Option.some.injEq]
      constructor
      · rintro ⟨m1, h1, m2, h2, m3, h3, hh⟩
        split at hh
        · cases hh
        · next hz =>
          split at hh
          · cases hh
          · next hi =>
            cases hh
            exact ⟨rfl, h1, h2, h3, by simpa using hz, by simpa using hi⟩
      · obtain ⟨o, m1, m2, m3⟩ := h
        rintro ⟨rfl, h1, h2, h3, hz, hi⟩
        refine ⟨m1, h1, m2, h2, m3, h3, ?_⟩
        dsimp only at hz
        simp [hz, hi]

/-- R181 to R183: the faults the decoder raises. -/
theorem decodeWord_error {w : Word} {f : FaultKind} (h : decodeWord w = .error f) :
    f = .unknownOpcode ∨ f = .invalidParameterMode ∨ f = .illegalWriteTarget := by
  unfold decodeWord at h
  split at h
  · cases h; simp
  · split at h
    · cases h; simp
    · simp only [bind_error] at h
      rcases h with h | ⟨_, _, h | ⟨_, _, h | ⟨_, _, h⟩⟩⟩
      · exact .inr (.inl (paramMode_error.mp h).1)
      · exact .inr (.inl (paramMode_error.mp h).1)
      · exact .inr (.inl (paramMode_error.mp h).1)
      · split at h
        · cases h; simp
        · split at h <;> cases h; simp

/-- R72: what an instruction that decodes is: the word's kind and modes, with the raw values. -/
theorem Head.instr_op (h : Head) (r1 r2 r3 : Word) : (h.instr r1 r2 r3).op = h.op := by
  obtain ⟨op, _, _, _⟩ := h
  cases op <;> rfl

theorem Head.instr_wf (h : Head) (r1 r2 r3 : Word) : (h.instr r1 r2 r3).wf = !h.writesImmediate := by
  obtain ⟨op, m1, m2, m3⟩ := h
  cases op <;> simp [Head.instr, Instr.wf, Param.writable, Head.writesImmediate] <;>
    first | (cases m3 <;> rfl) | (cases m1 <;> rfl)

end Sys2Proof
end

