-- ==== Sys2Proof/Laws/Operands.lean ====
section
/-! SUPPORT. What the parameter resolver and the check phases answer, check by check (spec/40_datapath.md R89 to R95). -/

namespace Sys2Proof.Machine

variable {c : Config} {x : Inst} {p p1 p2 p3 : Param} {k : FaultKind}

theorem advance_ok {len : Nat} {n : Word} :
    advance c x len = .ok n ↔ n = x.ip + len ∧ representable c (x.ip + len) = true := checkValue_ok

theorem advance_error {len : Nat} :
    advance c x len = .error k ↔ k = .valueOutOfRange ∧ representable c (x.ip + len) = false := checkValue_error

theorem relativeAddress_ok {raw a : Word} :
    relativeAddress c x raw = .ok a ↔ a = x.rb + raw ∧ representable c (x.rb + raw) = true := checkValue_ok

theorem readOperand_immediate {raw : Word} : readOperand c x ⟨.immediate, raw⟩ = .ok raw := rfl

theorem readOperand_position {raw : Word} : readOperand c x ⟨.position, raw⟩ = memRead c x raw := rfl

theorem readOperand_relative {raw : Word} (h : representable c (x.rb + raw) = true) :
    readOperand c x ⟨.relative, raw⟩ = memRead c x (x.rb + raw) := by
  simp [readOperand, relativeAddress, checkValue, h, bind, Except.bind]

/-- What a read parameter can give: its raw value, or the word of a cell. -/
theorem readOperand_ok {v : Word} (h : readOperand c x p = .ok v) : v = p.raw ∨ ∃ a, v = Mem.read x.mem a := by
  obtain ⟨m, raw⟩ := p
  cases m with
  | immediate => exact .inl (by simpa [readOperand, eq_comm] using h)
  | position => exact .inr ⟨_, (memRead_ok.mp h).2.2⟩
  | relative =>
    obtain ⟨a, _, ha⟩ := bind_ok.mp h
    exact .inr ⟨_, (memRead_ok.mp ha).2.2⟩

/-- The address a write parameter gives is within MEM_LIMIT. -/
theorem writeAddress_ok {ea : Nat} (h : writeAddress c x p = .ok ea) : inLimit c ea = true := by
  obtain ⟨m, raw⟩ := p
  cases m with
  | immediate => simp [writeAddress] at h
  | position => exact (checkAddress_ok.mp h).2.2
  | relative =>
    obtain ⟨a, _, ha⟩ := bind_ok.mp h
    exact (checkAddress_ok.mp ha).2.2

theorem check3_ok {r : Word → Word → Except FaultKind Word} {ea : Nat} {v n : Word} :
    check3 c x r p1 p2 p3 = .ok (ea, v, n) ↔
      ∃ v1 v2, readOperand c x p1 = .ok v1 ∧ readOperand c x p2 = .ok v2 ∧ writeAddress c x p3 = .ok ea
        ∧ r v1 v2 = .ok v ∧ advance c x 4 = .ok n := by
  unfold check3
  simp only [bind_ok, Except.ok.injEq, Prod.mk.injEq]
  constructor
  · rintro ⟨v1, h1, v2, h2, _, h3, _, h4, _, h5, rfl, rfl, rfl⟩
    exact ⟨v1, v2, h1, h2, h3, h4, h5⟩
  · rintro ⟨v1, v2, h1, h2, h3, h4, h5⟩
    exact ⟨v1, h1, v2, h2, _, h3, _, h4, _, h5, rfl, rfl, rfl⟩

theorem checkJump_ok {taken : Word → Bool} {n : Word} :
    checkJump c x taken p1 p2 = .ok n ↔
      ∃ v1 v2, readOperand c x p1 = .ok v1 ∧ readOperand c x p2 = .ok v2
        ∧ (if taken v1 then n = v2 else advance c x 3 = .ok n) := by
  unfold checkJump
  simp only [bind_ok]
  constructor
  · rintro ⟨v1, h1, v2, h2, h⟩
    refine ⟨v1, v2, h1, h2, ?_⟩
    split at h <;> simp_all
  · rintro ⟨v1, v2, h1, h2, h⟩
    refine ⟨v1, h1, v2, h2, ?_⟩
    split at h <;> simp_all

theorem checkIn_ok {ea : Nat} {n : Word} :
    checkIn c x p1 = .ok (ea, n) ↔ writeAddress c x p1 = .ok ea ∧ advance c x 2 = .ok n := by
  unfold checkIn
  simp only [bind_ok, Except.ok.injEq, Prod.mk.injEq]
  constructor
  · rintro ⟨_, h1, _, h2, rfl, rfl⟩; exact ⟨h1, h2⟩
  · rintro ⟨h1, h2⟩; exact ⟨_, h1, _, h2, rfl, rfl⟩

theorem checkOut_ok {v n : Word} :
    checkOut c x p1 = .ok (v, n) ↔ readOperand c x p1 = .ok v ∧ advance c x 2 = .ok n := by
  unfold checkOut
  simp only [bind_ok, Except.ok.injEq, Prod.mk.injEq]
  constructor
  · rintro ⟨_, h1, _, h2, rfl, rfl⟩; exact ⟨h1, h2⟩
  · rintro ⟨h1, h2⟩; exact ⟨_, h1, _, h2, rfl, rfl⟩

theorem checkArb_ok {r n : Word} :
    checkArb c x p1 = .ok (r, n) ↔
      ∃ v, readOperand c x p1 = .ok v ∧ checkValue c (x.rb + v) = .ok r ∧ advance c x 2 = .ok n := by
  unfold checkArb
  simp only [bind_ok, Except.ok.injEq, Prod.mk.injEq]
  constructor
  · rintro ⟨v, h1, _, h2, _, h3, rfl, rfl⟩; exact ⟨v, h1, h2, h3⟩
  · rintro ⟨v, h1, h2, h3⟩; exact ⟨v, h1, _, h2, _, h3, rfl, rfl⟩

end Sys2Proof.Machine
end

