-- ==== Sys2Proof/Laws/Exec.lean ====
section
/-! SUPPORT. What each instruction's meaning can answer: one inversion lemma per shape ("if it answers a next state, then
one of these cases holds"), and one for exec. -/

namespace Sys2Proof.Machine

variable {s t : State} {i : Nat} {m : Mask} {x : Inst} {p1 p2 p3 : Param}

/-- What a replaced instance reads back as. -/
theorem setInst_inst?_eq {y z : Inst} (hr : Running s i m x) (h : (s.setInst i z).inst? i = some y) : y = z := by
  rw [State.inst?_setInst_self hr.lt] at h
  exact (Option.some.inj h).symm

/-- R190: what fault entry makes of the instance. -/
theorem takeFault_inst?_eq {y : Inst} {k : FaultKind} (hr : Running s i m x)
    (h : (s.takeFault i k).inst? i = some y) : y = { x with fault := some k, faultIp := x.ip } := by
  rw [State.takeFault_eq hr.2.1, State.inst?_stop] at h
  exact setInst_inst?_eq hr h

/-- R98, R99, R111, R112. -/
theorem store3_next {r : Config → Word → Word → Except FaultKind Word} (hr : Running s i m x)
    (h : store3 r p1 p2 p3 s = .next t) :
    (∃ k, check3 s.cfg x (r s.cfg) p1 p2 p3 = .error k ∧ t = s.takeFault i k) ∨
      ∃ ea v n, check3 s.cfg x (r s.cfg) p1 p2 p3 = .ok (ea, v, n)
        ∧ t = s.setInst i { x.write ea v with ip := n } := by
  rw [store3, State.onActive_running hr] at h
  rcases State.attempt_next h with h | ⟨⟨ea, v, n⟩, hc, ht⟩
  · exact .inl h
  · exact .inr ⟨ea, v, n, hc, (Host.Outcome.next.inj ht).symm⟩

theorem store3_ok {r : Config → Word → Word → Except FaultKind Word} {ea : Nat} {v n : Word} (hr : Running s i m x)
    (h : check3 s.cfg x (r s.cfg) p1 p2 p3 = .ok (ea, v, n)) :
    store3 r p1 p2 p3 s = .next (s.setInst i { x.write ea v with ip := n }) := by
  rw [store3, State.onActive_running hr, h, State.attempt_ok]

theorem store3_error {r : Config → Word → Word → Except FaultKind Word} {k : FaultKind} (hr : Running s i m x)
    (h : check3 s.cfg x (r s.cfg) p1 p2 p3 = .error k) : store3 r p1 p2 p3 s = .next (s.takeFault i k) := by
  rw [store3, State.onActive_running hr, h, State.attempt_error]

/-- R107, R108. -/
theorem jump_next {taken : Word → Bool} (hr : Running s i m x) (h : jump taken p1 p2 s = .next t) :
    (∃ k, checkJump s.cfg x taken p1 p2 = .error k ∧ t = s.takeFault i k) ∨
      ∃ n, checkJump s.cfg x taken p1 p2 = .ok n ∧ t = s.setInst i { x with ip := n } := by
  rw [jump, State.onActive_running hr] at h
  rcases State.attempt_next h with h | ⟨n, hc, ht⟩
  · exact .inl h
  · exact .inr ⟨n, hc, (Host.Outcome.next.inj ht).symm⟩

theorem jump_ok {taken : Word → Bool} {n : Word} (hr : Running s i m x)
    (h : checkJump s.cfg x taken p1 p2 = .ok n) : jump taken p1 p2 s = .next (s.setInst i { x with ip := n }) := by
  rw [jump, State.onActive_running hr, h, State.attempt_ok]

theorem jump_error {taken : Word → Bool} {k : FaultKind} (hr : Running s i m x)
    (h : checkJump s.cfg x taken p1 p2 = .error k) : jump taken p1 p2 s = .next (s.takeFault i k) := by
  rw [jump, State.onActive_running hr, h, State.attempt_error]

/-- R103, R105. -/
theorem execInp_next (hr : Running s i m x) (h : execInp p1 s = .next t) :
    (∃ k, checkIn s.cfg x p1 = .error k ∧ t = s.takeFault i k) ∨
      ∃ ea n, checkIn s.cfg x p1 = .ok (ea, n) ∧
        ((x.inq = [] ∧ m.needsInput = true ∧ t = s.stop i .needsInput)
          ∨ (x.inq = [] ∧ m.needsInput = false ∧ t = s.takeFault i .channelUnderflow)
          ∨ ∃ v q, x.inq = v :: q ∧ t = s.setInst i { x.write ea v with ip := n, inq := q }) := by
  rw [execInp, State.onActive_running hr] at h
  rcases State.attempt_next h with h | ⟨⟨ea, n⟩, hc, ht⟩
  · exact .inl h
  · refine .inr ⟨ea, n, hc, ?_⟩
    simp only at ht
    split at ht
    · next hq =>
      split at ht
      · next hm => exact .inl ⟨hq, hm, (Host.Outcome.next.inj ht).symm⟩
      · next hm => exact .inr (.inl ⟨hq, by simpa using hm, (Host.Outcome.next.inj ht).symm⟩)
    · next v q hq => exact .inr (.inr ⟨v, q, hq, (Host.Outcome.next.inj ht).symm⟩)

/-- The state after an Output that completes (R104, R197): the advance, the push, and the stop with HasOutput where the
mask has it. -/
def outState (s : State) (i : Nat) (m : Mask) (x : Inst) (n v : Word) (q : List Word) : State :=
  let t := (s.setInst i { x with ip := n }).setOutQueue i (q ++ [v])
  if m.hasOutput then t.stop i .hasOutput else t

/-- R104. -/
theorem execOut_next (hr : Running s i m x) (h : execOut p1 s = .next t) :
    (∃ k, checkOut s.cfg x p1 = .error k ∧ t = s.takeFault i k) ∨
      ∃ v n q, checkOut s.cfg x p1 = .ok (v, n) ∧ s.outQueue i = some q ∧
        ((holds s.cfg (q.length + 1) = true ∧ t = outState s i m x n v q)
          ∨ (holds s.cfg (q.length + 1) = false ∧ t = s.takeFault i .channelOverflow)) := by
  rw [execOut, State.onActive_running hr] at h
  rcases State.attempt_next h with h | ⟨⟨v, n⟩, hc, ht⟩
  · exact .inl h
  · simp only at ht
    split at ht
    · simp at ht
    · next q hq =>
      refine .inr ⟨v, n, q, hc, hq, ?_⟩
      split at ht
      · next hh => exact .inl ⟨hh, (Host.Outcome.next.inj ht).symm⟩
      · next hh => exact .inr ⟨by simpa using hh, (Host.Outcome.next.inj ht).symm⟩

theorem execOut_ok {v n : Word} {q : List Word} (hr : Running s i m x) (h : checkOut s.cfg x p1 = .ok (v, n))
    (hq : s.outQueue i = some q) (hh : holds s.cfg (q.length + 1) = true) :
    execOut p1 s = .next (outState s i m x n v q) := by
  rw [execOut, State.onActive_running hr, h, State.attempt_ok]
  simp [hq, hh, outState]

/-- R114. -/
theorem execArb_next (hr : Running s i m x) (h : execArb p1 s = .next t) :
    (∃ k, checkArb s.cfg x p1 = .error k ∧ t = s.takeFault i k) ∨
      ∃ r n, checkArb s.cfg x p1 = .ok (r, n) ∧ t = s.setInst i { x with rb := r, ip := n } := by
  rw [execArb, State.onActive_running hr] at h
  rcases State.attempt_next h with h | ⟨⟨r, n⟩, hc, ht⟩
  · exact .inl h
  · exact .inr ⟨r, n, hc, (Host.Outcome.next.inj ht).symm⟩

/-- R116. -/
theorem execHalt_eq (hr : Running s i m x) :
    execHalt s = .next ((s.setInst i { x with halted := true }).stop i .halted) := by
  rw [execHalt, State.onActive_running hr]

/-! ### What OUT's state is -/

section
variable {n v : Word} {q : List Word}

@[simp] theorem outState_cfg : (outState s i m x n v q).cfg = s.cfg := by unfold outState; split <;> simp
@[simp] theorem outState_sched : (outState s i m x n v q).sched = s.sched := by unfold outState; split <;> simp
@[simp] theorem outState_host : (outState s i m x n v q).host = s.host := by unfold outState; split <;> simp
@[simp] theorem outState_atPort : (outState s i m x n v q).atPort = s.atPort := by unfold outState; split <;> simp
@[simp] theorem outState_replies : (outState s i m x n v q).replies = s.replies := by unfold outState; split <;> simp
@[simp] theorem outState_length : (outState s i m x n v q).insts.length = s.insts.length := by
  unfold outState; split <;> simp

theorem outState_ctl : (outState s i m x n v q).ctl = if m.hasOutput then .stopped i .hasOutput else s.ctl := by
  unfold outState; split <;> simp [*]

theorem outState_inst? (j : Nat) : (outState s i m x n v q).inst? j
    = ((s.setInst i { x with ip := n }).setOutQueue i (q ++ [v])).inst? j := by
  unfold outState; split <;> simp

/-- R31, R102: the pushed value is in OUTQ(i) after it. -/
theorem outState_outQueue (hx : s.inst? i = some x) (hq : s.outQueue i = some q) :
    (outState s i m x n v q).outQueue i = some (q ++ [v]) := by
  have h1 : (s.setInst i { x with ip := n }).outQueue i = some q := by
    rcases State.outQueue_cases hq with ⟨x', hx', hw, rfl⟩ | ⟨x', j, y, hx', hw, hy, rfl⟩
    · rw [hx] at hx'; cases hx'
      exact State.outQueue_own (x := { x with ip := n }) (State.inst?_setInst_self (State.inst?_lt hx)) hw
    · rw [hx] at hx'; cases hx'
      have hi := State.inst?_lt hx
      by_cases hij : j = i
      · subst hij
        rw [hx] at hy; cases hy
        exact State.outQueue_wired (x := { x with ip := n }) (y := { x with ip := n })
          (State.inst?_setInst_self hi) hw (State.inst?_setInst_self hi)
      · exact State.outQueue_wired (x := { x with ip := n }) (State.inst?_setInst_self hi) hw
          (by rw [State.inst?_setInst_ne hij]; exact hy)
  have h2 := State.outQueue_setOutQueue h1 (q ++ [v])
  unfold outState
  split
  · simpa [State.outQueue] using h2
  · exact h2

/-- R30, R31, R102: every instance after OUT, by where OUTQ(i) is: the instance's own queue, its own INQ, or the INQ of
another one. -/
theorem outState_cases (hx : s.inst? i = some x) (hq : s.outQueue i = some q) :
    (x.outTo = none ∧ ∀ j, (outState s i m x n v q).inst? j
        = if j = i then some { x with ip := n, outq := q ++ [v] } else s.inst? j)
      ∨ (x.outTo = some i ∧ ∀ j, (outState s i m x n v q).inst? j
        = if j = i then some { x with ip := n, inq := q ++ [v] } else s.inst? j)
      ∨ ∃ k z, k ≠ i ∧ x.outTo = some k ∧ s.inst? k = some z ∧ ∀ j, (outState s i m x n v q).inst? j
        = if j = i then some { x with ip := n }
          else if j = k then some { z with inq := q ++ [v] } else s.inst? j := by
  have hi := State.inst?_lt hx
  have hs : (s.setInst i { x with ip := n }).inst? i = some { x with ip := n } := State.inst?_setInst_self hi
  have hs' : ∀ j, j ≠ i → (s.setInst i { x with ip := n }).inst? j = s.inst? j := fun j hj => State.inst?_setInst_ne hj
  rcases State.outQueue_cases hq with ⟨x', hx', hw, rfl⟩ | ⟨x', k, z, hx', hw, hz, rfl⟩
  · rw [hx] at hx'; cases hx'
    refine .inl ⟨hw, fun j => ?_⟩
    rw [outState_inst?, State.setOutQueue_own hs hw, State.inst?_setInst (by simpa using hi)]
    split
    · rfl
    · next h => exact hs' j h
  · rw [hx] at hx'; cases hx'
    by_cases hk : k = i
    · subst hk
      refine .inr (.inl ⟨hw, fun j => ?_⟩)
      rw [outState_inst?, State.setOutQueue_wired hs hw hs, State.inst?_setInst (by simpa using hi)]
      split
      · rfl
      · next h => exact hs' j h
    · refine .inr (.inr ⟨k, z, hk, hw, hz, fun j => ?_⟩)
      rw [outState_inst?, State.setOutQueue_wired hs hw (by rw [hs' k hk]; exact hz),
        State.inst?_setInst (by simpa using State.inst?_lt hz)]
      split
      · next h => subst h; rw [if_neg hk]
      · next h =>
        split
        · next h => subst h; exact hs
        · next h => exact hs' j h

/-- What OUT leaves of an instance that exists: its queues, and the ip of the instance itself, may differ. -/
theorem outState_other {j : Nat} {y : Inst} (hx : s.inst? i = some x) (hy : s.inst? j = some y) :
    ∃ y', (outState s i m x n v q).inst? j = some y' ∧
      SameBesidesQueues (if j = i then { x with ip := n } else y) y' := by
  have h : (s.setInst i { x with ip := n }).inst? j = some (if j = i then { x with ip := n } else y) := by
    rw [State.inst?_setInst (State.inst?_lt hx)]
    split
    · rfl
    · exact hy
  obtain ⟨y', hy', hc⟩ := State.inst?_setOutQueue (i := i) (q ++ [v]) h
  refine ⟨y', by rw [outState_inst?]; exact hy', ?_⟩
  rcases hc with rfl | rfl | ⟨_, rfl⟩ <;> exact ⟨rfl, rfl, rfl, rfl, rfl, rfl, rfl⟩

end

/-! ### exec -/

/-- What an instruction that completes without a stop makes of its own instance: HALTED, FAULT, FAULT_IP, OUTQ and the
wiring stay, and INQ stays or loses its oldest value. -/
def Advanced (x y : Inst) : Prop :=
  y.halted = x.halted ∧ y.fault = x.fault ∧ y.faultIp = x.faultIp ∧ y.outq = x.outq ∧ y.outTo = x.outTo
    ∧ (y.inq = x.inq ∨ ∃ v, x.inq = v :: y.inq)

/-- What any instruction can do: take a fault, change its own instance, stop with NeedsInput, halt, or output. -/
theorem exec_next {ins : Instr} (hr : Running s i m x) (h : exec ins s = .next t) :
    (∃ k, t = s.takeFault i k)
      ∨ (∃ y, t = s.setInst i y ∧ Advanced x y)
      ∨ (m.needsInput = true ∧ t = s.stop i .needsInput)
      ∨ t = (s.setInst i { x with halted := true }).stop i .halted
      ∨ ∃ n v q, s.outQueue i = some q ∧ holds s.cfg (q.length + 1) = true ∧ t = outState s i m x n v q := by
  have three : ∀ {r : Config → Word → Word → Except FaultKind Word} {p1 p2 p3}, store3 r p1 p2 p3 s = .next t →
      (∃ k, t = s.takeFault i k) ∨ (∃ y, t = s.setInst i y ∧ Advanced x y) := by
    intro r p1 p2 p3 h
    rcases store3_next hr h with ⟨k, _, ht⟩ | ⟨ea, v, n, _, ht⟩
    · exact .inl ⟨k, ht⟩
    · exact .inr ⟨_, ht, rfl, rfl, rfl, rfl, rfl, .inl rfl⟩
  have jmp : ∀ {taken p1 p2}, jump taken p1 p2 s = .next t →
      (∃ k, t = s.takeFault i k) ∨ (∃ y, t = s.setInst i y ∧ Advanced x y) := by
    intro taken p1 p2 h
    rcases jump_next hr h with ⟨k, _, ht⟩ | ⟨n, _, ht⟩
    · exact .inl ⟨k, ht⟩
    · exact .inr ⟨_, ht, rfl, rfl, rfl, rfl, rfl, .inl rfl⟩
  cases ins with
  | add => exact (three h).imp id .inl
  | mul => exact (three h).imp id .inl
  | lt => exact (three h).imp id .inl
  | eq => exact (three h).imp id .inl
  | jt => exact (jmp h).imp id .inl
  | jf => exact (jmp h).imp id .inl
  | inp p1 =>
    rcases execInp_next hr h with ⟨k, _, ht⟩ | ⟨ea, n, _, ⟨_, hm, ht⟩ | ⟨_, _, ht⟩ | ⟨v, q, hq, ht⟩⟩
    · exact .inl ⟨k, ht⟩
    · exact .inr (.inr (.inl ⟨hm, ht⟩))
    · exact .inl ⟨_, ht⟩
    · exact .inr (.inl ⟨_, ht, rfl, rfl, rfl, rfl, rfl, .inr ⟨v, hq⟩⟩)
  | out p1 =>
    rcases execOut_next hr h with ⟨k, _, ht⟩ | ⟨v, n, q, _, hq, ⟨hh, ht⟩ | ⟨_, ht⟩⟩
    · exact .inl ⟨k, ht⟩
    · exact .inr (.inr (.inr (.inr ⟨n, v, q, hq, hh, ht⟩)))
    · exact .inl ⟨_, ht⟩
  | arb p1 =>
    rcases execArb_next hr h with ⟨k, _, ht⟩ | ⟨r, n, _, ht⟩
    · exact .inl ⟨k, ht⟩
    · exact .inr (.inl ⟨_, ht, rfl, rfl, rfl, rfl, rfl, .inl rfl⟩)
  | halt => exact .inr (.inr (.inr (.inl (by simpa [exec, execHalt_eq hr, eq_comm] using h))))

end Sys2Proof.Machine
end

