-- ==== Sys2Proof/Laws/Fetch.lean ====
section
/-! SUPPORT. What fetch can answer, and the step of a running instance (spec/40_datapath.md R86 to R88, R97). -/

namespace Sys2Proof.Machine

variable {c : Config} {x : Inst} {s t : State} {i : Nat} {m : Mask} {f : FaultKind}

theorem paramCell_ok {k : Nat} {v : Word} :
    paramCell c x k = .ok v ↔ representable c (x.ip + k) = true ∧ memRead c x (x.ip + k) = .ok v := by
  unfold paramCell
  rw [bind_ok]
  constructor
  · rintro ⟨a, ha, h⟩
    obtain ⟨rfl, hr⟩ := checkValue_ok.mp ha
    exact ⟨hr, h⟩
  · rintro ⟨hr, h⟩
    exact ⟨_, checkValue_ok.mpr ⟨rfl, hr⟩, h⟩

theorem paramCell_error {k : Nat} :
    paramCell c x k = .error f ↔
      (f = .valueOutOfRange ∧ representable c (x.ip + k) = false)
        ∨ (representable c (x.ip + k) = true ∧ memRead c x (x.ip + k) = .error f) := by
  unfold paramCell
  rw [bind_error, checkValue_error]
  constructor
  · rintro (h | ⟨a, ha, h⟩)
    · exact .inl h
    · obtain ⟨rfl, hr⟩ := checkValue_ok.mp ha
      exact .inr ⟨hr, h⟩
  · rintro (h | ⟨hr, h⟩)
    · exact .inl h
    · exact .inr ⟨_, checkValue_ok.mpr ⟨rfl, hr⟩, h⟩

theorem paramCellOf_absent {n k : Nat} (h : n < k) : paramCellOf c x n k = .ok 0 := by
  simp [paramCellOf, not_le.mpr h]

theorem paramCellOf_present {n k : Nat} (h : k ≤ n) : paramCellOf c x n k = paramCell c x k := by
  simp [paramCellOf, h]

/-- R86 to R88: what a fetched instruction is. -/
theorem fetch_ok {ins : Instr} :
    fetch c x = .ok ins ↔
      ∃ w h r1 r2 r3, memRead c x x.ip = .ok w ∧ decodeWord w = .ok h
        ∧ paramCellOf c x h.op.params 1 = .ok r1 ∧ paramCellOf c x h.op.params 2 = .ok r2
        ∧ paramCellOf c x h.op.params 3 = .ok r3 ∧ ins = h.instr r1 r2 r3 := by
  unfold fetch
  simp only [bind_ok, Except.ok.injEq]
  constructor
  · rintro ⟨w, h0, h, h1, r1, h2, r2, h3, r3, h4, rfl⟩
    exact ⟨w, h, r1, r2, r3, h0, h1, h2, h3, h4, rfl⟩
  · rintro ⟨w, h, r1, r2, r3, h0, h1, h2, h3, h4, rfl⟩
    exact ⟨w, h0, h, h1, r1, h2, r2, h3, r3, h4, rfl⟩

/-- R79: what is fetched is well formed. -/
theorem fetch_wf {ins : Instr} (h : fetch c x = .ok ins) : ins.wf = true := by
  obtain ⟨w, hd, r1, r2, r3, _, h1, _, _, _, rfl⟩ := fetch_ok.mp h
  simp [Head.instr_wf, (decodeWord_ok.mp h1).2.2.2.2.2.2]

/-- R191 (1), (2): the fetch itself fails. -/
theorem fetch_memRead_error (h : memRead c x x.ip = .error f) : fetch c x = .error f := by
  simp [fetch, h, bind, Except.bind]

/-- R191 (3), (4): the decoder fails. -/
theorem fetch_decode_error {w : Word} (h : memRead c x x.ip = .ok w) (hd : decodeWord w = .error f) :
    fetch c x = .error f := by
  simp [fetch, h, hd, bind, Except.bind]

/-- R191 (5): parameter cell n fails, and every one before it can be read. -/
theorem fetch_cell_error {w : Word} {h : Head} {n : Nat} (hw : memRead c x x.ip = .ok w) (hd : decodeWord w = .ok h)
    (h1 : 1 ≤ n) (hn : n ≤ h.op.params) (hb : ∀ k, 1 ≤ k → k < n → ∃ v, paramCell c x k = .ok v)
    (hf : paramCell c x n = .error f) : fetch c x = .error f := by
  have h3 := h.op.params_le
  have hk : n = 1 ∨ n = 2 ∨ n = 3 := by omega
  rcases hk with rfl | rfl | rfl
  · simp [fetch, hw, hd, paramCellOf_present hn, hf, bind, Except.bind]
  · have p1 : 1 ≤ h.op.params := by omega
    obtain ⟨v, hv⟩ := hb 1 (by omega) (by omega)
    simp [fetch, hw, hd, paramCellOf_present hn, hf, paramCellOf_present p1, hv, bind, Except.bind]
  · have p1 : 1 ≤ h.op.params := by omega
    have p2 : 2 ≤ h.op.params := by omega
    obtain ⟨v, hv⟩ := hb 1 (by omega) (by omega)
    obtain ⟨v', hv'⟩ := hb 2 (by omega) (by omega)
    simp [fetch, hw, hd, paramCellOf_present hn, hf, paramCellOf_present p1, hv, paramCellOf_present p2, hv', bind,
      Except.bind]

/-! ### The step -/

theorem namesUnloaded_iff {c : HostCmd} : s.namesUnloaded c = true ↔ NamesUnloaded s c := by
  unfold NamesUnloaded
  cases c <;> simp [State.namesUnloaded, HostCmd.names, HostCmd.isLoad]

theorem readsRunning_iff {c : HostCmd} : s.readsRunning c = true ↔ ReadsRunning s c := by
  unfold ReadsRunning
  rcases hc : s.ctl with _ | ⟨i, m⟩ | _ | _ <;> cases c <;> simp [State.readsRunning, hc, eq_comm]

theorem refusedAtPort_iff {c : HostCmd} : s.refusedAtPort c = true ↔ MustRefuse s c := by
  simp [State.refusedAtPort, MustRefuse, namesUnloaded_iff, readsRunning_iff]

theorem admitted_iff {c : HostCmd} : admitted c s.ctl s.sched = true ↔ MayPerform s c := by
  unfold MayPerform
  rcases hc : s.ctl with _ | ⟨i, m⟩ | _ | _ <;> cases c <;>
    simp [admitted, admittedWhileRunning, isRead, HostCmd.names, HostCmd.concurrent, HostCmd.Reads]

/-- A step is the block's own, or it takes up the oldest transaction at the ports. -/
theorem portQuiet_or (s : State) :
    (PortQuiet s ∧ step s = stepOwn exec s)
      ∨ ∃ c l, s.atPort = c :: l ∧ (MayPerform s c ∨ MustRefuse s c) ∧ step s = stepPresented c { s with atPort := l } := by
  rcases ha : s.atPort with _ | ⟨c, l⟩
  · refine .inl ⟨fun c l h => ?_, ?_⟩
    · rw [ha] at h; cases h
    · simp [step, stepWith, State.takenUp, ha]
  · by_cases h : MayPerform s c ∨ MustRefuse s c
    · refine .inr ⟨c, l, rfl, h, ?_⟩
      rw [← admitted_iff, ← refusedAtPort_iff] at h
      have : (s.refusedAtPort c || admitted c s.ctl s.sched) = true := by simpa [or_comm] using h
      simp [step, stepWith, State.takenUp, ha, this]
    · have h' := not_or.mp h
      refine .inl ⟨fun c' l' e => ?_, ?_⟩
      · rw [ha] at e; cases e; exact h'
      · rw [← admitted_iff, ← refusedAtPort_iff] at h'
        simp only [Bool.not_eq_true] at h'
        simp [step, stepWith, State.takenUp, ha, h'.1, h'.2]

/-- With nothing at the ports that can be taken up, the step is the block's own. -/
theorem step_own (hq : PortQuiet s) : step s = stepOwn exec s := by
  rcases portQuiet_or s with h | ⟨c, l, ha, h, _⟩
  · exact h.2
  · exact absurd h (not_or.mpr (hq c l ha))

theorem portQuiet_nil (h : s.atPort = []) : PortQuiet s := fun c l e => by rw [h] at e; cases e

theorem step_running (hr : Running s i m x) (hq : PortQuiet s) :
    step s = s.attempt i (fetch s.cfg x) fun ins => exec ins s := by
  simp only [step_own hq, stepOwn, hr.1]
  exact State.onActive_running hr _

theorem step_idle (h : s.ctl = .idle) (hp : s.atPort = []) : step s = stepIdle s := by
  rw [step_own (portQuiet_nil hp), stepOwn, h]

theorem step_stopped {st : Status} (h : s.ctl = .stopped i st) (hq : PortQuiet s) : step s = stepStopped i st s := by
  rw [step_own hq, stepOwn, h]

theorem step_turn (h : s.ctl = .turn) (hq : PortQuiet s) : step s = stepTurn s := by rw [step_own hq, stepOwn, h]

/-- The first fault of R191 (1) to (5) is taken. -/
theorem step_fetch_error (hr : Running s i m x) (hd : PortQuiet s) (h : fetch s.cfg x = .error f) :
    step s = .next (s.takeFault i f) := by
  rw [step_running hr hd, h, State.attempt_error]

theorem step_fetch_ok {ins : Instr} (hr : Running s i m x) (hd : PortQuiet s) (h : fetch s.cfg x = .ok ins) :
    step s = exec ins s := by
  rw [step_running hr hd, h, State.attempt_ok]

/-- R85, R97: what the instruction step of a running instance can be. -/
theorem step_running_next (hr : Running s i m x) (hd : PortQuiet s) (h : step s = .next t) :
    (∃ k, fetch s.cfg x = .error k ∧ t = s.takeFault i k) ∨ ∃ ins, fetch s.cfg x = .ok ins ∧ exec ins s = .next t := by
  rw [step_running hr hd] at h
  exact State.attempt_next h

/-- An instruction step taken while a resume transaction is in its loop was taken by a running instance. -/
theorem running_of_step_next (hc : s.ctl = .running i m) (hd : PortQuiet s) (h : step s = .next t) :
    ∃ x, Running s i m x := by
  simp only [step_own hd, stepOwn, hc] at h
  obtain ⟨i', m', x, hr, _⟩ := State.onActive_next h
  have := hr.1
  rw [hc] at this
  cases this
  exact ⟨x, hr⟩

end Sys2Proof.Machine
end

