-- ==== Sys2Proof/Laws/PerInstr.lean ====
section
/-! SUPPORT. Statements made of every instruction kind, one lemma per constructor of Instr. -/

namespace Sys2Proof.Laws.EncodedLength

/-- R70, R71, R81: an instruction's cells are as many as its kind has, one for the word and one for each parameter, and
the word names the kind. -/
def Statement (i : Instr) : Prop := (encode i).length = i.op.len ∧ i.word % 100 = i.op.number

theorem add (p1 p2 p3 : Param) : Statement (.add p1 p2 p3) := ⟨rfl, Nat.add_mul_mod_self_left 1 100 _⟩
theorem mul (p1 p2 p3 : Param) : Statement (.mul p1 p2 p3) := ⟨rfl, Nat.add_mul_mod_self_left 2 100 _⟩
theorem inp (p1 : Param) : Statement (.inp p1) := ⟨rfl, Nat.add_mul_mod_self_left 3 100 _⟩
theorem out (p1 : Param) : Statement (.out p1) := ⟨rfl, Nat.add_mul_mod_self_left 4 100 _⟩
theorem jt (p1 p2 : Param) : Statement (.jt p1 p2) := ⟨rfl, Nat.add_mul_mod_self_left 5 100 _⟩
theorem jf (p1 p2 : Param) : Statement (.jf p1 p2) := ⟨rfl, Nat.add_mul_mod_self_left 6 100 _⟩
theorem lt (p1 p2 p3 : Param) : Statement (.lt p1 p2 p3) := ⟨rfl, Nat.add_mul_mod_self_left 7 100 _⟩
theorem eq (p1 p2 p3 : Param) : Statement (.eq p1 p2 p3) := ⟨rfl, Nat.add_mul_mod_self_left 8 100 _⟩
theorem arb (p1 : Param) : Statement (.arb p1) := ⟨rfl, Nat.add_mul_mod_self_left 9 100 _⟩
theorem halt : Statement .halt := ⟨rfl, rfl⟩

end Sys2Proof.Laws.EncodedLength
end

