-- ==== Sys2Proof/Laws/Ports.lean ====
section
/-! SUPPORT. What the host's transactions can answer (spec/10_state.md R36 to R42). -/

namespace Sys2Proof.Machine

variable {s t : State} {i : Nat} {x : Inst}

theorem canLoad_iff {c : Config} {prog inbound : List Word} :
    canLoad c prog inbound = true ↔
      (∀ v ∈ prog, representable c v = true) ∧ (∀ v ∈ inbound, representable c v = true)
        ∧ fitsMemory c prog.length = true ∧ holds c inbound.length = true := by
  simp [canLoad, and_assoc]

/-- R37: a LOAD that the port accepts. -/
theorem State.load_eq_some {prog inbound : List Word} :
    s.load i prog inbound = some t ↔
      i < s.insts.length ∧ canLoad s.cfg prog inbound = true ∧ t = s.setInst i (Inst.load prog inbound) := by
  unfold State.load
  split
  · next h => simp [h, eq_comm]
  · next h =>
    simp only [reduceCtorEq, false_iff]
    exact fun e => h ⟨e.1, e.2.1⟩

theorem State.load_eq_none {prog inbound : List Word} (h : ¬ (i < s.insts.length ∧ canLoad s.cfg prog inbound = true)) :
    s.load i prog inbound = none := by
  simp [State.load, h]

/-- R39: a push that the port accepts. -/
theorem State.pushIn_eq_some {v : Word} :
    s.pushIn i v = some t ↔
      ∃ x, s.inst? i = some x ∧ representable s.cfg v = true ∧ holds s.cfg (x.inq.length + 1) = true
        ∧ t = s.setInst i { x with inq := x.inq ++ [v] } := by
  unfold State.pushIn
  rcases hx : s.inst? i with _ | x
  · simp
  · simp only [Option.some.injEq, exists_eq_left']
    split
    · next h => simp [h, eq_comm]
    · next h =>
      simp only [reduceCtorEq, false_iff]
      exact fun e => h ⟨e.1, e.2.1⟩

/-- R40: a pop takes the oldest value of OUTQ(i), if there is one. -/
theorem State.popOut_eq_some {r : Option Word} :
    s.popOut i = some (t, r) ↔
      ∃ q, s.outQueue i = some q ∧ r = q.head?
        ∧ ((q = [] ∧ t = s) ∨ (q ≠ [] ∧ t = s.setOutQueue i q.tail)) := by
  unfold State.popOut
  rcases hq : s.outQueue i with _ | _ | ⟨v, q⟩ <;> simp [eq_comm, and_comm]

theorem State.orRefuse_some {c : HostCmd} {o : Option State} (h : o = some t) : s.orRefuse c o = .next t := by
  simp [State.orRefuse, h]

theorem State.orRefuse_none {c : HostCmd} {o : Option State} (h : o = none) :
    s.orRefuse c o = .next (s.reply (.refused c)) := by
  simp [State.orRefuse, h]

/-- A transaction is performed, or refused with nothing but a reply. -/
theorem State.orRefuse_next {c : HostCmd} {o : Option State} (h : s.orRefuse c o = .next t) :
    o = some t ∨ (o = none ∧ t = s.reply (.refused c)) := by
  unfold State.orRefuse at h
  split at h
  · exact .inl (by simpa using h)
  · exact .inr ⟨rfl, by simpa [eq_comm] using h⟩

/-- A reading transaction adds one reply and changes nothing. -/
theorem State.answer_next {α : Type} {c : HostCmd} {v : Option α} {r : α → Reply} (h : s.answer c v r = .next t) :
    ∃ r, t = s.reply r := by
  rcases State.orRefuse_next h with h | ⟨_, rfl⟩
  · obtain ⟨a, _, rfl⟩ := Option.map_eq_some_iff.mp h
    exact ⟨_, rfl⟩
  · exact ⟨_, rfl⟩

theorem stepIdle_nil (h : s.host = []) : stepIdle s = .next s := by simp [stepIdle, h]

theorem stepIdle_cons {c : HostCmd} {l : List HostCmd} (h : s.host = c :: l) :
    stepIdle s = perform c { s with host := l } := by simp [stepIdle, h]

/-! ### Transactions at the ports -/

/-- The transactions in a state that differs in the host's lists only. -/
theorem MustRefuse.congr {c : HostCmd} (h : t.insts = s.insts) (hc : t.ctl = s.ctl) : MustRefuse t c ↔ MustRefuse s c := by
  simp only [MustRefuse, NamesUnloaded, ReadsRunning, hc, State.inst?_congr h]

/-- R225: what names an instance that was never LOADed is refused, with nothing changed. -/
theorem perform_unloaded {c : HostCmd} (h : NamesUnloaded s c) : perform c s = .next (s.reply (.refused c)) := by
  obtain ⟨i, hn, hi, hl⟩ := h
  cases c <;> simp only [HostCmd.names, Option.some.injEq, reduceCtorEq] at hn
  case load => subst hn; exact absurd rfl (hl _ _)
  all_goals
    subst hn
    simp [perform, State.orRefuse, State.answer, State.beginResume, State.pushIn, State.popOut, State.outQueue,
      State.readStatus, State.readMem, hi]

/-- R36, R42: a transaction at the ports is performed where the block can, and a READ_MEM of the running instance is
refused. -/
theorem stepPresented_performs {c : HostCmd} (h : ¬ MustRefuse s c) : stepPresented c s = perform c s := by
  rw [← refusedAtPort_iff] at h
  simp [stepPresented, h]

theorem stepPresented_refuses {c : HostCmd} (h : MustRefuse s c) :
    stepPresented c s = .next (s.reply (.refused c)) := by
  simp [stepPresented, refusedAtPort_iff.mpr h]

/-- What a step that takes up a transaction at the ports can come to. -/
theorem stepPresented_next {c : HostCmd} (hm : MayPerform s c ∨ MustRefuse s c) (h : stepPresented c s = .next t) :
    (MustRefuse s c ∧ t = s.reply (.refused c)) ∨ (MayPerform s c ∧ perform c s = .next t) := by
  by_cases hr : MustRefuse s c
  · rw [stepPresented_refuses hr] at h
    exact .inl ⟨hr, by simpa [eq_comm] using h⟩
  · rw [stepPresented_performs hr] at h
    exact .inr ⟨hm.resolve_right hr, h⟩

/-- What a transaction performed while another instance runs leaves alone: the transaction in progress, the scheduler, the
instances that exist but for a queue or a LOAD by it, and every wiring but one that the LOAD undoes. -/
def Undisturbed (s t : State) (c : HostCmd) : Prop :=
  t.ctl = s.ctl ∧ t.sched = s.sched ∧ t.cfg = s.cfg ∧ t.insts.length = s.insts.length
    ∧ (∀ j x, s.inst? j = some x → ∃ y, t.inst? j = some y
        ∧ (SameBesidesQueues x y ∨ ∃ p q, c = .load j p q ∧ y = Inst.load p q))
    ∧ ∀ j y, t.inst? j = some y → y.outTo = none ∨ ∃ x, s.inst? j = some x ∧ x.outTo = y.outTo

theorem SameBesidesQueues.refl (x : Inst) : SameBesidesQueues x x := ⟨rfl, rfl, rfl, rfl, rfl, rfl, rfl⟩

theorem Undisturbed.same {c : HostCmd} (h : t.insts = s.insts) (h1 : t.ctl = s.ctl) (h2 : t.sched = s.sched)
    (h3 : t.cfg = s.cfg) : Undisturbed s t c := by
  refine ⟨h1, h2, h3, by rw [h], fun j x hx => ⟨x, ?_, .inl (.refl x)⟩, fun j y hy => .inr ⟨y, ?_, rfl⟩⟩
  · rw [State.inst?_congr h, hx]
  · rw [← State.inst?_congr h, hy]

/-- A change of one instance's queues. -/
theorem Undisturbed.set {c : HostCmd} {y : Inst} (hx : s.inst? i = some x) (h : SameBesidesQueues x y) :
    Undisturbed s (s.setInst i y) c := by
  refine ⟨rfl, rfl, rfl, by simp, fun j z hz => ?_, fun j z hz => ?_⟩ <;>
    rw [State.inst?_setInst (State.inst?_lt hx)] at *
  · split
    · next e => subst e; rw [hx] at hz; cases hz; exact ⟨y, rfl, .inl h⟩
    · exact ⟨z, hz, .inl (.refl z)⟩
  · split at hz
    · next e => subst e; cases hz; exact .inr ⟨x, hx, h.2.2.2.2.2.2.symm⟩
    · exact .inr ⟨z, hz, rfl⟩

/-- R36: what a transaction performed while another instance runs can change. -/
theorem perform_concurrent {c : HostCmd} (hc : c.concurrent s.sched) (h : perform c s = .next t) :
    Undisturbed s t c := by
  have same : ∀ r : Reply, Undisturbed s (s.reply r) c := fun r => .same rfl rfl rfl rfl
  cases c with
  | resume => exact hc.elim
  | start => exact hc.elim
  | readOutq => obtain ⟨r, rfl⟩ := State.answer_next h; exact same r
  | readStatus => obtain ⟨r, rfl⟩ := State.answer_next h; exact same r
  | readMem => obtain ⟨r, rfl⟩ := State.answer_next h; exact same r
  | load i p q =>
    rcases State.orRefuse_next h with h | ⟨_, rfl⟩
    · obtain ⟨u, hu, rfl⟩ := Option.map_eq_some_iff.mp h
      obtain ⟨hi, _, rfl⟩ := State.load_eq_some.mp hu
      refine ⟨rfl, rfl, rfl, by simp, fun j x hx => ?_, fun j y hy => ?_⟩
      · rw [State.inst?_reply, State.inst?_setInst hi]
        split
        · next e => subst e; exact ⟨_, rfl, .inr ⟨p, q, rfl, rfl⟩⟩
        · exact ⟨x, hx, .inl (.refl x)⟩
      · rw [State.inst?_reply, State.inst?_setInst hi] at hy
        split at hy
        · cases hy; exact .inl rfl
        · exact .inr ⟨y, hy, rfl⟩
    · exact same _
  | pushIn i v =>
    rcases State.orRefuse_next h with h | ⟨_, rfl⟩
    · obtain ⟨u, hu, rfl⟩ := Option.map_eq_some_iff.mp h
      obtain ⟨z, hz, _, _, rfl⟩ := State.pushIn_eq_some.mp hu
      exact Undisturbed.set (y := { z with inq := z.inq ++ [v] }) hz ⟨rfl, rfl, rfl, rfl, rfl, rfl, rfl⟩
    · exact same _
  | popOut i =>
    rcases State.orRefuse_next h with h | ⟨_, rfl⟩
    · obtain ⟨⟨u, r⟩, hu, rfl⟩ := Option.map_eq_some_iff.mp h
      obtain ⟨q, hq, _, ⟨_, rfl⟩ | ⟨_, rfl⟩⟩ := State.popOut_eq_some.mp hu
      · exact same _
      · rcases State.outQueue_cases hq with ⟨z, hz, hw, _⟩ | ⟨w, k, z, hw, hk, hz, _⟩
        · rw [State.setOutQueue_own hz hw]
          exact Undisturbed.set (y := { z with outq := q.tail }) hz ⟨rfl, rfl, rfl, rfl, rfl, rfl, rfl⟩
        · rw [State.setOutQueue_wired hw hk hz]
          exact Undisturbed.set (y := { z with inq := q.tail }) hz ⟨rfl, rfl, rfl, rfl, rfl, rfl, rfl⟩
    · exact same _

theorem MayPerform.not_readsRunning {c : HostCmd} (h : MayPerform s c) : ¬ ReadsRunning s c := by
  rintro ⟨i, m, a, hc, rfl⟩
  simp [MayPerform, hc, HostCmd.names] at h

/-- What the block can perform now it performs when it is taken up (a refusal under R225 is the same either way). -/
theorem MayPerform.stepPresented {c : HostCmd} (h : MayPerform s c) : stepPresented c s = perform c s := by
  by_cases hr : MustRefuse s c
  · rw [stepPresented_refuses hr, perform_unloaded (hr.resolve_right h.not_readsRunning)]
  · exact stepPresented_performs hr

/-- Whatever stands at the ports of an idle block is performed. -/
theorem stepPresented_idle {c : HostCmd} (h : s.ctl = .idle) : stepPresented c s = perform c s :=
  MayPerform.stepPresented (by simp [MayPerform, h])

/-- A LOAD is never refused for the instance it names. -/
theorem MustRefuse.not_load {p q : List Word} : ¬ MustRefuse s (.load i p q) := by
  rintro (⟨j, hn, _, h⟩ | ⟨_, _, _, _, h⟩)
  · cases hn; exact h p q rfl
  · cases h

/-- What can be performed while a transaction or a pattern is in progress is concurrent. -/
theorem MayPerform.concurrent {c : HostCmd} (h : MayPerform s c) (hi : s.ctl ≠ .idle) : c.concurrent s.sched := by
  rcases hc : s.ctl with _ | ⟨i, m⟩ | _ | _ <;> simp only [MayPerform, hc] at h
  · exact absurd hc hi
  · exact h.2
  all_goals rcases h with ⟨j, rfl | rfl | ⟨a, rfl⟩⟩ <;> trivial

/-- R36, R222: what a transaction at the ports can change while the block is not idle; it never LOADs the running
instance. -/
theorem stepPresented_keeps {c : HostCmd} (hi : s.ctl ≠ .idle) (hm : MayPerform s c ∨ MustRefuse s c)
    (h : stepPresented c s = .next t) :
    Undisturbed s t c
      ∧ ∀ i m x, s.ctl = .running i m → s.inst? i = some x → ∃ y, t.inst? i = some y ∧ SameBesidesQueues x y := by
  rcases stepPresented_next hm h with ⟨_, rfl⟩ | ⟨hp, h⟩
  · exact ⟨.same rfl rfl rfl rfl, fun _ _ x _ hx => ⟨x, hx, .refl x⟩⟩
  · have hu := perform_concurrent (hp.concurrent hi) h
    refine ⟨hu, fun i m x hc hx => ?_⟩
    obtain ⟨y, hy, e | ⟨p, q, rfl, rfl⟩⟩ := hu.2.2.2.2.1 i x hx
    · exact ⟨y, hy, e⟩
    · simp only [MayPerform, hc] at hp
      exact absurd rfl hp.1

/-- R222: between a pattern's transactions, and before a stop is reported, a transaction that is taken up changes nothing
but the host's lists. -/
theorem stepPresented_between {c : HostCmd} (hi : s.ctl ≠ .idle) (hr : ∀ i m, s.ctl ≠ .running i m)
    (hm : MayPerform s c ∨ MustRefuse s c) (h : stepPresented c s = .next t) : ∃ r, t = s.reply r := by
  rcases stepPresented_next hm h with ⟨_, rfl⟩ | ⟨hp, h⟩
  · exact ⟨_, rfl⟩
  · have hc : c.Reads := by
      rcases hc : s.ctl with _ | ⟨i, m⟩ | _ | _ <;> simp only [MayPerform, hc] at hp
      · exact absurd hc hi
      · exact absurd hc (hr i m)
      all_goals exact hp
    obtain ⟨j, rfl | rfl | ⟨a, rfl⟩⟩ := hc <;> exact State.answer_next h

/-- A transaction at the ports never stops a block that is not idle. -/
theorem stepPresented_proceeds {c : HostCmd} (hi : s.ctl ≠ .idle) (hm : MayPerform s c ∨ MustRefuse s c) :
    ∃ t, stepPresented c s = .next t := by
  by_cases hr : MustRefuse s c
  · exact ⟨_, stepPresented_refuses hr⟩
  · rw [stepPresented_performs hr]
    have hc := (hm.resolve_right hr).concurrent hi
    have A : ∀ c o, ∃ t, s.orRefuse c o = .next t := by
      intro c o; cases o <;> exact ⟨_, rfl⟩
    cases c with
    | resume => exact hc.elim
    | start => exact hc.elim
    | load => exact A _ _
    | pushIn => exact A _ _
    | popOut => exact A _ _
    | readOutq => exact A _ _
    | readStatus => exact A _ _
    | readMem => exact A _ _

/-- A transaction that the next step takes up is performed in it. -/
theorem TakesUp.step {c : HostCmd} {u : State} (h : TakesUp s c u) : step s = perform c u := by
  rcases h with ⟨l, ha, hm, rfl⟩ | ⟨hc, ha, l, hh, rfl⟩
  · rcases portQuiet_or s with ⟨hq, _⟩ | ⟨c', l', ha', _, e⟩
    · exact absurd hm (hq c l ha).1
    · rw [ha] at ha'; cases ha'
      rw [e]
      exact MayPerform.stepPresented (s := { s with atPort := l }) hm
  · rw [step_idle hc ha, stepIdle_cons hh]

/-- The state in which a transaction is taken up differs from the one before in the host's lists only. -/
theorem TakesUp.same {c : HostCmd} {u : State} (h : TakesUp s c u) :
    u.insts = s.insts ∧ u.cfg = s.cfg ∧ u.ctl = s.ctl ∧ u.sched = s.sched ∧ u.replies = s.replies := by
  rcases h with ⟨l, _, _, rfl⟩ | ⟨_, _, l, _, rfl⟩ <;> exact ⟨rfl, rfl, rfl, rfl, rfl⟩

end Sys2Proof.Machine
end

