-- ==== Sys2Proof/Laws/Scheduler.lean ====
section
/-! SUPPORT. What the scheduler's operations can answer (spec/60_exceptions.md R200 to R215). -/

namespace Sys2Proof.Machine

variable {s t u : State} {i : Nat}

theorem orFault_next {α : Type} {e : Except Fault α} {k : α → Result} (h : orFault e k = .next t) :
    ∃ a, e = .ok a ∧ k a = .next t := by
  cases e with
  | error f => simp [orFault] at h
  | ok a => exact ⟨a, rfl, h⟩

/-- R209, R211, R213: the scheduler's append. -/
theorem State.append_ok {v : Word} :
    s.append i v = .ok t ↔
      ∃ x, s.inst? i = some x ∧ holds s.cfg (x.inq.length + 1) = true
        ∧ t = s.setInst i { x with inq := x.inq ++ [v] } := by
  unfold State.append
  rcases hx : s.inst? i with _ | x
  · simp
  · simp only [Option.some.injEq, exists_eq_left']
    split
    · next h => simp [h, eq_comm]
    · next h => simp [h]

theorem State.append2_ok {a b : Word} :
    s.append2 i a b = .ok t ↔
      ∃ x, s.inst? i = some x ∧ holds s.cfg (x.inq.length + 2) = true
        ∧ t = s.setInst i { x with inq := x.inq ++ [a, b] } := by
  have e : s.append2 i a b = (s.append i a).bind fun u => u.append i b := rfl
  rw [e]
  constructor
  · intro h
    rcases h1 : s.append i a with f | u
    · simp [h1, Except.bind] at h
    · rw [h1] at h
      obtain ⟨x, hx, _, rfl⟩ := State.append_ok.mp h1
      obtain ⟨y, hy, h2, rfl⟩ := State.append_ok.mp h
      rw [State.inst?_setInst_self (State.inst?_lt hx)] at hy
      cases hy
      exact ⟨x, hx, by simpa using h2, by simp [State.setInst]⟩
  · rintro ⟨x, hx, hh, rfl⟩
    rw [State.append_ok.mpr ⟨x, hx, holds_mono hh (by omega), rfl⟩]
    exact State.append_ok.mpr ⟨_, State.inst?_setInst_self (State.inst?_lt hx), by simpa using hh, by simp [State.setInst]⟩

/-- With a queue of unbounded depth the scheduler's append succeeds. -/
theorem holds_unbounded {c : Config} (h : c.queueDepth = none) (n : Nat) : holds c n = true := by simp [holds, h]

theorem State.issueTurn_next {m : Mask} (h : s.issueTurn i m = .next t) : s.beginResume i m = some t := by
  unfold State.issueTurn at h
  split at h
  · next h' => rw [h', Host.Outcome.next.inj h]
  · simp at h

theorem State.issueTurn_eq {m : Mask} (h : s.beginResume i m = some t) : s.issueTurn i m = .next t := by
  simp [State.issueTurn, h]

/-! ### Linear pipeline -/

/-- R202: the pipeline LOADs the stage, and its RESUME is due; or it begins that RESUME. -/
theorem pipelineTurn_next {p : Pipeline} (h : pipelineTurn p s = .next t) :
    (p.loaded = true ∧ s.beginResume p.next Mask.none = some t)
      ∨ ∃ ph, p.loaded = false ∧ p.phases[p.next]? = some ph ∧ p.next < s.insts.length
          ∧ canLoad s.cfg p.prog [ph, p.signal] = true
          ∧ t = (s.setInst p.next (Inst.load p.prog [ph, p.signal])).nextTurn (.pipeline { p with loaded := true }) := by
  unfold pipelineTurn at h
  split at h
  · next hl => exact .inl ⟨hl, State.issueTurn_next h⟩
  · next hl =>
    unfold pipelineLoad at h
    split at h
    · simp at h
    · next ph hp =>
      split at h
      · simp at h
      · next u hu =>
        obtain ⟨h1, h2, rfl⟩ := State.load_eq_some.mp hu
        exact .inr ⟨ph, by simpa using hl, hp, h1, h2, (Host.Outcome.next.inj h).symm⟩

/-- R202, R203, R215: after a stage, the next turn or the end. -/
theorem pipelineStop_next {p : Pipeline} {st : Status} (h : pipelineStop p i st s = .next t) :
    (∃ e, t = s.finish e) ∨ ∃ v, st = .halted ∧ s.outQueue i = some [v] ∧ i + 1 < p.phases.length
      ∧ t = s.nextTurn (.pipeline { p with next := i + 1, signal := v, loaded := false }) := by
  unfold pipelineStop at h
  split at h
  · exact .inl ⟨_, (Host.Outcome.next.inj h).symm⟩
  · split at h
    · next v hq =>
      split at h
      · next hl => exact .inr ⟨v, rfl, hq, hl, (Host.Outcome.next.inj h).symm⟩
      · exact .inl ⟨_, (Host.Outcome.next.inj h).symm⟩
    · exact .inl ⟨_, (Host.Outcome.next.inj h).symm⟩
  · simp at h
  · simp at h

/-! ### Feedback ring -/

/-- R206: after a ring's turn, the end or the next instance's turn. -/
theorem ringAfterTurn_next {r : Ring} (h : ringAfterTurn r i s = .next t) :
    (∃ e, t = s.finish e) ∨ t = s.nextTurn (.ring { r with next := (i + 1) % s.insts.length }) := by
  unfold ringAfterTurn at h
  split at h
  · split at h <;> exact .inl ⟨_, (Host.Outcome.next.inj h).symm⟩
  · exact .inr (Host.Outcome.next.inj h).symm

/-- R205, R206, R215. -/
theorem ringStop_next {r : Ring} {st : Status} (h : ringStop r i st s = .next t) :
    (∃ e, t = s.finish e) ∨ ∃ l, t = s.nextTurn (.ring { next := (i + 1) % s.insts.length, last := l }) := by
  unfold ringStop at h
  split at h
  · exact .inl ⟨_, (Host.Outcome.next.inj h).symm⟩
  · exact (ringAfterTurn_next h).imp id fun e => ⟨_, e⟩
  · split at h <;> exact (ringAfterTurn_next h).imp id fun e => ⟨_, e⟩
  · simp at h

/-! ### Star network -/

/-- R212 to R214: the end of a turn: the next turn of the round; or a new round; or, when the network is idle, the end,
or the held packet's injection and then the end or a new round. -/
theorem starEndTurn_next {n : Star} (h : starEndTurn n i s = .next t) :
    (i + 1 < s.insts.length ∧ t = s.nextTurn (.star { n with next := i + 1, supplied := false }))
      ∨ t = s.nextTurn (.star { n with next := 0, roundOut := false, supplied := false })
      ∨ (n.held = none ∧ t = s.finish .networkDeadlock)
      ∨ ∃ x y u, n.held = some (x, y) ∧ s.append2 0 x y = .ok u ∧ (t = u.finish (.packet x y)
          ∨ t = u.nextTurn (.star { n with
                  next := 0, roundOut := false, supplied := false, lastInj := some (x, y) })) := by
  unfold starEndTurn at h
  split at h
  · next hl => exact .inl ⟨hl, (Host.Outcome.next.inj h).symm⟩
  · split at h
    · unfold starInject at h
      split at h
      · next hh => exact .inr (.inr (.inl ⟨hh, (Host.Outcome.next.inj h).symm⟩))
      · next x y hh =>
        obtain ⟨u, hu, hk⟩ := orFault_next h
        refine .inr (.inr (.inr ⟨x, y, u, hh, hu, ?_⟩))
        split at hk
        · exact .inl (Host.Outcome.next.inj hk).symm
        · exact .inr (Host.Outcome.next.inj hk).symm
    · exact .inr (.inl (Host.Outcome.next.inj h).symm)

/-- R209, R210: the value collected joins its triple; the third one's packet is routed to an instance or held; then the
turn ends. -/
theorem starCollect_next {n : Star} {v : Word} (h : starCollect n i v s = .next t) :
    (∃ d x y u, n.part.getD i [] ++ [v] = [d, x, y] ∧ 0 ≤ d ∧ d < s.insts.length ∧ s.append2 d.toNat x y = .ok u
        ∧ starEndTurn { n with roundOut := true, part := n.part.set i [] } i u = .next t)
      ∨ (∃ d x y, n.part.getD i [] ++ [v] = [d, x, y] ∧ ¬ (0 ≤ d ∧ d < s.insts.length)
        ∧ starEndTurn { n with roundOut := true, part := n.part.set i [], held := some (x, y) } i s = .next t)
      ∨ starEndTurn { n with roundOut := true, part := n.part.set i (n.part.getD i [] ++ [v]) } i s = .next t := by
  unfold starCollect at h
  simp only at h
  split at h
  · next d x y hq =>
    split at h
    · next hd =>
      obtain ⟨u, hu, hk⟩ := orFault_next h
      exact .inl ⟨d, x, y, u, hq, hd.1, hd.2, hu, hk⟩
    · next hd => exact .inr (.inl ⟨d, x, y, hq, hd, h⟩)
  · exact .inr (.inr h)

/-- R211: after a NeedsInput stop: the turn ends, or a value is supplied and one more RESUME of the instance is due. -/
theorem starEmptyRead_next {n : Star} (h : starEmptyRead n i s = .next t) :
    starEndTurn n i s = .next t
      ∨ ∃ v u, s.cfg.natEmptyRead = .supply v ∧ n.supplied = false ∧ s.append i v = .ok u
        ∧ t = u.nextTurn (.star { n with next := i, supplied := true }) := by
  unfold starEmptyRead at h
  split at h
  · exact .inl h
  · next hs =>
    split at h
    · exact .inl h
    · next v hv =>
      obtain ⟨u, hu, hk⟩ := orFault_next h
      exact .inr ⟨v, u, hv, by simpa using hs, hu, (Host.Outcome.next.inj hk).symm⟩

/-- R208, R209, R211, R215: what can follow a stop of an instance of a star network. -/
theorem starStop_next {n : Star} {st : Status} (h : starStop n i st s = .next t) :
    (∃ k, st = .fault k ∧ t = s.finish (.networkFault i k))
      ∨ (st = .halted ∧ starEndTurn n i s = .next t)
      ∨ (st = .hasOutput ∧ ∃ u v, s.popOut i = some (u, some v) ∧ starCollect n i v u = .next t)
      ∨ (st = .needsInput ∧ starEmptyRead n i s = .next t) := by
  unfold starStop at h
  split at h
  · exact .inl ⟨_, rfl, (Host.Outcome.next.inj h).symm⟩
  · exact .inr (.inl ⟨rfl, h⟩)
  · split at h
    · next u v hp => exact .inr (.inr (.inl ⟨rfl, u, v, hp, h⟩))
    · simp at h
  · exact .inr (.inr (.inr ⟨rfl, h⟩))

/-! ### Boot -/

/-- R201, R202. -/
theorem startPipeline_eq_some {prog phases : List Word} :
    startPipeline prog phases s = some t ↔
      0 < s.insts.length ∧ phases.length = s.insts.length
        ∧ (∀ ph ∈ phases, canLoad s.cfg prog [ph, s.cfg.pipelineInput] = true)
        ∧ t = s.nextTurn (.pipeline
            { prog := prog, phases := phases, next := 0, signal := s.cfg.pipelineInput, loaded := false }) := by
  unfold startPipeline
  split
  · next h =>
    simp only [List.all_eq_true] at h
    exact ⟨fun e => ⟨h.1, h.2.1, h.2.2, (Option.some.inj e).symm⟩, fun e => by rw [e.2.2.2]⟩
  · next h =>
    simp only [List.all_eq_true] at h
    simp only [reduceCtorEq, false_iff]
    exact fun e => h ⟨e.1, e.2.1, e.2.2.1⟩

theorem ringInsts_length {prog phases : List Word} {n i : Nat} : (ringInsts prog n i phases).length = phases.length := by
  induction phases generalizing i with
  | nil => rfl
  | cons ph phs ih => simp [ringInsts, ih]

/-- R204: what the boot of a ring makes of instance j. -/
theorem ringInsts_get {prog phases : List Word} {n i j : Nat} {o : Option Inst}
    (h : (ringInsts prog n i phases)[j]? = some o) :
    ∃ ph, phases[j]? = some ph ∧ o = some { Inst.load prog [ph] with outTo := some ((i + j + 1) % n) } := by
  induction phases generalizing i j with
  | nil => simp [ringInsts] at h
  | cons ph phs ih =>
    cases j with
    | zero => exact ⟨ph, rfl, by simpa [ringInsts, eq_comm] using h⟩
    | succ j =>
      obtain ⟨ph', h1, h2⟩ := ih (by simpa [ringInsts] using h)
      exact ⟨ph', by simpa using h1, by rw [h2, show i + 1 + j = i + (j + 1) by omega]⟩

/-- R204, R230. -/
theorem startRing_eq_some {prog phases : List Word} {e : Except Fault State} (h : startRing prog phases s = some e) :
    0 < s.insts.length ∧ phases.length = s.insts.length ∧ (∀ ph ∈ phases, canLoad s.cfg prog [ph] = true)
      ∧ representable s.cfg s.cfg.ringInput = true
      ∧ e = ({ s with insts := ringInsts prog phases.length 0 phases }.nextTurn (.ring { next := 0, last := none })).append
          0 s.cfg.ringInput := by
  unfold startRing at h
  split at h
  · next hc =>
    simp only [List.all_eq_true] at hc
    exact ⟨hc.1, hc.2.1, hc.2.2.1, hc.2.2.2, (Option.some.inj h).symm⟩
  · simp at h

theorem natSeeds_length {c : Config} {n : Nat} : (natSeeds c n).length = n := by
  unfold natSeeds
  split <;> simp

/-- R207. -/
theorem startStar_eq_some {prog : List Word} (h : startStar prog s = some t) :
    0 < s.insts.length ∧ (∀ q ∈ natSeeds s.cfg s.insts.length, canLoad s.cfg prog q = true) ∧ supplyOk s.cfg = true
      ∧ t = { s with insts := (natSeeds s.cfg s.insts.length).map fun q => some (Inst.load prog q) }.nextTurn
          (.star { next := 0, part := List.replicate s.insts.length [], held := none, lastInj := none,
                   roundOut := false, supplied := false }) := by
  unfold startStar at h
  simp only at h
  split at h
  · next hc =>
    simp only [List.all_eq_true] at hc
    exact ⟨hc.1, hc.2.1, hc.2.2, (Option.some.inj h).symm⟩
  · simp at h

end Sys2Proof.Machine
end

