-- ==== Sys2Proof/Laws/Safety.lean ====
section
/-! SUPPORT. The invariants of Sys2Proof/Safety.lean in terms of `inst?`. -/

namespace Sys2Proof.Machine

variable {s : State} {c : Config} {x : Inst}

/-- A check of every instance that exists. -/
theorem all_insts_iff {g : Option Inst → Bool} (hn : g none = true) :
    s.insts.all g = true ↔ ∀ i x, s.inst? i = some x → g (some x) = true := by
  rw [List.all_eq_true]
  constructor
  · intro h i x hx
    exact h (some x) (List.mem_of_getElem? (State.inst?_eq_some.mp hx))
  · intro h o ho
    cases o with
    | none => exact hn
    | some x =>
      obtain ⟨i, hi⟩ := List.mem_iff_getElem?.mp ho
      exact h i x (State.inst?_eq_some.mpr hi)

/-- Every index below N_INSTANCES is an instance's. -/
theorem allLoaded_iff : allLoaded s = true ↔ ∀ i, i < s.insts.length → ∃ x, s.inst? i = some x := by
  unfold allLoaded
  rw [List.all_eq_true]
  constructor
  · intro h i hi
    obtain ⟨x, hx⟩ := Option.isSome_iff_exists.mp (h _ (List.getElem_mem hi))
    exact ⟨x, State.inst?_eq_some.mpr (by rw [List.getElem?_eq_getElem hi, hx])⟩
  · intro h o ho
    obtain ⟨i, hi⟩ := List.mem_iff_getElem?.mp ho
    obtain ⟨x, hx⟩ := h i (List.getElem?_eq_some_iff.mp hi).1
    rw [State.inst?_eq_some.mp hx] at hi
    cases hi
    rfl

/-- R206. -/
theorem allHalted_iff :
    allHalted s = true ↔ ∀ i, i < s.insts.length → ∃ x, s.inst? i = some x ∧ x.halted = true := by
  unfold allHalted
  rw [List.all_eq_true]
  constructor
  · intro h i hi
    have := h _ (List.getElem_mem hi)
    rcases ho : s.insts[i] with _ | x
    · rw [ho] at this; simp at this
    · rw [ho] at this
      exact ⟨x, State.inst?_eq_some.mpr (by rw [List.getElem?_eq_getElem hi, ho]), this⟩
  · intro h o ho
    obtain ⟨i, hi⟩ := List.mem_iff_getElem?.mp ho
    obtain ⟨x, hx, hh⟩ := h i (List.getElem?_eq_some_iff.mp hi).1
    rw [State.inst?_eq_some.mp hx] at hi
    cases hi
    exact hh

/-- R7 to R9, R27, R30. -/
theorem Inst.ok_iff :
    Inst.ok c x = true ↔
      Mem.wf x.mem = true ∧ (∀ e ∈ x.mem, inLimit c e.1 = true ∧ representable c e.2 = true)
        ∧ representable c x.ip = true ∧ representable c x.rb = true ∧ representable c x.faultIp = true
        ∧ (∀ v ∈ x.inq, representable c v = true) ∧ (∀ v ∈ x.outq, representable c v = true)
        ∧ holds c x.inq.length = true ∧ holds c x.outq.length = true ∧ (x.halted = true → x.fault = none) := by
  unfold Inst.ok
  have h : ((!x.halted || x.fault.isNone) = true) ↔ (x.halted = true → x.fault = none) := by
    cases x.halted <;> simp
  simp only [Bool.and_eq_true, List.all_eq_true, h, and_assoc]

theorem State.dataOk_iff :
    s.dataOk = true ↔
      s.cfg.legal = true ∧ 1 ≤ s.insts.length ∧ Sched.ok s.cfg s.sched = true ∧ ∀ i x, s.inst? i = some x → Inst.ok s.cfg x = true := by
  unfold State.dataOk legalInstances
  rw [Bool.and_eq_true, Bool.and_eq_true, Bool.and_eq_true, all_insts_iff rfl, and_assoc, and_assoc, decide_eq_true_iff]

/-- R31. -/
theorem wiringOk_iff :
    wiringOk s = true ↔ ∀ i x j, s.inst? i = some x → x.outTo = some j → ∃ y, s.inst? j = some y := by
  unfold wiringOk
  rw [all_insts_iff rfl]
  constructor
  · intro h i x j hx hj
    have := h i x hx
    simp only [hj] at this
    exact Option.isSome_iff_exists.mp this
  · intro h i x hx
    rcases hj : x.outTo with _ | j <;> simp only [hj]
    exact Option.isSome_iff_exists.mpr (h i x j hx hj)

theorem Sched.ok_star {t : Star} :
    Sched.ok c (.star t) = true ↔
      (∀ q ∈ t.part, ∀ v ∈ q, representable c v = true) ∧ supplyOk c = true
        ∧ ∀ x y, t.held = some (x, y) → representable c x = true ∧ representable c y = true := by
  unfold Sched.ok
  rcases h : t.held with _ | ⟨x, y⟩ <;> simp [h, and_assoc]

theorem schedOk_off (h : s.sched = .off) : schedOk s = true := by
  simp [schedOk, h]

/-- R201, R202. -/
theorem schedOk_pipeline {p : Pipeline} (h : s.sched = .pipeline p) :
    schedOk s = true ↔
      p.phases.length = s.insts.length ∧ p.next < s.insts.length
        ∧ (∀ ph ∈ p.phases, canLoad s.cfg p.prog [ph, p.signal] = true)
        ∧ (p.loaded = true → ∃ x, s.inst? p.next = some x) := by
  unfold schedOk
  rw [h]
  have e : ((!p.loaded || (s.inst? p.next).isSome) = true) ↔ (p.loaded = true → ∃ x, s.inst? p.next = some x) := by
    cases p.loaded <;> simp [Option.isSome_iff_exists]
  simp only [Bool.and_eq_true, decide_eq_true_eq, List.all_eq_true, and_assoc, e]

/-- R204 to R206. -/
theorem schedOk_ring {r : Ring} (h : s.sched = .ring r) :
    schedOk s = true ↔ allLoaded s = true ∧ r.next < s.insts.length := by
  unfold schedOk
  rw [h]
  simp only [Bool.and_eq_true, decide_eq_true_eq]

/-- R207, R208. -/
theorem schedOk_star {t : Star} (h : s.sched = .star t) :
    schedOk s = true ↔ allLoaded s = true ∧ t.next < s.insts.length ∧ t.part.length = s.insts.length := by
  unfold schedOk
  rw [h]
  simp only [Bool.and_eq_true, decide_eq_true_eq, and_assoc]

/-- R196, R197, R200: the control. -/
theorem State.ctlOk_iff :
    s.ctlOk = true ↔
      wiringOk s = true ∧ schedOk s = true ∧
        (match s.ctl with
          | .idle         => decide (s.sched = .off)
          | .running i m  =>
            (match s.inst? i with
              | some x => x.ready
              | none   => false) && turnOk s.sched i m
          | .stopped i st => (s.inst? i).isSome && stopOk s i st
          | .turn         => decide (s.sched ≠ .off)) = true := by
  have and3 : ∀ a b c : Bool, (a && b && c) = true ↔ a = true ∧ b = true ∧ c = true := by decide
  exact and3 _ _ _

end Sys2Proof.Machine
end

