-- ==== Sys2Proof/Tests/Slice0.lean ====
section
/-! SUPPORT. Tests: the well-formedness checks, words written out from the spec's encodings, one step of every
instruction with a result from spec/95_test_vectors.md or computed by hand from the rule named, the fault order, the
ports and the scheduler; then a witness for the hypotheses of every statement that has some. -/

namespace Sys2Proof.Tests

open Sys2Proof Sys2Proof.Machine

/-! ### Small states -/

/-- A one-instance block whose instance runs under the mask. -/
def one (x : Inst) (m : Mask) : State where
  cfg     := Config.default
  insts   := [some x]
  ctl     := .running 0 m
  sched   := .off
  host    := []
  atPort  := []
  replies := []

/-- The instance right after LOAD of a program, with inbound values. -/
def ld (prog inq : List Word) : Inst := Inst.load prog inq

/-- The full mask. -/
def both : Mask := { needsInput := true, hasOutput := true }

/-- Finite parameters at the smallest sizes used here. -/
def small : Config := { Config.default with wordBits := some 64, memLimit := some 8, queueDepth := some 2 }

/-- The block's only instance after one step. -/
def stepped (x : Inst) (m : Mask) : Option Inst :=
  match step (one x m) with
  | .next t    => t.inst? 0
  | .fault _   => none
  | .refused _ => none

/-- The control after one step. -/
def ctlAfter (s : State) : Option Control :=
  match step s with
  | .next t    => some t.ctl
  | .fault _   => none
  | .refused _ => none

/-- The state after one step. -/
def after (s : State) : Option State :=
  match step s with
  | .next t    => some t
  | .fault _   => none
  | .refused _ => none

/-- What the decoder answers for a word. -/
def headOf (w : Word) : Option (Op × List Mode) :=
  match decodeWord w with
  | .ok h    => some (h.op, [h.m1, h.m2, h.m3].take h.op.params)
  | .error _ => none

/-- The decoder's fault for a word. -/
def faultOf (w : Word) : Option FaultKind :=
  match decodeWord w with
  | .ok _    => none
  | .error k => some k

/-- A block between transactions, with these host transactions pending. -/
def port (insts : List (Option Inst)) (h : List HostCmd) : State where
  cfg     := Config.default
  insts   := insts
  ctl     := .idle
  sched   := .off
  host    := h
  atPort  := []
  replies := []

/-- A block in the middle of a pattern. -/
def pat (insts : List (Option Inst)) (c : Control) (d : Sched) : State where
  cfg     := Config.default
  insts   := insts
  ctl     := c
  sched   := d
  host    := []
  atPort  := []
  replies := []

/-! ### Well-formedness (R79, R7, R9): each check refuses an ill-formed term -/

theorem test_wf_add : Instr.wf (.add ⟨.immediate, 1⟩ ⟨.immediate, 2⟩ ⟨.immediate, 3⟩) = false := by decide
theorem test_wf_mul : Instr.wf (.mul ⟨.position, 1⟩ ⟨.position, 2⟩ ⟨.immediate, 3⟩) = false := by decide
theorem test_wf_inp : Instr.wf (.inp ⟨.immediate, 3⟩) = false := by decide
theorem test_wf_lt : Instr.wf (.lt ⟨.relative, 1⟩ ⟨.immediate, 2⟩ ⟨.immediate, 3⟩) = false := by decide
theorem test_wf_eq : Instr.wf (.eq ⟨.relative, 1⟩ ⟨.immediate, 2⟩ ⟨.immediate, 3⟩) = false := by decide
theorem test_wf_reads_any_mode :
    Instr.wf (.out ⟨.immediate, 3⟩) = true ∧ Instr.wf (.add ⟨.immediate, 1⟩ ⟨.relative, -2⟩ ⟨.relative, -3⟩) = true := by
  decide
theorem test_legal_word_bits :
    Config.legal { Config.default with wordBits := some 63 } = false
      ∧ Config.legal { Config.default with wordBits := some 64 } = true := by decide
theorem test_legal_queue_depth :
    Config.legal { Config.default with queueDepth := some 0 } = false
      ∧ Config.legal { Config.default with queueDepth := some 1 } = true := by decide

/-! ### Decoding: words of spec/95 V1 and of R77's list, digit by digit -/

/-- V1: 22201, 1001. -/
theorem test_decode_add :
    headOf 22201 = some (.add, [.relative, .relative, .relative])
      ∧ headOf 1001 = some (.add, [.position, .immediate, .position]) := by decide
/-- V1: 1002; R77: 102. -/
theorem test_decode_mul :
    headOf 1002 = some (.mul, [.position, .immediate, .position])
      ∧ headOf 102 = some (.mul, [.immediate, .position, .position]) := by decide
/-- V1: 3 and 203. -/
theorem test_decode_inp : headOf 3 = some (.inp, [.position]) ∧ headOf 203 = some (.inp, [.relative]) := by decide
/-- V1: 104; R104: 204. -/
theorem test_decode_out : headOf 104 = some (.out, [.immediate]) ∧ headOf 204 = some (.out, [.relative]) := by decide
/-- V1: 2005, 1105. -/
theorem test_decode_jt :
    headOf 2005 = some (.jt, [.position, .relative]) ∧ headOf 1105 = some (.jt, [.immediate, .immediate]) := by decide
/-- W8: 1006. -/
theorem test_decode_jf : headOf 1006 = some (.jf, [.position, .immediate]) := by decide
/-- V1: 21107. -/
theorem test_decode_lt : headOf 21107 = some (.lt, [.immediate, .immediate, .relative]) := by decide
/-- V1: 1108. -/
theorem test_decode_eq : headOf 1108 = some (.eq, [.immediate, .immediate, .position]) := by decide
/-- V1: 109, 209. -/
theorem test_decode_arb : headOf 109 = some (.arb, [.immediate]) ∧ headOf 209 = some (.arb, [.relative]) := by decide
/-- V1: 99. -/
theorem test_decode_halt : headOf 99 = some (.halt, []) := by decide

/-- V1: 0, 98, 100, -1 are UnknownOpcode. -/
theorem test_decode_unknown :
    faultOf 0 = some .unknownOpcode ∧ faultOf 98 = some .unknownOpcode ∧ faultOf 100 = some .unknownOpcode
      ∧ faultOf (-1) = some .unknownOpcode := by decide
/-- V1: 301, 309, 199, 10005, 122201 are InvalidParameterMode. -/
theorem test_decode_invalid_mode :
    faultOf 301 = some .invalidParameterMode ∧ faultOf 309 = some .invalidParameterMode
      ∧ faultOf 199 = some .invalidParameterMode ∧ faultOf 10005 = some .invalidParameterMode
      ∧ faultOf 122201 = some .invalidParameterMode := by decide
/-- V1: 11101 and 103 are IllegalWriteTarget. -/
theorem test_decode_illegal_write :
    faultOf 11101 = some .illegalWriteTarget ∧ faultOf 103 = some .illegalWriteTarget := by decide

/-- R81, W2 and W8: the encoder's words and parameter cells. -/
theorem test_encode :
    encode (.mul ⟨.immediate, 34915192⟩ ⟨.immediate, 34915192⟩ ⟨.position, 7⟩) = [1102, 34915192, 34915192, 7]
      ∧ encode (.out ⟨.relative, -1⟩) = [204, -1] ∧ encode (.jf ⟨.position, 101⟩ ⟨.immediate, 0⟩) = [1006, 101, 0]
      ∧ encode .halt = [99] := by decide

/-- A list that ends before its last parameter cell is no instruction. -/
theorem test_decode_truncated : decode [1, 0, 0] = .error .truncated ∧ decode [] = .error .noCell := ⟨rfl, rfl⟩

/-- The opcode table's words, parameter cells 0. -/
theorem test_decode_table_word :
    decodeTableWord 7 99 = some .halt ∧ decodeTableWord 7 4 = some (.out ⟨.position, 0⟩)
      ∧ decodeTableWord 16 22201 = some (.add ⟨.relative, 0⟩ ⟨.relative, 0⟩ ⟨.relative, 0⟩)
      ∧ decodeTableWord 7 98 = none := by decide

/-! ### One step of every instruction -/

/-- W9: ADD [9], [10], [3] over 30 and 40 writes 70. -/
theorem test_add_w9 :
    (stepped (ld [1, 9, 10, 3, 2, 3, 11, 0, 99, 30, 40, 50] []) Mask.none).map
      (fun y => (Mem.read y.mem 3, y.ip, Mem.read y.mem 9)) = some (70, 4, 30) := by decide
/-- R100: with WORD_BITS 64 the largest word plus 1 is ValueOutOfRange (R186), and nothing is written. -/
theorem test_add_out_of_range :
    after { one (ld [1101, 9223372036854775807, 1, 0] []) Mask.none with cfg := small }
      = some { one { ld [1101, 9223372036854775807, 1, 0] [] with fault := some .valueOutOfRange } Mask.none with
          cfg := small, ctl := .stopped 0 (.fault .valueOutOfRange) } := by decide
/-- W2: the product is exact. -/
theorem test_mul_w2 :
    (stepped (ld [1102, 34915192, 34915192, 7, 4, 7, 99, 0] []) Mask.none).map
      (fun y => (Mem.read y.mem 7, y.ip)) = some (1219070632396864, 4) := by decide
/-- W5, row 4's first step: IN takes 42 and the queue is empty after it. -/
theorem test_inp_w5 :
    (stepped (ld [3, 5, 4, 5, 99, 0] [42]) both).map (fun y => (Mem.read y.mem 5, y.ip, y.inq)) = some (42, 2, []) := by
  decide
/-- W5, row 1: on an empty queue with NeedsInput in the mask nothing of the instance changes. -/
theorem test_inp_blocks :
    after (one (ld [3, 5, 4, 5, 99, 0] []) both)
      = some { one (ld [3, 5, 4, 5, 99, 0] []) both with ctl := .stopped 0 .needsInput } := by decide
/-- W3: OUT of an immediate; with HasOutput in the mask the transaction stops (R197). -/
theorem test_out_w3 :
    after (one (ld [104, 1125899906842624, 99] []) both)
      = some { one { ld [104, 1125899906842624, 99] [] with ip := 2, outq := [1125899906842624] } both with
          ctl := .stopped 0 .hasOutput } := by decide
/-- R31: an OUTQ wired to the instance's own INQ grows that INQ. -/
theorem test_out_wired_to_itself :
    (stepped { ld [104, 7, 99] [1] with outTo := some 0 } Mask.none).map (fun y => (y.inq, y.outq, y.ip))
      = some ([1, 7], [], 2) := by decide
/-- R107: a negative condition is not 0, so JT jumps. -/
theorem test_jt_negative : (stepped (ld [1105, -1, 6] []) Mask.none).map Inst.ip = some 6 := by decide
/-- R107: the condition 0 does not jump. -/
theorem test_jt_zero : (stepped (ld [1105, 0, 6] []) Mask.none).map Inst.ip = some 3 := by decide
/-- R108: the condition 0 jumps, to the value of p2 (here M[2] = 2). -/
theorem test_jf_zero : (stepped (ld [106, 0, 2] []) Mask.none).map Inst.ip = some 2 := by decide
/-- R108: a non-zero condition advances by 3. -/
theorem test_jf_one : (stepped (ld [1106, 1, 2] []) Mask.none).map Inst.ip = some 3 := by decide
/-- R111: the comparison is signed: -3 < 8. -/
theorem test_lt_signed :
    (stepped (ld [1107, -3, 8, 3] []) Mask.none).map (fun y => (Mem.read y.mem 3, y.ip)) = some (1, 4) := by decide
/-- R111: 8 < 8 is false. -/
theorem test_lt_equal :
    (stepped (ld [1107, 8, 8, 3] []) Mask.none).map (fun y => (Mem.read y.mem 3, y.ip)) = some (0, 4) := by decide
/-- W1a: EQ [9], [10], [9] with M[9] = 8 writes 1. -/
theorem test_eq_w1a :
    (stepped { ld [3, 9, 8, 9, 10, 9, 4, 9, 99, 8, 8] [] with ip := 2 } Mask.none).map
      (fun y => (Mem.read y.mem 9, y.ip)) = some (1, 6) := by decide
/-- R92: ARB [rb+2] reads at the old base (M[12] = 5 with rb 10) and then adds. -/
theorem test_arb_relative :
    (stepped { ld [209, 2, 99, 0, 0, 0, 0, 0, 0, 0, 0, 0, 5] [] with rb := 10 } Mask.none).map
      (fun y => (y.rb, y.ip)) = some (15, 2) := by decide
/-- W1a's last step: HALT sets HALTED, and ip stays on it. -/
theorem test_halt :
    after (one { ld [99] [4] with outq := [1] } Mask.none)
      = some { one { ld [99] [4] with outq := [1], halted := true } Mask.none with ctl := .stopped 0 .halted } := by
  decide

/-! ### Faults -/

/-- R191: the missing address of p1 comes before the illegal one of p2. -/
theorem test_fault_order :
    after { one (ld [1, 9, -1, 0] []) Mask.none with cfg := small }
      = some { one { ld [1, 9, -1, 0] [] with fault := some .memoryLimitExceeded } Mask.none with
          cfg := small, ctl := .stopped 0 (.fault .memoryLimitExceeded) } := by decide
/-- R185: an empty INQ without NeedsInput in the mask; FAULT_IP is the address of the Input. -/
theorem test_fault_underflow :
    (stepped { ld [99, 3, 0] [] with ip := 1 } Mask.none).map (fun y => (y.fault, y.faultIp, y.ip))
      = some (some .channelUnderflow, 1, 1) := by decide
/-- R22, R86: a negative ip faults when it is fetched from. -/
theorem test_fault_negative_fetch :
    (stepped { ld [99] [] with ip := -1 } Mask.none).map (fun y => (y.fault, y.faultIp))
      = some (some .negativeAddress, -1) := by decide
/-- R188: the third value of a queue of depth 2. -/
theorem test_fault_overflow :
    (after { one { ld [104, 3, 99] [] with outq := [1, 2] } both with cfg := small }).map
      (fun t => (t.ctl, (t.inst? 0).map Inst.outq))
      = some (.stopped 0 (.fault .channelOverflow), some [1, 2]) := by decide

/-! ### Memory -/

/-- R50: writing 0 removes the entry; the canonical form is kept. -/
theorem test_mem_canonical :
    Mem.write (Mem.write (Mem.write [] 5 1) 2 7) 5 0 = [(2, 7)] ∧ Mem.ofProgram 0 [3, 0, 9] = [(0, 3), (2, 9)]
      ∧ Mem.wf [(5, 1), (2, 7)] = false ∧ Mem.wf [(2, 0)] = false := by decide

/-! ### The host's transactions -/

/-- R43: LOAD after a fault builds the instance afresh. -/
theorem test_port_load :
    after (port [some { ld [0] [9] with fault := some .unknownOpcode, rb := 4 }] [.load 0 [99, 0, 7] [5]])
      = some { port [some { Inst.reset with mem := [(0, 99), (2, 7)], inq := [5] }] [] with
          replies := [.loaded 0] } := by decide
/-- R192: RESUME of a faulted instance returns the same fault. -/
theorem test_port_resume_faulted :
    ctlAfter (port [some { ld [0] [] with fault := some .unknownOpcode }] [.resume 0 both])
      = some (.stopped 0 (.fault .unknownOpcode)) := by decide
/-- W5, row 3: PUSH_IN appends 42. -/
theorem test_port_push :
    after (port [some (ld [3, 5] [1])] [.pushIn 0 42])
      = some { port [some (ld [3, 5] [1, 42])] [] with replies := [.pushed 0] } := by decide
/-- R40: POP_OUT takes the oldest value, and reports empty. -/
theorem test_port_pop :
    after (port [some { ld [] [] with outq := [3, 4] }] [.popOut 0])
      = some { port [some { ld [] [] with outq := [4] }] [] with replies := [.popped 0 (some 3)] }
      ∧ after (port [some (ld [] [])] [.popOut 0])
      = some { port [some (ld [] [])] [] with replies := [.popped 0 none] } := by decide
/-- R27: RUN_STATE is FAULTED and the code is 4. -/
theorem test_port_status :
    (after (port [some { ld [3, 0] [] with fault := some .channelUnderflow }] [.readStatus 0])).map State.replies
      = some [.status 0 ⟨.faulted, 4, 0, 0, 0, 0, 0⟩] := by decide
/-- R225: before its first LOAD an instance does not exist. -/
theorem test_port_unloaded :
    (after { State.unloaded Config.default 2 with host := [.readMem 1 0] }).map State.replies
      = some [.refused (.readMem 1 0)] := by decide

/-- R42, I25: READ_MEM of the running instance is refused, and the instance goes on; of another one it is performed. -/
theorem test_port_read_running :
    (after { one (ld [99] []) both with atPort := [.readMem 0 0] }).map (fun t => (t.replies, t.ctl))
      = some ([.refused (.readMem 0 0)], .running 0 both)
      ∧ (after { one (ld [99] []) both with insts := [some (ld [99] []), some (ld [7] [])], atPort := [.readMem 1 0] }).map
        (fun t => (t.replies, t.ctl)) = some ([.cell 1 0 7], .running 0 both) := by decide
/-- R36: a PUSH_IN to the running instance waits. -/
theorem test_port_push_running :
    (after { one (ld [99] []) both with atPort := [.pushIn 0 5] }).map (fun t => (t.host, t.atPort, (t.inst? 0).map Inst.inq))
      = some ([], [.pushIn 0 5], some []) := by decide
/-- R222: between a pattern's transactions the host reads the memory of the instance whose turn is next; a push waits. -/
theorem test_port_read_between_turns :
    (after { pat [some (ld [99] [])] .turn (.ring ⟨0, none⟩) with atPort := [.readMem 0 0] }).map
      (fun t => (t.replies, t.ctl, t.atPort)) = some ([.cell 0 0 99], .turn, [])
      ∧ (after { pat [some (ld [99] [])] .turn (.ring ⟨0, none⟩) with atPort := [.pushIn 0 5] }).map
      (fun t => (t.replies, t.ctl, t.atPort)) = some ([], .running 0 ringMask, [.pushIn 0 5]) := by decide
/-- R225: a RESUME and a PUSH_IN that name an instance never LOADed are refused while another runs, in a pattern too. -/
theorem test_port_unloaded_running :
    (after { one (ld [99] []) both with atPort := [.resume 1 both] }).map (fun t => (t.replies, t.ctl, t.atPort))
      = some ([.refused (.resume 1 both)], .running 0 both, [])
      ∧ (after { pat [some (ld [99] []), none] (.running 0 Mask.none) (.pipeline ⟨[99], [3, 4], 0, 7, true⟩) with
          atPort := [.pushIn 1 5] }).map (fun t => (t.replies, t.ctl, t.atPort))
      = some ([.refused (.pushIn 1 5)], .running 0 Mask.none, []) := by decide
/-- R222: after a turn's stop, before the scheduler acts on it, the host reads memory and status. -/
theorem test_port_read_at_stop :
    (after { pat [some (ld [99] [])] (.stopped 0 .needsInput) (.star ⟨0, [[]], none, none, false, false⟩) with
      atPort := [.readMem 0 0] }).map (fun t => (t.replies, t.ctl, t.atPort))
      = some ([.cell 0 0 99], .stopped 0 .needsInput, []) := by decide
/-- R193: the host is told the status of its resume transaction, and then what waited for its end is performed. -/
theorem test_port_stop_reported :
    (after { one (ld [99] []) both with ctl := .stopped 0 .needsInput, atPort := [.pushIn 0 5] }).map
      (fun t => (t.replies, t.ctl, t.atPort)) = some ([.stopped 0 .needsInput], .idle, [.pushIn 0 5])
      ∧ (after { port [some (ld [99] [])] [.resume 0 both] with atPort := [.pushIn 0 5] }).map
      (fun t => (t.replies, t.ctl, t.host)) = some ([.pushed 0], .idle, [.resume 0 both]) := by decide

/-! ### The scheduler -/

/-- W4's set-up: INQ(0) = [9, 0], INQ(1) = [8], and the wiring is a ring. -/
theorem test_ring_boot :
    (after (port [none, none] [.start (.ring [99] [9, 8])])).map
      (fun t => (t.insts.map (fun o => o.map fun x => (x.inq, x.outTo)), t.ctl))
      = some ([some ([9, 0], some 1), some ([8], some 0)], .turn) := by decide
/-- R202: after stage 0's single output 7, stage 1's turn LOADs it with its phase and 7. -/
theorem test_pipeline_load :
    (after (pat [some (ld [99] []), none] .turn (.pipeline ⟨[99], [3, 4], 1, 7, false⟩))).map
      (fun t => ((t.inst? 1).map Inst.inq, t.ctl, t.sched))
      = some (some [4, 7], .turn, .pipeline ⟨[99], [3, 4], 1, 7, true⟩) := by decide
/-- R202: the stage that has been LOADed is RESUMEd with the empty mask, and not LOADed again. -/
theorem test_pipeline_resume :
    (after (pat [none, some (ld [99] [4, 7])] .turn (.pipeline ⟨[99], [3, 4], 1, 7, true⟩))).map
      (fun t => ((t.inst? 1).map Inst.inq, t.ctl)) = some (some [4, 7], .running 1 Mask.none) := by decide
/-- R211, Supply(-1): the value joins INQ(0), and one more RESUME of instance 0 is due; its second NeedsInput ends the
turn. -/
theorem test_star_supply :
    (after { pat [some (ld [99] []), none] (.stopped 0 .needsInput) (.star ⟨0, [[], []], none, none, false, false⟩) with
      cfg := { small with natEmptyRead := .supply (-1) } }).map (fun t => ((t.inst? 0).map Inst.inq, t.ctl, t.sched))
      = some (some [-1], .turn, .star ⟨0, [[], []], none, none, false, true⟩)
      ∧ (after { pat [some (ld [99] []), none] (.stopped 0 .needsInput) (.star ⟨0, [[], []], none, none, false, true⟩) with
      cfg := { small with natEmptyRead := .supply (-1) } }).map (fun t => ((t.inst? 0).map Inst.inq, t.ctl, t.sched))
      = some (some [], .turn, .star ⟨1, [[], []], none, none, false, false⟩) := by decide
/-- R209: the third value of instance 0's triple (1, 5, 6) queues 5 and then 6 to instance 1. -/
theorem test_star_routes :
    (after (pat [some { ld [99] [] with outq := [6] }, some (ld [99] [2])] (.stopped 0 .hasOutput)
      (.star ⟨0, [[1, 5], []], none, none, false, false⟩))).map
      (fun t => ((t.inst? 1).map Inst.inq, (t.inst? 0).map Inst.outq, t.sched))
      = some (some [2, 5, 6], some [], .star ⟨1, [[], []], none, none, true, false⟩) := by decide
/-- R214: an idle network that injects the same y twice ends with it. -/
theorem test_star_ends :
    (after (pat [some { ld [99] [] with halted := true }] (.stopped 0 .halted)
      (.star ⟨0, [[]], some (3, 9), some (4, 9), false, false⟩))).map State.replies
      = some [.ended (.packet 3 9)] := by decide

/-! ### Placing an instruction (withFetchWord) -/

/-- The placed word is what the next step of the reset state runs: 99 halts instance 0. -/
theorem test_fetch_word :
    (after (State.withFetchWord (one (ld [] []) Mask.none) 7 99)).map (fun t => (t.inst? 0).map Inst.halted)
      = some (some true) := by decide

/-! ### Witnesses: for every statement with hypotheses, a state and operands that meet all of them together -/

/-! The running instance of most witnesses: an ADD, its cells, and the finite parameters `small`. -/

/-- An instance with rb 2 and a value in INQ. -/
def wx : Inst := { ld [1, 4, 5, 6, 9223372036854775807, 0, 0, 0] [42] with rb := 2 }

/-- Its block, under the finite parameters and the full mask. -/
def ws : State := { one wx both with cfg := small }

theorem witness_DecodeOfEncode :
    Instr.wf (.eq ⟨.relative, -7⟩ ⟨.immediate, 0⟩ ⟨.relative, 9223372036854775807⟩) = true := rfl

theorem witness_EncodeOfDecode : decode [203, -3, 8] = .ok (.inp ⟨.relative, -3⟩, [8]) := rfl

/-- One word for each clause, at the boundary digit where there is one. -/
theorem witness_DecoderChecksInOrder :
    (-1 : Word) < 0 ∧ ((0 : Word) ≤ 100 ∧ opOf ((100 : Word).toNat % 100) = none)
      ∧ (opOf ((30001 : Word).toNat % 100) = some .add ∧ 3 ≤ Op.add.params ∧ 2 < digit (30001 : Word).toNat 4)
      ∧ (opOf ((122201 : Word).toNat % 100) = some .add
        ∧ (∀ k, 1 ≤ k → k ≤ Op.add.params → digit (122201 : Word).toNat (k + 1) ≤ 2)
        ∧ (122201 : Word).toNat / 10 ^ (Op.add.params + 2) ≠ 0)
      ∧ ((99999 : Word).toNat / 10 ^ (Op.add.params + 2) = 0 ∧ Op.add.params = 3 ∧ digit (11101 : Word).toNat 4 = 1)
      ∧ digit (103 : Word).toNat 2 = 1
      ∧ ¬ ((Op.add.params = 3 ∧ digit (22201 : Word).toNat 4 = 1) ∨ (Op.add = .inp ∧ digit (22201 : Word).toNat 2 = 1)) := by
  refine ⟨by decide, by decide, by decide, ⟨by decide, ?_, by decide⟩, by decide, by decide, by decide⟩
  intro k h1 h3
  have : k = 1 ∨ k = 2 ∨ k = 3 := by simp [Op.params] at h3; omega
  rcases this with rfl | rfl | rfl <;> decide

theorem witness_HighDigitsMustBeZero :
    ((0 : Word) ≤ 199 ∧ opOf ((199 : Word).toNat % 100) = some .halt ∧ (199 : Word).toNat / 10 ^ (Op.halt.params + 2) ≠ 0)
      ∧ decodeWord 22208 = .ok ⟨.eq, .relative, .relative, .relative⟩
      ∧ ∃ h, decodeWord 99 = .ok h ∧ h.op = .halt := ⟨by decide, rfl, _, rfl, rfl⟩

/-- Addresses -1, 8 and 7 under MEM_LIMIT 8, and a cell that is not listed. -/
theorem witness_MemReadChecksThenReads :
    (-1 : Word) < 0 ∧ ((0 : Word) ≤ 8 ∧ small.memLimit = some 8 ∧ 8 ≤ (8 : Word).toNat)
      ∧ ((0 : Word) ≤ 7 ∧ ∀ l, small.memLimit = some l → (7 : Word).toNat < l)
      ∧ ∀ v, ((7 : Word).toNat, v) ∉ (ld [99] []).mem := by
  refine ⟨by decide, by decide, ⟨by decide, fun l h => by cases h; decide⟩, fun v h => ?_⟩
  simp [ld, Inst.load, Mem.ofProgram] at h

/-- The largest word, and the first sum above it. -/
theorem witness_ReadOperandByMode :
    representable small ({ ld [] [] with rb := 9223372036854775806 }.rb + 1) = true
      ∧ representable small ({ ld [] [] with rb := 9223372036854775806 }.rb + 2) = false := by decide

/-- POSITION names -1, 8 and 7 under MEM_LIMIT 8; RELATIVE names them from the base 2; and a sum that leaves WORD_BITS. -/
theorem witness_WriteAddressByMode :
    ((-1 : Word) = wx.rb + -3 ∧ representable small (wx.rb + -3) = true ∧ (-1 : Word) < 0)
      ∧ ((8 : Word) = wx.rb + 6 ∧ representable small (wx.rb + 6) = true ∧ small.memLimit = some 8 ∧ 8 ≤ (8 : Word).toNat)
      ∧ ((7 : Word) = wx.rb + 5 ∧ representable small (wx.rb + 5) = true ∧ (0 : Word) ≤ 7
        ∧ ∀ l, small.memLimit = some l → (7 : Word).toNat < l)
      ∧ representable small ({ ld [] [] with rb := -9223372036854775808 }.rb + -1) = false :=
  ⟨by decide, by decide, ⟨by decide, by decide, by decide, fun l h => by cases h; decide⟩, by decide⟩

theorem witness_running : Running ws 0 both wx := ⟨rfl, rfl, rfl, rfl⟩

/-- The sum is the largest word. -/
theorem witness_AddWritesSum :
    Running ws 0 both wx ∧ readOperand ws.cfg wx ⟨.position, 4⟩ = .ok 9223372036854775807
      ∧ readOperand ws.cfg wx ⟨.relative, 3⟩ = .ok 0 ∧ writeAddress ws.cfg wx ⟨.position, 7⟩ = .ok 7
      ∧ representable ws.cfg (9223372036854775807 + 0) = true ∧ representable ws.cfg (wx.ip + 4) = true :=
  ⟨witness_running, rfl, rfl, rfl, by decide, by decide⟩

/-- The product is the smallest word. -/
theorem witness_MulWritesProduct :
    Running ws 0 both wx ∧ readOperand ws.cfg wx ⟨.immediate, -4611686018427387904⟩ = .ok (-4611686018427387904)
      ∧ readOperand ws.cfg wx ⟨.immediate, 2⟩ = .ok 2 ∧ writeAddress ws.cfg wx ⟨.relative, 5⟩ = .ok 7
      ∧ representable ws.cfg (-4611686018427387904 * 2) = true ∧ representable ws.cfg (wx.ip + 4) = true :=
  ⟨witness_running, rfl, rfl, rfl, by decide, by decide⟩

theorem witness_ComparisonsWriteOneOrZero :
    Running ws 0 both wx ∧ readOperand ws.cfg wx ⟨.immediate, -1⟩ = .ok (-1)
      ∧ readOperand ws.cfg wx ⟨.position, 5⟩ = .ok 0 ∧ writeAddress ws.cfg wx ⟨.relative, -2⟩ = .ok 0
      ∧ representable ws.cfg (wx.ip + 4) = true := ⟨witness_running, rfl, rfl, rfl, by decide⟩

theorem witness_InpTakesOldestValue :
    Running ws 0 both wx ∧ writeAddress ws.cfg wx ⟨.position, 7⟩ = .ok 7 ∧ representable ws.cfg (wx.ip + 2) = true
      ∧ wx.inq = 42 :: [] := ⟨witness_running, rfl, by decide, rfl⟩

/-- With and without NeedsInput in the mask. -/
theorem witness_InpOnEmptyQueue :
    (Running (one (ld [3, 0] []) both) 0 both (ld [3, 0] []) ∧ both.needsInput = true)
      ∧ (Running (one (ld [3, 0] []) Mask.none) 0 Mask.none (ld [3, 0] []) ∧ Mask.none.needsInput = false)
      ∧ writeAddress Config.default (ld [3, 0] []) ⟨.position, 0⟩ = .ok 0
      ∧ representable Config.default ((ld [3, 0] []).ip + 2) = true ∧ (ld [3, 0] []).inq = [] :=
  ⟨⟨⟨rfl, rfl, rfl, rfl⟩, rfl⟩, ⟨⟨rfl, rfl, rfl, rfl⟩, rfl⟩, rfl, rfl, rfl⟩

/-- A queue of depth 2 that holds one value. -/
theorem witness_OutAppendsToOwnQueue :
    Running { ws with insts := [some { wx with outq := [1] }] } 0 both { wx with outq := [1] }
      ∧ readOperand small { wx with outq := [1] } ⟨.immediate, 7⟩ = .ok 7
      ∧ representable small ({ wx with outq := [1] }.ip + 2) = true ∧ { wx with outq := [1] }.outTo = none
      ∧ ∀ q, small.queueDepth = some q → { wx with outq := [1] }.outq.length < q :=
  ⟨⟨rfl, rfl, rfl, rfl⟩, rfl, by decide, rfl, fun q h => by cases h; decide⟩

/-- Wired to the instance itself, and wired to another one. -/
theorem witness_OutAppendsToWiredQueue :
    (Running { ws with insts := [some { wx with outTo := some 0 }] } 0 both { wx with outTo := some 0 }
      ∧ { wx with outTo := some 0 }.outTo = some 0)
      ∧ (Running { ws with insts := [some { wx with outTo := some 1 }, some (ld [99] [8])] } 0 both
          { wx with outTo := some 1 }
        ∧ { wx with outTo := some 1 }.outTo = some 1
        ∧ State.inst? { ws with insts := [some { wx with outTo := some 1 }, some (ld [99] [8])] } 1 = some (ld [99] [8]))
      ∧ readOperand small { wx with outTo := some 1 } ⟨.position, 5⟩ = .ok 0
      ∧ representable small (wx.ip + 2) = true
      ∧ (∀ q, small.queueDepth = some q → wx.inq.length < q)
      ∧ ∀ q, small.queueDepth = some q → (ld [99] [8]).inq.length < q :=
  ⟨⟨⟨rfl, rfl, rfl, rfl⟩, rfl⟩, ⟨⟨rfl, rfl, rfl, rfl⟩, rfl, rfl⟩, rfl, by decide, fun q h => by cases h; decide,
    fun q h => by cases h; decide⟩

/-- The condition 0 and a negative condition. -/
theorem witness_JtJumpsOnNonZero :
    Running ws 0 both wx ∧ readOperand ws.cfg wx ⟨.position, 5⟩ = .ok 0 ∧ readOperand ws.cfg wx ⟨.immediate, -1⟩ = .ok (-1)
      ∧ ((0 : Word) = 0 → representable ws.cfg (wx.ip + 3) = true)
      ∧ ((-1 : Word) = 0 → representable ws.cfg (wx.ip + 3) = true) :=
  ⟨witness_running, rfl, rfl, fun _ => by decide, fun h => by cases h⟩

theorem witness_JfJumpsOnZero :
    Running ws 0 both wx ∧ readOperand ws.cfg wx ⟨.position, 5⟩ = .ok 0 ∧ readOperand ws.cfg wx ⟨.immediate, -1⟩ = .ok (-1)
      ∧ ((0 : Word) ≠ 0 → representable ws.cfg (wx.ip + 3) = true)
      ∧ ((-1 : Word) ≠ 0 → representable ws.cfg (wx.ip + 3) = true) :=
  ⟨witness_running, rfl, rfl, fun h => absurd rfl h, fun _ => by decide⟩

theorem witness_JtAndJfAreComplements :
    Running ws 0 both wx ∧ readOperand ws.cfg wx ⟨.immediate, -1⟩ = .ok (-1) ∧ readOperand ws.cfg wx ⟨.position, 5⟩ = .ok 0
      ∧ representable ws.cfg (wx.ip + 3) = true := ⟨witness_running, rfl, rfl, by decide⟩

/-- The new base is the largest word. -/
theorem witness_ArbAddsToBase :
    Running ws 0 both wx ∧ readOperand ws.cfg wx ⟨.immediate, 9223372036854775805⟩ = .ok 9223372036854775805
      ∧ representable ws.cfg (wx.rb + 9223372036854775805) = true ∧ representable ws.cfg (wx.ip + 2) = true :=
  ⟨witness_running, rfl, by decide, by decide⟩

theorem witness_HaltSetsHalted : Running ws 0 both wx := witness_running

/-- The last cell, and the instruction's own word. -/
theorem witness_AliasedAddDoubles :
    Running ws 0 both wx ∧ inLimit ws.cfg 7 = true ∧ inLimit ws.cfg 0 = true ∧ wx.ip = ((0 : Nat) : Word)
      ∧ representable ws.cfg (Mem.read wx.mem 7 + Mem.read wx.mem 7) = true
      ∧ representable ws.cfg (Mem.read wx.mem 0 + Mem.read wx.mem 0) = true ∧ representable ws.cfg (wx.ip + 4) = true :=
  ⟨witness_running, by decide, by decide, rfl, by decide, by decide, by decide⟩

/-- A next state in which the instance is not faulted, for each of the four, with the write address 7. -/
theorem witness_ThreeOperandFrame :
    Running ws 0 both wx ∧ writeAddress ws.cfg wx ⟨.position, 7⟩ = .ok 7
      ∧ ∀ ins ∈ [Instr.add ⟨.position, 4⟩ ⟨.immediate, -1⟩ ⟨.position, 7⟩, .mul ⟨.position, 4⟩ ⟨.immediate, -1⟩ ⟨.position, 7⟩,
          .lt ⟨.position, 4⟩ ⟨.immediate, -1⟩ ⟨.position, 7⟩, .eq ⟨.position, 4⟩ ⟨.immediate, -1⟩ ⟨.position, 7⟩],
        ∃ t y, exec ins ws = .next t ∧ t.inst? 0 = some y ∧ y.fault = none := by
  refine ⟨witness_running, rfl, fun ins h => ?_⟩
  simp only [List.mem_cons, List.not_mem_nil, or_false] at h
  rcases h with rfl | rfl | rfl | rfl <;> exact ⟨_, _, rfl, rfl, rfl⟩

/-- IN that completes, and IN that blocks. -/
theorem witness_InpFrame :
    (Running ws 0 both wx ∧ ∃ t y, exec (.inp ⟨.position, 7⟩) ws = .next t ∧ t.inst? 0 = some y ∧ y.fault = none)
      ∧ (Running (one (ld [3, 0] []) both) 0 both (ld [3, 0] [])
        ∧ ∃ t y, exec (.inp ⟨.position, 0⟩) (one (ld [3, 0] []) both) = .next t ∧ t.inst? 0 = some y ∧ y.fault = none) :=
  ⟨⟨witness_running, _, _, rfl, rfl, rfl⟩, ⟨rfl, rfl, rfl, rfl⟩, _, _, rfl, rfl, rfl⟩

theorem witness_RegisterOnlyFrame :
    Running ws 0 both wx
      ∧ ∀ ins ∈ [Instr.jt ⟨.immediate, 1⟩ ⟨.immediate, -5⟩, .jf ⟨.immediate, 1⟩ ⟨.immediate, -5⟩, .arb ⟨.immediate, 1⟩, .halt],
        ∃ t y, exec ins ws = .next t ∧ t.inst? 0 = some y ∧ y.fault = none := by
  refine ⟨witness_running, fun ins h => ?_⟩
  simp only [List.mem_cons, List.not_mem_nil, or_false] at h
  rcases h with rfl | rfl | rfl | rfl <;> exact ⟨_, _, rfl, rfl, rfl⟩

theorem witness_OutFrame :
    (Running ws 0 both wx ∧ ∃ t y, exec (.out ⟨.position, 5⟩) ws = .next t ∧ t.inst? 0 = some y ∧ y.fault = none)
      ∧ (Running { ws with insts := [some { wx with outTo := some 1 }, some (ld [99] [8])] } 0 both { wx with outTo := some 1 }
        ∧ ∃ t y, exec (.out ⟨.position, 5⟩) { ws with insts := [some { wx with outTo := some 1 }, some (ld [99] [8])] } = .next t
          ∧ t.inst? 0 = some y ∧ y.fault = none) :=
  ⟨⟨witness_running, _, _, rfl, rfl, rfl⟩, ⟨rfl, rfl, rfl, rfl⟩, _, _, rfl, rfl, rfl⟩

/-- ARB changes rb, HALT changes HALTED, JT sets ip to the value of p2. -/
theorem witness_CursorWriters :
    Running ws 0 both wx
      ∧ (∃ t y, exec (.arb ⟨.immediate, 1⟩) ws = .next t ∧ t.inst? 0 = some y ∧ y.rb ≠ wx.rb)
      ∧ (∃ t y, exec .halt ws = .next t ∧ t.inst? 0 = some y ∧ y.halted ≠ wx.halted)
      ∧ ∃ t y, exec (.jt ⟨.immediate, 1⟩ ⟨.immediate, -5⟩) ws = .next t ∧ t.inst? 0 = some y ∧ y.ip ≠ wx.ip :=
  ⟨witness_running, ⟨_, _, rfl, rfl, by decide⟩, ⟨_, _, rfl, rfl, by decide⟩, _, _, rfl, rfl, by decide⟩

/-- A fault of the decoder (the word 0) and one of the operands. -/
theorem witness_FaultEntryIsPrecise :
    (Running (one (ld [] []) both) 0 both (ld [] [])
      ∧ ∃ t y, step (one (ld [] []) both) = .next t ∧ t.inst? 0 = some y ∧ y.fault = some .unknownOpcode)
      ∧ (Running (one (ld [4, -1] []) both) 0 both (ld [4, -1] [])
      ∧ ∃ t y, step (one (ld [4, -1] []) both) = .next t ∧ t.inst? 0 = some y ∧ y.fault = some .negativeAddress) :=
  ⟨⟨⟨rfl, rfl, rfl, rfl⟩, _, _, rfl, rfl, rfl⟩, ⟨rfl, rfl, rfl, rfl⟩, _, _, rfl, rfl, rfl⟩

/-- p1 fails; p1 succeeds and p2 fails; both succeed and the write address fails. -/
theorem witness_OperandFaultsInOrder :
    Running ws 0 both wx ∧ readOperand ws.cfg wx ⟨.position, -1⟩ = .error .negativeAddress
      ∧ readOperand ws.cfg wx ⟨.position, 7⟩ = .ok 0
      ∧ readOperand ws.cfg wx ⟨.relative, 6⟩ = .error .memoryLimitExceeded
      ∧ writeAddress ws.cfg wx ⟨.relative, 9223372036854775806⟩ = .error .valueOutOfRange
      ∧ writeAddress ws.cfg wx ⟨.position, 8⟩ = .error .memoryLimitExceeded :=
  ⟨witness_running, rfl, rfl, rfl, rfl, rfl⟩

/-- One above the largest word for every clause: the sum, the product, the new base, and the advances from the last ip. -/
theorem witness_ResultOutOfRangeFaults :
    Running ws 0 both wx ∧ readOperand ws.cfg wx ⟨.position, 4⟩ = .ok 9223372036854775807
      ∧ readOperand ws.cfg wx ⟨.immediate, 1⟩ = .ok 1 ∧ readOperand ws.cfg wx ⟨.immediate, 2⟩ = .ok 2
      ∧ readOperand ws.cfg wx ⟨.position, 7⟩ = .ok 0
      ∧ writeAddress ws.cfg wx ⟨.position, 7⟩ = .ok 7 ∧ representable ws.cfg (9223372036854775807 + 1) = false
      ∧ representable ws.cfg (9223372036854775807 * 2) = false ∧ representable ws.cfg (wx.rb + 9223372036854775807) = false
      ∧ Running { ws with insts := [some { wx with ip := 9223372036854775806 }] } 0 both { wx with ip := 9223372036854775806 }
      ∧ representable small ({ wx with ip := 9223372036854775806 }.ip + 4) = false
      ∧ representable small ({ wx with ip := 9223372036854775806 }.ip + 3) = false
      ∧ representable small ({ wx with ip := 9223372036854775806 }.ip + 2) = false :=
  ⟨witness_running, rfl, rfl, rfl, rfl, rfl, by decide, by decide, by decide, ⟨rfl, rfl, rfl, rfl⟩, by decide, by decide, by decide⟩

/-- A full queue of depth 2, and the step that raises ChannelOverflow. -/
theorem witness_OutToFullQueueOverflows :
    Running { ws with insts := [some { ld [104, 3] [] with outq := [1, 2] }] } 0 both { ld [104, 3] [] with outq := [1, 2] }
      ∧ readOperand small { ld [104, 3] [] with outq := [1, 2] } ⟨.immediate, 3⟩ = .ok 3
      ∧ representable small ({ ld [104, 3] [] with outq := [1, 2] }.ip + 2) = true
      ∧ State.outQueue { ws with insts := [some { ld [104, 3] [] with outq := [1, 2] }] } 0 = some [1, 2]
      ∧ small.queueDepth = some 2 ∧ 2 ≤ [1, 2].length
      ∧ ∃ t y, step { ws with insts := [some { ld [104, 3] [] with outq := [1, 2] }] } = .next t ∧ t.inst? 0 = some y
        ∧ y.fault = some .channelOverflow :=
  ⟨⟨rfl, rfl, rfl, rfl⟩, rfl, by decide, rfl, rfl, by decide, _, _, rfl, rfl, rfl⟩

/-- A step that raises ValueOutOfRange, and one that raises MemoryLimitExceeded, under the finite parameters. -/
theorem witness_UnboundedParametersNeverFault :
    (∃ t y, step { ws with insts := [some (ld [1101, 9223372036854775807, 1, 0] [])] } = .next t ∧ t.inst? 0 = some y
      ∧ y.fault = some .valueOutOfRange)
      ∧ ∃ t y, step { ws with insts := [some (ld [4, 8] [])] } = .next t ∧ t.inst? 0 = some y
        ∧ y.fault = some .memoryLimitExceeded := ⟨⟨_, _, rfl, rfl, rfl⟩, _, _, rfl, rfl, rfl⟩

/-- The last instruction that fits in MEM_LIMIT. -/
theorem witness_StepRunsDecodedInstruction :
    Running { ws with insts := [some { ld [0, 0, 0, 0, 1, 0, 0, 7] [] with ip := 4 }] } 0 both
        { ld [0, 0, 0, 0, 1, 0, 0, 7] [] with ip := 4 }
      ∧ PortQuiet ws
      ∧ (0 : Word) ≤ { ld [0, 0, 0, 0, 1, 0, 0, 7] [] with ip := 4 }.ip
      ∧ (∀ k, k ≤ 3 → inLimit small ((4 : Word).toNat + k) = true)
      ∧ (∀ k : Nat, 1 ≤ k → k ≤ 3 → representable small (4 + k) = true)
      ∧ decode (cellsAt { ld [0, 0, 0, 0, 1, 0, 0, 7] [] with ip := 4 }.mem (4 : Word).toNat 4)
        = .ok (.add ⟨.position, 0⟩ ⟨.position, 0⟩ ⟨.position, 7⟩, []) := by
  refine ⟨⟨rfl, rfl, rfl, rfl⟩, portQuiet_nil rfl, by decide, fun k h => ?_, fun k h1 h => ?_, rfl⟩
  · have : k = 0 ∨ k = 1 ∨ k = 2 ∨ k = 3 := by omega
    rcases this with rfl | rfl | rfl | rfl <;> decide
  · have : k = 1 ∨ k = 2 ∨ k = 3 := by omega
    rcases this with rfl | rfl | rfl <;> decide

/-- ip -1; ip 8; a word that does not decode; the first parameter cell past MEM_LIMIT; and, with MEM_LIMIT unbounded, the
first one past WORD_BITS. -/
theorem witness_FetchFaultsInOrder :
    PortQuiet ws
      ∧ (Running { ws with insts := [some { wx with ip := -1 }] } 0 both { wx with ip := -1 } ∧ { wx with ip := -1 }.ip < 0)
      ∧ (Running { ws with insts := [some { wx with ip := 8 }] } 0 both { wx with ip := 8 } ∧ inLimit small 8 = false)
      ∧ (Running { ws with insts := [some { wx with ip := 7 }] } 0 both { wx with ip := 7 } ∧ inLimit small 7 = true
        ∧ decodeWord (Mem.read wx.mem 7) = .error .unknownOpcode)
      ∧ (Running { ws with insts := [some { ld [0, 0, 0, 0, 0, 0, 0, 4] [] with ip := 7 }] } 0 both
          { ld [0, 0, 0, 0, 0, 0, 0, 4] [] with ip := 7 }
        ∧ decodeWord (Mem.read (ld [0, 0, 0, 0, 0, 0, 0, 4] []).mem 7) = .ok ⟨.out, .position, .position, .position⟩
        ∧ representable small (7 + (1 : Nat)) = true ∧ inLimit small (7 + 1) = false)
      ∧ (decodeWord (Mem.read [(9223372036854775807, 4)] 9223372036854775807) = .ok ⟨.out, .position, .position, .position⟩
        ∧ representable { small with memLimit := none } (9223372036854775807 + (1 : Nat)) = false) :=
  ⟨portQuiet_nil rfl, ⟨⟨rfl, rfl, rfl, rfl⟩, by decide⟩, ⟨⟨rfl, rfl, rfl, rfl⟩, by decide⟩,
    ⟨⟨rfl, rfl, rfl, rfl⟩, by decide, rfl⟩,
    ⟨⟨rfl, rfl, rfl, rfl⟩, rfl, by decide, by decide⟩, rfl, by decide⟩

/-- The opcodes 0, 10 and 98 at the ends of the ranges, and a fetch of a cell that nothing has written. -/
theorem witness_UnknownOpcodes :
    ((0 : Word) ≤ 22200 ∧ (22200 : Word) % 100 = 0) ∧ ((0 : Word) ≤ 10 ∧ 10 ≤ (10 : Word) % 100 ∧ (10 : Word) % 100 ≤ 98)
      ∧ (10 ≤ (98 : Word) % 100 ∧ (98 : Word) % 100 ≤ 98)
      ∧ Running { ws with insts := [some { wx with ip := 7 }] } 0 both { wx with ip := 7 } ∧ PortQuiet ws
      ∧ (0 : Word) ≤ { wx with ip := 7 }.ip ∧ inLimit small (7 : Word).toNat = true
      ∧ ∀ v, ((7 : Word).toNat, v) ∉ { wx with ip := 7 }.mem := by
  refine ⟨by decide, by decide, by decide, ⟨rfl, rfl, rfl, rfl⟩, portQuiet_nil rfl, by decide, by decide, fun v h => ?_⟩
  simp [wx, ld, Inst.load, Mem.ofProgram] at h

/-- The same instance alone, and as instance 1 beside a halted one. -/
theorem witness_InstructionSeesOnlyItsInstance :
    Running ws 0 both wx
      ∧ Running { ws with insts := [some { ld [] [3] with halted := true }, some wx], ctl := .running 1 both, replies := [.loaded 0] }
          1 both wx
      ∧ ws.cfg = small ∧ wx.outTo = none ∧ ∃ t, exec (.inp ⟨.position, 7⟩) ws = .next t :=
  ⟨witness_running, ⟨rfl, rfl, rfl, rfl⟩, rfl, rfl, _, rfl⟩

/-- Instance 1 while instance 0 runs, while the host pushes to instance 0, and while it LOADs instance 0 during
instance 2's run. -/
theorem witness_StepLeavesOtherInstances :
    (State.inst? { ws with insts := [some wx, some (ld [99] [8])] } 1 = some (ld [99] [8])
      ∧ loads { ws with insts := [some wx, some (ld [99] [8])] } 1 = false
      ∧ ∃ t, step { ws with insts := [some wx, some (ld [99] [8])] } = .next t)
      ∧ (loads (port [some wx, some (ld [99] [8])] [.pushIn 0 1]) 1 = false
        ∧ ∃ t, step (port [some wx, some (ld [99] [8])] [.pushIn 0 1]) = .next t)
      ∧ (loads { ws with insts := [none, some wx, some wx], ctl := .running 2 both, atPort := [.load 0 [99] []] } 1 = false
        ∧ ∃ t, step { ws with insts := [none, some wx, some wx], ctl := .running 2 both, atPort := [.load 0 [99] []] }
          = .next t) :=
  ⟨⟨rfl, rfl, _, rfl⟩, ⟨rfl, _, rfl⟩, rfl, _, rfl⟩

/-- A halted and a faulted instance, each resumed by the host. -/
theorem witness_FaultedAndHaltedStay :
    (∃ t, { wx with halted := true }.halted = true ∧ loads (port [some { wx with halted := true }] [.resume 0 both]) 0 = false
      ∧ step (port [some { wx with halted := true }] [.resume 0 both]) = .next t)
      ∧ ∃ t, { wx with fault := some .channelOverflow }.fault ≠ none
        ∧ loads (port [some { wx with fault := some .channelOverflow }] [.resume 0 both]) 0 = false
        ∧ step (port [some { wx with fault := some .channelOverflow }] [.resume 0 both]) = .next t :=
  ⟨⟨_, rfl, rfl, rfl⟩, _, by decide, rfl, rfl⟩

theorem witness_ConfigurationIsFixed : ∃ t, step ws = .next t := ⟨_, rfl⟩

/-- A running ring of two under finite parameters. -/
def wring : State :=
  { pat [some { ld [104, 7, 99] [3] with outTo := some 1 }, some { ld [99] [4] with outTo := some 0 }] (.running 0 ringMask)
      (.ring ⟨0, none⟩) with cfg := small }

theorem witness_StepKeepsData : wring.dataOk = true ∧ ∃ t, step wring = .next t := ⟨by decide, _, rfl⟩

theorem witness_StepKeepsControl : wring.dataOk = true ∧ wring.ctlOk = true ∧ ∃ t, step wring = .next t :=
  ⟨by decide, by decide, _, rfl⟩

/-- The same ring while the host presents a push, which waits. -/
theorem witness_StepKeepsControl_during :
    State.dataOk { wring with atPort := [.pushIn 1 5] } = true ∧ State.ctlOk { wring with atPort := [.pushIn 1 5] } = true
      ∧ ∃ t, step { wring with atPort := [.pushIn 1 5] } = .next t := ⟨by decide, by decide, _, rfl⟩

/-- A star network's stop, whose queue is of unbounded depth. -/
theorem witness_StepAlwaysProceeds :
    State.dataOk (pat [some (ld [99] [])] (.stopped 0 .needsInput) (.star ⟨0, [[1]], none, none, false, false⟩)) = true
      ∧ State.ctlOk (pat [some (ld [99] [])] (.stopped 0 .needsInput) (.star ⟨0, [[1]], none, none, false, false⟩)) = true
      ∧ Config.default.queueDepth = none := by decide

/-- The smallest legal number of instances, and the last instance of the default 50. -/
theorem witness_ResetState :
    legalInstances 1 = true ∧ legalInstances 0 = false ∧ ∃ x, State.reset.inst? 49 = some x := ⟨rfl, rfl, _, rfl⟩

/-! The states of the ports' witnesses: a transaction pending in an idle block, and one presented while instance 1 runs. -/

/-- A block of one instance under the finite parameters, with this transaction pending. -/
def wport (c : HostCmd) : State := { port [some wx] [c] with cfg := small }

/-- The same instance beside one that runs, under this pattern, while the host presents this transaction. -/
def wduring (d : Sched) (c : HostCmd) : State :=
  { port [some wx, some (ld [99] [])] [] with cfg := small, sched := d, ctl := .running 1 both, atPort := [c] }

theorem takesUp_wport (c : HostCmd) : TakesUp (wport c) c { wport c with host := [] } := .inr ⟨rfl, rfl, [], rfl, rfl⟩

theorem takesUp_wduring {c : HostCmd} (hn : c.names ≠ some 1) (hc : c.concurrent .off) :
    TakesUp (wduring .off c) c { wduring .off c with atPort := [] } := .inl ⟨[], rfl, ⟨hn, hc⟩, rfl⟩

/-- Under a pattern, a read. -/
theorem takesUp_wduring_read (d : Sched) :
    TakesUp (wduring d (.readMem 0 7)) (.readMem 0 7) { wduring d (.readMem 0 7) with atPort := [] } :=
  .inl ⟨[], rfl, ⟨by decide, trivial⟩, rfl⟩

/-- Between the transactions of a pattern, a read. -/
theorem takesUp_turn_read (l : List (Option Inst)) (d : Sched) (i : Nat) (a : Word) :
    TakesUp { pat l .turn d with atPort := [.readMem i a] } (.readMem i a) (pat l .turn d) :=
  .inl ⟨[], rfl, ⟨i, .inr (.inr ⟨a, rfl⟩)⟩, rfl⟩

/-- Where a stop waits to be reported, a read. -/
theorem takesUp_stop_read (l : List (Option Inst)) (d : Sched) (j : Nat) (st : Status) (i : Nat) :
    TakesUp { pat l (.stopped j st) d with atPort := [.readStatus i] } (.readStatus i) (pat l (.stopped j st) d) :=
  .inl ⟨[], rfl, ⟨i, .inr (.inl rfl)⟩, rfl⟩

theorem not_mustRefuse {s : State} {c : HostCmd} (h : s.refusedAtPort c = false) : ¬ MustRefuse s c := by
  simp [← refusedAtPort_iff, h]

/-- A program and inbound values that just fit the finite parameters, for an instance that was never LOADed. -/
theorem witness_LoadBuildsInstance :
    ∃ s u : State, s.cfg = small ∧ TakesUp s (.load 0 [1, 0, 0, 0, 99, 0, 0, -9223372036854775808] [5, 6]) u
      ∧ 0 < s.insts.length ∧ s.inst? 0 = none
      ∧ (∀ v ∈ [(1 : Word), 0, 0, 0, 99, 0, 0, -9223372036854775808], representable s.cfg v = true)
      ∧ (∀ v ∈ [(5 : Word), 6], representable s.cfg v = true)
      ∧ (∀ l, s.cfg.memLimit = some l → [(1 : Word), 0, 0, 0, 99, 0, 0, -9223372036854775808].length ≤ l)
      ∧ ∀ q, s.cfg.queueDepth = some q → [(5 : Word), 6].length ≤ q :=
  ⟨{ port [none] [.load 0 [1, 0, 0, 0, 99, 0, 0, -9223372036854775808] [5, 6]] with cfg := small },
    { port [none] [] with cfg := small }, rfl, .inr ⟨rfl, rfl, [], rfl, rfl⟩, by decide, rfl, by decide, by decide, fun l h => by cases h; decide, fun q h => by cases h; decide⟩

/-- A LOAD presented while another instance runs. -/
theorem witness_LoadBuildsInstance_during :
    TakesUp (wduring .off (.load 0 [99] [5])) (.load 0 [99] [5]) { wduring .off (.load 0 [99] [5]) with atPort := [] }
      ∧ canLoad (wduring .off (.load 0 [99] [5])).cfg [99] [5] = true :=
  ⟨takesUp_wduring (by decide) rfl, by decide⟩

/-- Each of the five grounds, one past its boundary. -/
theorem witness_LoadIsRefused :
    (wport (.load 1 [] [])).insts.length ≤ 1
      ∧ (∃ v ∈ [(9223372036854775808 : Word)], representable (wport (.load 0 [9223372036854775808] [])).cfg v = false)
      ∧ (∃ v ∈ [(-9223372036854775809 : Word)], representable (wport (.load 0 [] [-9223372036854775809])).cfg v = false)
      ∧ (∃ l, (wport (.load 0 (List.replicate 9 0) [])).cfg.memLimit = some l ∧ l < (List.replicate 9 (0 : Word)).length)
      ∧ (∃ q, (wport (.load 0 [] [1, 2, 3])).cfg.queueDepth = some q ∧ q < [(1 : Word), 2, 3].length)
      ∧ (∀ c, TakesUp (wport c) c { wport c with host := [] })
      ∧ (wduring .off (.load 2 [] [])).insts.length ≤ 2
      ∧ TakesUp (wduring .off (.load 2 [] [])) (.load 2 [] []) { wduring .off (.load 2 [] []) with atPort := [] } :=
  ⟨by decide, ⟨_, List.mem_singleton.mpr rfl, by decide⟩, ⟨_, List.mem_singleton.mpr rfl, by decide⟩, ⟨8, rfl, by decide⟩,
    ⟨2, rfl, by decide⟩, takesUp_wport, by decide, takesUp_wduring (by decide) rfl⟩

/-- What waits while instance 1 runs: each kind, with no pattern, and in one. -/
theorem witness_ResumeBegins_during :
    (∀ c ∈ [HostCmd.resume 0 both, .start (.star [99]), .readStatus 1, .pushIn 1 5],
      (wduring .off c).ctl = .running 1 both ∧ (wduring .off c).atPort = c :: [] ∧ ¬ MustRefuse (wduring .off c) c)
      ∧ (∃ t, step (wduring .off (.pushIn 1 5)) = .next t)
      ∧ (HostCmd.readStatus 1).names = some 1 ∧ (HostCmd.pushIn 1 5).names = some 1
      ∧ ∀ c ∈ [HostCmd.load 0 [99] [5], .pushIn 0 5, .popOut 0],
        (wduring (.ring ⟨1, none⟩) c).ctl = .running 1 both ∧ (wduring (.ring ⟨1, none⟩) c).atPort = c :: []
          ∧ (wduring (.ring ⟨1, none⟩) c).sched ≠ .off ∧ ¬ MustRefuse (wduring (.ring ⟨1, none⟩) c) c :=
  have h1 : ∀ c ∈ [HostCmd.resume 0 both, .start (.star [99]), .readStatus 1, .pushIn 1 5],
      (wduring .off c).refusedAtPort c = false := by decide
  have h2 : ∀ c ∈ [HostCmd.load 0 [99] [5], .pushIn 0 5, .popOut 0],
      (wduring (.ring ⟨1, none⟩) c).refusedAtPort c = false := by decide
  ⟨fun c hc => ⟨rfl, rfl, not_mustRefuse (h1 c hc)⟩, ⟨_, rfl⟩, rfl, rfl,
    fun c hc => ⟨rfl, rfl, nofun, not_mustRefuse (h2 c hc)⟩⟩

/-- A READY, a halted and a faulted instance. -/
theorem witness_ResumeBegins :
    ∀ x ∈ [wx, { wx with halted := true }, { wx with fault := some .unknownOpcode }],
      TakesUp (port [some x] [.resume 0 both]) (.resume 0 both) (port [some x] [])
        ∧ State.inst? (port [some x] [.resume 0 both]) 0 = some x := fun _ _ => ⟨.inr ⟨rfl, rfl, [], rfl, rfl⟩, rfl⟩

/-- A stop of a resume transaction of the host's own. -/
theorem witness_ResumeBegins_stop (st : Status) :
    (pat [some wx] (.stopped 0 st) .off).ctl = .stopped 0 st ∧ (pat [some wx] (.stopped 0 st) .off).sched = .off
      ∧ PortQuiet (pat [some wx] (.stopped 0 st) .off) := ⟨rfl, rfl, portQuiet_nil rfl⟩

/-- The largest word into a queue of depth 2 that holds one value; one above it; and a queue that holds two. -/
theorem witness_PushInAppends :
    ((wport (.pushIn 0 9223372036854775807)).inst? 0 = some wx
        ∧ representable (wport (.pushIn 0 9223372036854775807)).cfg 9223372036854775807 = true
        ∧ ∀ q, (wport (.pushIn 0 9223372036854775807)).cfg.queueDepth = some q → wx.inq.length < q)
      ∧ representable (wport (.pushIn 0 9223372036854775808)).cfg 9223372036854775808 = false
      ∧ (State.inst? { port [some { wx with inq := [1, 2] }] [.pushIn 0 1] with cfg := small } 0 = some { wx with inq := [1, 2] }
        ∧ ∃ q, small.queueDepth = some q ∧ q ≤ { wx with inq := [1, 2] }.inq.length)
      ∧ (∀ c, TakesUp (wport c) c { wport c with host := [] })
      ∧ (TakesUp (wduring .off (.pushIn 0 5)) (.pushIn 0 5) { wduring .off (.pushIn 0 5) with atPort := [] }
        ∧ (wduring .off (.pushIn 0 5)).inst? 0 = some wx) :=
  ⟨⟨rfl, by decide, fun q h => by cases h; decide⟩, by decide, ⟨rfl, 2, rfl, by decide⟩, takesUp_wport,
    takesUp_wduring (by decide) rfl, rfl⟩

/-- The instance's own OUTQ, a wired one, and an empty one. -/
theorem witness_PopOutTakesOldest :
    State.outQueue (port [some { wx with outq := [3, 4] }] [.popOut 0]) 0 = some [3, 4]
      ∧ State.outQueue (port [some { wx with outTo := some 0 }] [.popOut 0]) 0 = some [42]
      ∧ State.outQueue (port [some wx] [.popOut 0]) 0 = some []
      ∧ (wduring .off (.popOut 0)).outQueue 0 = some [] := by decide

/-- A pop in an idle block, and one presented while another instance runs. -/
theorem witness_PopOutTakesOldest_takesUp (l : List (Option Inst)) :
    TakesUp (port l [.popOut 0]) (.popOut 0) (port l [])
      ∧ TakesUp (wduring .off (.popOut 0)) (.popOut 0) { wduring .off (.popOut 0) with atPort := [] } :=
  ⟨.inr ⟨rfl, rfl, [], rfl, rfl⟩, takesUp_wduring (by decide) rfl⟩

/-- The three transactions; READ_MEM at -1, the last refused address, and at 0; a read during another instance's run, in
a pattern too; and READ_MEM of the running instance. -/
theorem witness_ReadsReturnAndChangeNothing :
    (∀ c ∈ [HostCmd.readOutq 0, .readStatus 0, .readMem 0 (-1), .readMem 0 0],
      TakesUp (wport c) c { wport c with host := [] } ∧ (wport c).inst? 0 = some wx ∧ (wport c).outQueue 0 = some [])
      ∧ (∀ d, TakesUp (wduring d (.readMem 0 7)) (.readMem 0 7) { wduring d (.readMem 0 7) with atPort := [] }
        ∧ (wduring d (.readMem 0 7)).inst? 0 = some wx ∧ (wduring d (.readMem 0 7)).outQueue 0 = some [])
      ∧ (wduring .off (.readMem 1 0)).ctl = .running 1 both ∧ (wduring .off (.readMem 1 0)).atPort = .readMem 1 0 :: [] :=
  ⟨fun c _ => ⟨takesUp_wport c, rfl, rfl⟩, fun d => ⟨takesUp_wduring_read d, rfl, rfl⟩, rfl, rfl⟩

/-- An instance that was never LOADed, and an index the block does not have: in an idle block, and at the ports while
another instance runs, in a pattern too. -/
theorem witness_UnloadedInstanceIsRefused :
    (∀ c ∈ [HostCmd.resume 0 both, .pushIn 0 1, .popOut 0, .readOutq 0, .readStatus 0, .readMem 0 7],
      (port [none] [c]).ctl = .idle ∧ (port [none] [c]).atPort = [] ∧ (port [none] [c]).host = c :: []
        ∧ (port [none] [c]).inst? 0 = none)
      ∧ (port [none] [.resume 1 both]).inst? 1 = none
      ∧ ∀ d, (wduring d (.resume 2 both)).atPort = .resume 2 both :: [] ∧ (wduring d (.resume 2 both)).inst? 2 = none :=
  ⟨fun _ _ => ⟨rfl, rfl, rfl, rfl⟩, rfl, fun _ => ⟨rfl, rfl⟩⟩

/-- A pipeline of two, at the turn of its last stage. -/
def wpipe : State := { pat [some (ld [99] []), none] .turn (.pipeline ⟨[99], [3, 4], 1, 7, false⟩) with cfg := small }

theorem witness_PipelineTurnLoadsStage :
    PortQuiet wpipe ∧ wpipe.ctl = .turn ∧ wpipe.sched = .pipeline ⟨[99], [3, 4], 1, 7, false⟩ ∧ ([3, 4] : List Word)[1]? = some 4
      ∧ 1 < wpipe.insts.length ∧ canLoad wpipe.cfg [99] [4, 7] = true :=
  ⟨portQuiet_nil rfl, by decide⟩

/-- Its RESUME is due: of a READY stage, and of one that is halted. -/
theorem witness_PipelineTurnLoadsStage_resume (h : Bool) :
    ∃ s : State, PortQuiet s ∧ s.ctl = .turn ∧ s.sched = .pipeline ⟨[99], [3, 4], 1, 7, true⟩
      ∧ s.inst? 1 = some { wx with halted := h } ∧ { wx with halted := h }.ready = !h :=
  ⟨pat [none, some { wx with halted := h }] .turn (.pipeline ⟨[99], [3, 4], 1, 7, true⟩), portQuiet_nil rfl, rfl, rfl, rfl, rfl⟩

/-- The start of a pipeline of two, of instances that were never LOADed. -/
theorem witness_PipelineTurnLoadsStage_boot :
    ∃ s u : State, s.cfg = small ∧ TakesUp s (.start (.pipeline [99] [9, 8])) u
      ∧ ([9, 8] : List Word).length = s.insts.length ∧ ([9, 8] : List Word) ≠ []
      ∧ ∀ ph ∈ ([9, 8] : List Word), canLoad s.cfg [99] [ph, s.cfg.pipelineInput] = true :=
  ⟨{ port [none, none] [.start (.pipeline [99] [9, 8])] with cfg := small }, { port [none, none] [] with cfg := small }, rfl,
    .inr ⟨rfl, rfl, [], rfl, rfl⟩, rfl, by decide, by decide⟩

/-- Stage i of a pipeline of two that halted with q in its OUTQ. -/
def wstage (i : Nat) (q : List Word) : State :=
  pat [some { wx with outq := q }, some { wx with outq := q }] (.stopped i .halted) (.pipeline ⟨[99], [3, 4], i, 0, true⟩)

/-- One value before and at the last of two stages; none; two. -/
theorem witness_PipelineStageEnds :
    ((wstage 0 [7]).outQueue 0 = some [7] ∧ 0 + 1 < ([3, 4] : List Word).length)
      ∧ ((wstage 1 [7]).outQueue 1 = some [7] ∧ ([3, 4] : List Word).length ≤ 1 + 1)
      ∧ ((wstage 0 []).outQueue 0 = some [] ∧ ([] : List Word).length ≠ 1)
      ∧ ((wstage 0 [1, 2]).outQueue 0 = some [1, 2] ∧ ([1, 2] : List Word).length ≠ 1)
      ∧ (wstage 1 [7]).ctl = .stopped 1 .halted ∧ (wstage 1 [7]).sched = .pipeline ⟨[99], [3, 4], 1, 0, true⟩
      ∧ ∀ i q, PortQuiet (wstage i q) :=
  ⟨by decide, by decide, by decide, by decide, rfl, rfl, fun _ _ => portQuiet_nil rfl⟩

/-- A ring of two, of instances that were never LOADed. -/
theorem witness_RingBoots :
    ∃ s u : State, s.cfg = small ∧ TakesUp s (.start (.ring [99] [9, 8])) u
      ∧ ([9, 8] : List Word).length = s.insts.length ∧ ([9, 8] : List Word) ≠ []
      ∧ (∀ ph ∈ ([9, 8] : List Word), canLoad s.cfg [99] [ph] = true) ∧ representable s.cfg s.cfg.ringInput = true
      ∧ ∀ q, s.cfg.queueDepth = some q → 2 ≤ q :=
  ⟨{ port [none, none] [.start (.ring [99] [9, 8])] with cfg := small }, { port [none, none] [] with cfg := small }, rfl,
    .inr ⟨rfl, rfl, [], rfl, rfl⟩, rfl, by decide, by decide, by decide,
    fun q h => by cases h; decide⟩

/-- The stop of instance i of a ring of two, the first halted as given, the second not running any more. -/
def wringStop (i : Nat) (st : Status) (h : Bool) : State :=
  pat [some { wx with outTo := some 1, halted := h }, some { ld [99] [4] with outTo := some 0, halted := true }]
    (.stopped i st) (.ring ⟨i, some 5⟩)

/-- One instance still runs, or both are halted; the last instance's push into INQ(0) = [42], the first one's, and a halt. -/
theorem witness_RingTurnsAndEnds :
    ((wringStop 1 .hasOutput false).outQueue 1 = some [42] ∧ 1 + 1 = (wringStop 1 .hasOutput false).insts.length
        ∧ ∃ o ∈ (wringStop 1 .hasOutput false).insts, ∀ x, o = some x → x.halted = false)
      ∧ ((wringStop 0 .hasOutput false).outQueue 0 = some [4] ∧ 0 + 1 ≠ (wringStop 0 .hasOutput false).insts.length)
      ∧ ((wringStop 0 .halted true).outQueue 0 = some [4]
        ∧ ∀ o ∈ (wringStop 0 .halted true).insts, ∃ x, o = some x ∧ x.halted = true)
      ∧ (wringStop 1 .hasOutput false).ctl = .stopped 1 .hasOutput ∧ (wringStop 1 .hasOutput false).sched = .ring ⟨1, some 5⟩
      ∧ ∀ i st h, PortQuiet (wringStop i st h) := by
  refine ⟨⟨rfl, rfl, _, List.mem_cons_self, fun x h => by cases h; rfl⟩, ⟨rfl, by decide⟩, ⟨rfl, fun o h => ?_⟩, rfl, rfl,
    fun _ _ _ => portQuiet_nil rfl⟩
  simp only [wringStop, pat, List.mem_cons, List.not_mem_nil, or_false] at h
  rcases h with rfl | rfl <;> exact ⟨_, rfl, rfl⟩

/-- A star network of two on a small block whose seeds are their own addresses, and with a list of seeds too short. -/
theorem witness_StarBoots :
    (∃ s u : State, s.cfg.natSeed = .ownAddress ∧ TakesUp s (.start (.star [99])) u ∧ s.insts ≠ []
        ∧ supplyOk s.cfg = true ∧ ∀ i : Nat, i < s.insts.length → canLoad s.cfg [99] [(i : Word)] = true)
      ∧ ∃ s u : State, s.cfg.natSeed = .table [[7]] ∧ TakesUp s (.start (.star [99])) u ∧ s.insts ≠ []
        ∧ supplyOk s.cfg = true
        ∧ ∀ i : Nat, i < s.insts.length → canLoad s.cfg [99] (([[7]] : List (List Word)).getD i []) = true :=
  ⟨⟨{ port [none, none] [.start (.star [99])] with cfg := small }, { port [none, none] [] with cfg := small }, rfl,
      .inr ⟨rfl, rfl, [], rfl, rfl⟩, by decide, by decide, by decide⟩,
    ⟨{ port [none, none] [.start (.star [99])] with cfg := { small with natSeed := .table [[7]] } },
      { port [none, none] [] with cfg := { small with natSeed := .table [[7]] } }, rfl, .inr ⟨rfl, rfl, [], rfl, rfl⟩, by decide, by decide, by decide⟩⟩

/-- The turn of a READY instance and of a halted one, in a ring and in a star network. -/
theorem witness_RingAndStarTurnsResume (h : Bool) :
    let x := { wx with halted := h }
    (∃ s : State, s.ctl = .turn ∧ PortQuiet s ∧ s.inst? 0 = some x ∧ s.sched = .ring ⟨0, none⟩ ∧ x.ready = !h)
      ∧ ∃ s : State, s.ctl = .turn ∧ PortQuiet s ∧ s.inst? 0 = some x ∧ s.sched = .star ⟨0, [[]], none, none, false, true⟩ :=
  ⟨⟨pat [some { wx with halted := h }] .turn (.ring ⟨0, none⟩), rfl, portQuiet_nil rfl, rfl, rfl, rfl⟩,
    ⟨pat [some { wx with halted := h }] .turn (.star ⟨0, [[]], none, none, false, true⟩), rfl, portQuiet_nil rfl, rfl, rfl⟩⟩

/-- The output 6 of instance 0 of a star network of two, whose triple so far is q. -/
def wstar (q : List Word) : State :=
  { pat [some { ld [99] [] with outq := [6] }, some (ld [99] [])] (.stopped 0 .hasOutput)
      (.star ⟨0, [q, []], none, none, false, false⟩) with cfg := small }

/-- Destinations -1 and 2 (no instance), 1 (the other instance) and 0 (the sender); triples of no and of one value. -/
theorem witness_StarAssemblesAndRoutes :
    (∀ q, (wstar q).ctl = .stopped 0 .hasOutput ∧ (wstar q).sched = .star ⟨0, [q, []], none, none, false, false⟩
        ∧ (wstar q).inst? 0 = some { ld [99] [] with outq := [6] } ∧ (wstar q).inst? 1 = some (ld [99] [])
        ∧ [q, []][0]? = some q ∧ PortQuiet (wstar q))
      ∧ { ld [99] [] with outq := [6] }.outTo = none ∧ (-1 : Word) < 0
      ∧ (((wstar [2, 5]).insts.length : Nat) : Word) ≤ 2
      ∧ (1 : Word) = ((1 : Nat) : Word) ∧ (0 : Word) = ((0 : Nat) : Word)
      ∧ (∀ q, small.queueDepth = some q → (ld [99] []).inq.length + 2 ≤ q)
      ∧ (∀ q, small.queueDepth = some q → { ld [99] [] with outq := [6] }.inq.length + 2 ≤ q)
      ∧ ([] : List Word).length < 2 ∧ ([1] : List Word).length < 2 :=
  ⟨fun _ => ⟨rfl, rfl, rfl, rfl, rfl, portQuiet_nil rfl⟩, rfl, by decide, by decide, rfl, rfl, fun q h => by cases h; decide,
    fun q h => by cases h; decide, by decide, by decide⟩

/-- A star network of one at the end of its round, with q in INQ(0), p in its triple and h held. -/
def wround (q p : List Word) (h : Option (Word × Word)) (st : Status) : State :=
  { pat [some (ld [99] q)] (.stopped 0 st) (.star ⟨0, [p], h, some (4, 9), false, false⟩) with cfg := small }

/-- Not idle for a queue and for a triple; idle with nothing held, with y = 9 again, and with another y; after a halt and
after a NeedsInput under Block. -/
theorem witness_StarRoundEnds :
    (∀ q p h st, (wround q p h st).ctl = .stopped 0 st ∧ (wround q p h st).sched = .star ⟨0, [p], h, some (4, 9), false, false⟩
        ∧ 0 + 1 = (wround q p h st).insts.length ∧ (wround q p h st).inst? 0 = some (ld [99] q)
        ∧ (wround q p h st).cfg.natEmptyRead = .block ∧ PortQuiet (wround q p h st))
      ∧ (∀ q, small.queueDepth = some q → 2 ≤ q)
      ∧ (ld [99] [1]).inq ≠ [] ∧ (∃ q ∈ ([[1]] : List (List Word)), q ≠ [])
      ∧ ((∀ j w, (wround [] [] (some (3, 9)) .halted).inst? j = some w → w.inq = [])
        ∧ (∀ q ∈ ([[]] : List (List Word)), q = [])
        ∧ (∃ x' y', some ((4 : Word), (9 : Word)) = some (x', y') ∧ 9 = y' ∧ (small.natCompare = .xy → 3 = x'))
        ∧ ¬ ∃ x' y', some ((4 : Word), (9 : Word)) = some (x', y') ∧ 8 = y' ∧ (small.natCompare = .xy → 3 = x')) := by
  refine ⟨fun _ _ _ _ => ⟨rfl, rfl, rfl, rfl, rfl, portQuiet_nil rfl⟩, fun q h => by cases h; decide, by decide, ⟨[1], by decide, by decide⟩,
    fun j w h => ?_, by decide, ⟨4, 9, rfl, rfl, fun h => by cases h⟩, ?_⟩
  · cases j with
    | zero => cases h; rfl
    | succ j => cases h
  · rintro ⟨x', y', h, h8, _⟩
    cases h
    exact absurd h8 (by decide)

/-- A halted turn before the last instance's, in a star network of two. -/
theorem witness_StarRoundEnds_next :
    ∃ s : State, s.ctl = .stopped 0 .halted ∧ PortQuiet s ∧ s.sched = .star ⟨0, [[], []], none, none, false, false⟩
      ∧ 0 + 1 < s.insts.length :=
  ⟨pat [some wx, some wx] (.stopped 0 .halted) (.star ⟨0, [[], []], none, none, false, false⟩), rfl, portQuiet_nil rfl, rfl,
    by decide⟩

/-- An instance of a star network of two that stopped with NeedsInput. -/
def wempty (c : Config) : State :=
  { pat [some (ld [3, 0] []), some wx] (.stopped 0 .needsInput) (.star ⟨0, [[], []], none, none, false, false⟩) with cfg := c }

/-- Block before the last of two instances, and Supply with room for one more value. -/
theorem witness_StarEmptyRead :
    (∀ c, (wempty c).ctl = .stopped 0 .needsInput ∧ (wempty c).sched = .star ⟨0, [[], []], none, none, false, false⟩
        ∧ (wempty c).inst? 0 = some (ld [3, 0] []) ∧ 0 + 1 < (wempty c).insts.length
        ∧ PortQuiet (wempty c))
      ∧ (ld [3, 0] []).ready = true ∧ small.natEmptyRead = .block
      ∧ Config.natEmptyRead { small with natEmptyRead := .supply (-1) } = .supply (-1)
      ∧ ∀ q, Config.queueDepth { small with natEmptyRead := .supply (-1) } = some q → (ld [3, 0] []).inq.length < q :=
  ⟨fun _ => ⟨rfl, rfl, rfl, show 0 + 1 < 2 by decide, portQuiet_nil rfl⟩, rfl, rfl, rfl, fun q h => by cases h; decide⟩

theorem witness_FaultStopsPattern :
    (pat [some wx] (.stopped 0 (.fault .unknownOpcode)) (.ring ⟨0, none⟩)).ctl = .stopped 0 (.fault .unknownOpcode)
      ∧ (pat [some wx] (.stopped 0 (.fault .unknownOpcode)) (.ring ⟨0, none⟩)).sched ≠ .off
      ∧ PortQuiet (pat [some wx] (.stopped 0 (.fault .unknownOpcode)) (.ring ⟨0, none⟩)) :=
  ⟨by decide, by decide, portQuiet_nil rfl⟩

end Sys2Proof.Tests
end

section
/-! The invariant of the data (O40; spec/00_scope.md R7 to R10, spec/10_state.md R22, R27, R30, spec/20_memory.md R49):
every operation of the block keeps it. An instance's part is `InstOk`, the block's is `DataOk`; each is the Boolean of
Sys2Proof/Safety.lean with its conjuncts named. -/

namespace Sys2Proof.Machine

/-! ### The invariant with named parts -/

/-- R7, R9: a queue of words within QUEUE_DEPTH. -/
structure QueueOk (c : Config) (q : List Word) : Prop where
  words : ∀ v ∈ q, representable c v = true
  depth : holds c q.length = true

/-- `Inst.ok`, its conjuncts named. -/
structure InstOk (c : Config) (x : Inst) : Prop where
  canonical : Mem.wf x.mem = true
  cells     : ∀ e ∈ x.mem, inLimit c e.1 = true ∧ representable c e.2 = true
  ip        : representable c x.ip = true
  rb        : representable c x.rb = true
  faultIp   : representable c x.faultIp = true
  inq       : QueueOk c x.inq
  outq      : QueueOk c x.outq
  exclusive : x.halted = true → x.fault = none

/-- `State.dataOk`, its conjuncts named. -/
structure DataOk (s : State) : Prop where
  legal    : s.cfg.legal = true
  nonempty : 1 ≤ s.insts.length
  sched    : Sched.ok s.cfg s.sched = true
  insts    : ∀ i x, s.inst? i = some x → InstOk s.cfg x

theorem instOk_iff {c : Config} {x : Inst} : InstOk c x ↔ Inst.ok c x = true := by
  rw [Inst.ok_iff]
  constructor
  · rintro ⟨hwf, hcells, hip, hrb, hfip, ⟨hiw, hid⟩, ⟨how, hod⟩, hex⟩
    exact ⟨hwf, hcells, hip, hrb, hfip, hiw, how, hid, hod, hex⟩
  · rintro ⟨hwf, hcells, hip, hrb, hfip, hiw, how, hid, hod, hex⟩
    exact ⟨hwf, hcells, hip, hrb, hfip, ⟨hiw, hid⟩, ⟨how, hod⟩, hex⟩

theorem dataOk_iff {s : State} : DataOk s ↔ s.dataOk = true := by
  rw [State.dataOk_iff]
  constructor
  · rintro ⟨hl, hn, hs, hi⟩
    exact ⟨hl, hn, hs, fun i x hx => instOk_iff.mp (hi i x hx)⟩
  · rintro ⟨hl, hn, hs, hi⟩
    exact ⟨hl, hn, hs, fun i x hx => instOk_iff.mpr (hi i x hx)⟩

section
variable {c : Config} {x : Inst} {q : List Word} {v : Word} {s t : State} {i : Nat}

/-! ### Queues -/

theorem QueueOk.nil : QueueOk c [] where
  words := by simp
  depth := holds_iff.mpr fun _ _ => Nat.zero_le _

theorem QueueOk.tail (h : QueueOk c q) : QueueOk c q.tail where
  words w hw := h.words w (List.mem_of_mem_tail hw)
  depth := holds_mono h.depth (by simp)

/-- Values pushed at the end, where the queue has room for them (R39, R104, R209). -/
theorem QueueOk.append {l : List Word} (h : QueueOk c q) (hl : ∀ v ∈ l, representable c v = true)
    (hd : holds c (q.length + l.length) = true) : QueueOk c (q ++ l) where
  words w hw := (List.mem_append.mp hw).elim (h.words w) (hl w)
  depth := by rwa [List.length_append]

theorem QueueOk.push (h : QueueOk c q) (hv : representable c v = true) (hd : holds c (q.length + 1) = true) :
    QueueOk c (q ++ [v]) :=
  h.append (by simpa using hv) hd

/-! ### What is done to an instance -/

theorem InstOk.setIp {n : Word} (h : InstOk c x) (hn : representable c n = true) : InstOk c { x with ip := n } :=
  { h with ip := hn }

theorem InstOk.setRb {r : Word} (h : InstOk c x) (hr : representable c r = true) : InstOk c { x with rb := r } :=
  { h with rb := hr }

theorem InstOk.setInq (h : InstOk c x) (hq : QueueOk c q) : InstOk c { x with inq := q } :=
  { h with inq := hq }

theorem InstOk.setOutq (h : InstOk c x) (hq : QueueOk c q) : InstOk c { x with outq := q } :=
  { h with outq := hq }

/-- R31: a wiring is no data. -/
theorem InstOk.setOutTo (h : InstOk c x) (o : Option Nat) : InstOk c { x with outTo := o } :=
  { h with }

/-- R50: a store of a word within MEM_LIMIT. -/
theorem InstOk.write {a : Nat} (h : InstOk c x) (ha : inLimit c a = true) (hv : representable c v = true) :
    InstOk c (x.write a v) :=
  { h with
    canonical := Mem.wf_write a v h.canonical
    cells := fun e he => by
      rcases Mem.mem_write he with rfl | he
      · exact ⟨ha, hv⟩
      · exact h.cells e he }

/-- R190: fault entry of an instance that has not halted. -/
theorem InstOk.takeFault (h : InstOk c x) (hh : x.halted = false) (k : FaultKind) :
    InstOk c { x with fault := some k, faultIp := x.ip } :=
  { h with
    faultIp := h.ip
    exclusive := fun e => absurd (hh.symm.trans e) (by decide) }

/-- R115: HALT of an instance that has not faulted. -/
theorem InstOk.halt (h : InstOk c x) (hf : x.fault = none) : InstOk c { x with halted := true } :=
  { h with exclusive := fun _ => hf }

/-- R37: what an accepted LOAD builds. -/
theorem InstOk.load {prog inbound : List Word} (hc : c.legal = true) (h : canLoad c prog inbound = true) :
    InstOk c (Inst.load prog inbound) := by
  obtain ⟨hprog, hin, hfit, hdepth⟩ := canLoad_iff.mp h
  have h0 : representable c 0 = true := representable_small hc le_rfl (by decide)
  exact {
    canonical := Mem.wf_ofProgram prog 0
    cells := fun e he => by
      obtain ⟨_, hlt, hmem⟩ := Mem.mem_ofProgram he
      refine ⟨inLimit_iff.mpr fun l hl => ?_, hprog _ hmem⟩
      have := fitsMemory_iff.mp hfit l hl
      omega
    ip := h0
    rb := h0
    faultIp := h0
    inq := ⟨hin, hdepth⟩
    outq := .nil
    exclusive := fun _ => rfl }

/-! ### What an instance reads -/

/-- R49: every cell holds a word. -/
theorem InstOk.read (hc : c.legal = true) (h : InstOk c x) (a : Nat) : representable c (Mem.read x.mem a) = true := by
  rcases Mem.read_mem x.mem a with h0 | hm
  · rw [h0]
    exact representable_small hc le_rfl (by decide)
  · exact (h.cells _ hm).2

theorem InstOk.readOperand {p : Param} (hc : c.legal = true) (h : InstOk c x) (hp : representable c p.raw = true)
    (hv : readOperand c x p = .ok v) : representable c v = true := by
  rcases readOperand_ok hv with rfl | ⟨a, rfl⟩
  · exact hp
  · exact h.read hc a

theorem InstOk.paramCellOf {n k : Nat} (hc : c.legal = true) (h : InstOk c x) (hv : paramCellOf c x n k = .ok v) :
    representable c v = true := by
  rcases Nat.lt_or_ge n k with hk | hk
  · rw [paramCellOf_absent hk] at hv
    cases hv
    exact representable_small hc le_rfl (by decide)
  · rw [paramCellOf_present hk] at hv
    obtain ⟨_, hm⟩ := paramCell_ok.mp hv
    obtain ⟨_, _, rfl⟩ := memRead_ok.mp hm
    exact h.read hc _

/-- R88: every raw value of the instruction is a word. -/
def RawsOk (c : Config) (ins : Instr) : Prop := ∀ p ∈ ins.paramList, representable c p.raw = true

/-- R70, R72: the parameters of a decoded word, as many as its kind has. -/
theorem instr_paramList (h : Head) (r1 r2 r3 : Word) :
    (h.instr r1 r2 r3).paramList = [⟨h.m1, r1⟩, ⟨h.m2, r2⟩, ⟨h.m3, r3⟩].take h.op.params := by
  obtain ⟨op, m1, m2, m3⟩ := h
  cases op <;> rfl

/-- R72: the raw values of an instruction are those of its parameter cells. -/
theorem instr_raw {h : Head} {r1 r2 r3 : Word} {p : Param} (hp : p ∈ (h.instr r1 r2 r3).paramList) :
    p.raw = r1 ∨ p.raw = r2 ∨ p.raw = r3 := by
  rw [instr_paramList] at hp
  have hp' : p ∈ [⟨h.m1, r1⟩, ⟨h.m2, r2⟩, ⟨h.m3, r3⟩] := List.mem_of_mem_take hp
  simp only [List.mem_cons, List.not_mem_nil, or_false] at hp'
  exact hp'.imp (congrArg Param.raw) (Or.imp (congrArg Param.raw) (congrArg Param.raw))

theorem InstOk.fetch {ins : Instr} (hc : c.legal = true) (h : InstOk c x) (hf : fetch c x = .ok ins) :
    RawsOk c ins := by
  obtain ⟨w, hd, r1, r2, r3, _, _, h1, h2, h3, rfl⟩ := fetch_ok.mp hf
  intro p hp
  rcases instr_raw hp with e | e | e <;> rw [e]
  · exact h.paramCellOf hc h1
  · exact h.paramCellOf hc h2
  · exact h.paramCellOf hc h3

/-! ### What is done to the block -/

theorem DataOk.setInst (h : DataOk s) (hx : InstOk s.cfg x) : DataOk (s.setInst i x) where
  legal := h.legal
  nonempty := by simpa using h.nonempty
  sched := h.sched
  insts j y hy := by
    have hj : j < s.insts.length := by simpa using State.inst?_lt hy
    by_cases hji : j = i
    · subst hji
      rw [State.inst?_setInst_self hj] at hy
      cases hy
      exact hx
    · rw [State.inst?_setInst_ne hji] at hy
      exact h.insts j y hy

/-- R36: who moves next is no data. -/
theorem DataOk.setCtl (h : DataOk s) (k : Control) : DataOk { s with ctl := k } := { h with }

theorem DataOk.setAtPort (h : DataOk s) (l : List HostCmd) : DataOk { s with atPort := l } := { h with }

theorem DataOk.setHost (h : DataOk s) (l : List HostCmd) : DataOk { s with host := l } := { h with }

theorem DataOk.stop (h : DataOk s) (st : Status) : DataOk (s.stop i st) := { h with }

theorem DataOk.reply (h : DataOk s) (r : Reply) : DataOk (s.reply r) := { h with }

theorem DataOk.finish (h : DataOk s) (e : PatternEnd) : DataOk (s.finish e) := { h with sched := rfl }

theorem DataOk.nextTurn {d : Sched} (h : DataOk s) (hd : Sched.ok s.cfg d = true) : DataOk (s.nextTurn d) :=
  { h with sched := hd }

/-- The boot of a pattern replaces every instance (R204, R207). -/
theorem DataOk.setInsts {l : List (Option Inst)} (h : DataOk s) (hl : 1 ≤ l.length)
    (hi : ∀ (j : Nat) y, l[j]? = some (some y) → InstOk s.cfg y) : DataOk { s with insts := l } :=
  { h with
    nonempty := hl
    insts := fun j y hy => hi j y (State.inst?_eq_some.mp hy) }

theorem DataOk.running {m : Mask} (h : DataOk s) (hr : Running s i m x) : InstOk s.cfg x := h.insts i x hr.2.1

theorem DataOk.takeFault {m : Mask} (h : DataOk s) (hr : Running s i m x) (k : FaultKind) :
    DataOk (s.takeFault i k) := by
  obtain ⟨_, hx, hh, _⟩ := hr
  rw [State.takeFault_eq hx]
  exact (h.setInst ((h.insts i x hx).takeFault hh k)).stop _

/-- R30, R31: OUTQ(i) is a queue of the block. -/
theorem DataOk.outQueue (h : DataOk s) (hq : s.outQueue i = some q) : QueueOk s.cfg q := by
  rcases State.outQueue_cases hq with ⟨x, hx, _, rfl⟩ | ⟨_, j, y, _, _, hy, rfl⟩
  · exact (h.insts i x hx).outq
  · exact (h.insts j y hy).inq

theorem DataOk.setOutQueue (h : DataOk s) (hq : QueueOk s.cfg q) : DataOk (s.setOutQueue i q) := by
  unfold State.setOutQueue
  split
  · exact h
  · next x hx =>
    split
    · exact h.setInst ((h.insts i x hx).setOutq hq)
    · next j _ =>
      split
      · exact h
      · next y hy => exact h.setInst ((h.insts j y hy).setInq hq)

/-- R195: a resume transaction that begins changes who moves next, and no data. -/
theorem DataOk.beginResume {m : Mask} (h : DataOk s) (ht : s.beginResume i m = some t) : DataOk t := by
  obtain ⟨x, _, ⟨k, _, rfl⟩ | ⟨_, _, rfl⟩ | ⟨_, rfl⟩⟩ := State.beginResume_eq_some ht <;> exact h.setCtl _

theorem DataOk.load {prog inbound : List Word} (h : DataOk s) (ht : s.load i prog inbound = some t) : DataOk t := by
  obtain ⟨_, hc, rfl⟩ := State.load_eq_some.mp ht
  exact h.setInst (.load h.legal hc)

theorem DataOk.pushIn (h : DataOk s) (ht : s.pushIn i v = some t) : DataOk t := by
  obtain ⟨x, hx, hv, hd, rfl⟩ := State.pushIn_eq_some.mp ht
  have hok := h.insts i x hx
  exact h.setInst (hok.setInq (hok.inq.push hv hd))

theorem DataOk.popOut {r : Option Word} (h : DataOk s) (ht : s.popOut i = some (t, r)) : DataOk t := by
  obtain ⟨q, hq, _, ⟨_, rfl⟩ | ⟨_, rfl⟩⟩ := State.popOut_eq_some.mp ht
  · exact h
  · exact h.setOutQueue (h.outQueue hq).tail

/-- R40: what is popped is a word. -/
theorem DataOk.popped (h : DataOk s) (ht : s.popOut i = some (t, some v)) : representable s.cfg v = true := by
  obtain ⟨q, hq, hv, _⟩ := State.popOut_eq_some.mp ht
  exact (h.outQueue hq).words v (List.mem_of_mem_head? hv.symm)

theorem State.popOut_cfg {r : Option Word} (ht : s.popOut i = some (t, r)) : t.cfg = s.cfg := by
  obtain ⟨q, _, _, ⟨_, rfl⟩ | ⟨_, rfl⟩⟩ := State.popOut_eq_some.mp ht <;> simp

theorem DataOk.append (h : DataOk s) (hv : representable s.cfg v = true) (ht : s.append i v = .ok t) : DataOk t := by
  obtain ⟨x, hx, hd, rfl⟩ := State.append_ok.mp ht
  have hok := h.insts i x hx
  exact h.setInst (hok.setInq (hok.inq.push hv hd))

theorem DataOk.append2 {a b : Word} (h : DataOk s) (ha : representable s.cfg a = true)
    (hb : representable s.cfg b = true) (ht : s.append2 i a b = .ok t) : DataOk t := by
  obtain ⟨x, hx, hd, rfl⟩ := State.append2_ok.mp ht
  have hok := h.insts i x hx
  exact h.setInst (hok.setInq (hok.inq.append (by simp [ha, hb]) hd))

theorem State.append_cfg (ht : s.append i v = .ok t) : t.cfg = s.cfg := by
  obtain ⟨x, _, _, rfl⟩ := State.append_ok.mp ht
  rfl

theorem State.append2_cfg {a b : Word} (ht : s.append2 i a b = .ok t) : t.cfg = s.cfg := by
  obtain ⟨x, _, _, rfl⟩ := State.append2_ok.mp ht
  rfl

end

/-! ### Instructions -/

section
variable {s t : State} {i : Nat} {m : Mask} {x : Inst} {p1 p2 p3 : Param}

/-- A result function gives words of every legal width. -/
def ResultOk (r : Config → Word → Word → Except FaultKind Word) : Prop :=
  ∀ c v1 v2 v, c.legal = true → r c v1 v2 = .ok v → representable c v = true

theorem representable_of_checkValue {c : Config} {v w : Word} (h : checkValue c v = .ok w) :
    representable c w = true := by
  obtain ⟨rfl, hr⟩ := checkValue_ok.mp h
  exact hr

theorem representable_boolWord {c : Config} (hc : c.legal = true) (b : Bool) : representable c (boolWord b) = true := by
  cases b
  · exact representable_small hc (by decide) (by decide)
  · exact representable_small hc (by decide) (by decide)

theorem sumResult_ok : ResultOk sumResult := fun _ _ _ _ _ h => representable_of_checkValue h

theorem productResult_ok : ResultOk productResult := fun _ _ _ _ _ h => representable_of_checkValue h

theorem lessResult_ok : ResultOk lessResult := fun _ _ _ _ hc h => by
  cases h
  exact representable_boolWord hc _

theorem equalResult_ok : ResultOk equalResult := fun _ _ _ _ hc h => by
  cases h
  exact representable_boolWord hc _

/-- R98, R99, R111, R112: no operand's value is stored, so the raw values do not matter here. -/
theorem DataOk.store3 {r : Config → Word → Word → Except FaultKind Word} (h : DataOk s) (hr : Running s i m x)
    (hres : ResultOk r) (ht : store3 r p1 p2 p3 s = .next t) : DataOk t := by
  rcases store3_next hr ht with ⟨k, _, rfl⟩ | ⟨ea, v, n, hc, rfl⟩
  · exact h.takeFault hr k
  · obtain ⟨v1, v2, _, _, hea, hv, hn⟩ := check3_ok.mp hc
    have hw := (h.running hr).write (writeAddress_ok hea) (hres _ _ _ _ h.legal hv)
    exact h.setInst (hw.setIp (representable_of_checkValue hn))

/-- R107, R108: the next ip is the target, a word read, or the advance. -/
theorem DataOk.jump {taken : Word → Bool} (h : DataOk s) (hr : Running s i m x)
    (hp : representable s.cfg p2.raw = true) (ht : jump taken p1 p2 s = .next t) : DataOk t := by
  rcases jump_next hr ht with ⟨k, _, rfl⟩ | ⟨n, hc, rfl⟩
  · exact h.takeFault hr k
  · obtain ⟨v1, v2, _, hv2, hn⟩ := checkJump_ok.mp hc
    have hok := h.running hr
    refine h.setInst (hok.setIp ?_)
    split at hn
    · exact hn ▸ hok.readOperand h.legal hp hv2
    · exact representable_of_checkValue hn

theorem DataOk.execInp (h : DataOk s) (hr : Running s i m x) (ht : execInp p1 s = .next t) : DataOk t := by
  rcases execInp_next hr ht with ⟨k, _, rfl⟩ | ⟨ea, n, hc, ⟨_, _, rfl⟩ | ⟨_, _, rfl⟩ | ⟨v, q, hq, rfl⟩⟩
  · exact h.takeFault hr k
  · exact h.stop _
  · exact h.takeFault hr _
  · obtain ⟨hea, hn⟩ := checkIn_ok.mp hc
    have hok := h.running hr
    have hv : representable s.cfg v = true := hok.inq.words v (by simp [hq])
    have hq' : QueueOk s.cfg q := by simpa [hq] using hok.inq.tail
    exact h.setInst (((hok.write (writeAddress_ok hea) hv).setIp (representable_of_checkValue hn)).setInq hq')

theorem DataOk.outState {n v : Word} {q : List Word} (h : DataOk s) (hr : Running s i m x)
    (hn : representable s.cfg n = true) (hq : QueueOk s.cfg (q ++ [v])) : DataOk (outState s i m x n v q) := by
  have hset : DataOk (s.setInst i { x with ip := n }) := h.setInst ((h.running hr).setIp hn)
  have hout : DataOk ((s.setInst i { x with ip := n }).setOutQueue i (q ++ [v])) := hset.setOutQueue hq
  unfold Machine.outState
  split
  · exact hout.stop _
  · exact hout

theorem DataOk.execOut (h : DataOk s) (hr : Running s i m x) (hp : representable s.cfg p1.raw = true)
    (ht : execOut p1 s = .next t) : DataOk t := by
  rcases execOut_next hr ht with ⟨k, _, rfl⟩ | ⟨v, n, q, hc, hq, ⟨hd, rfl⟩ | ⟨_, rfl⟩⟩
  · exact h.takeFault hr k
  · obtain ⟨hv, hn⟩ := checkOut_ok.mp hc
    have hword := (h.running hr).readOperand h.legal hp hv
    exact h.outState hr (representable_of_checkValue hn) ((h.outQueue hq).push hword hd)
  · exact h.takeFault hr _

theorem DataOk.execArb (h : DataOk s) (hr : Running s i m x) (ht : execArb p1 s = .next t) : DataOk t := by
  rcases execArb_next hr ht with ⟨k, _, rfl⟩ | ⟨r, n, hc, rfl⟩
  · exact h.takeFault hr k
  · obtain ⟨v, _, hrb, hn⟩ := checkArb_ok.mp hc
    have hok := h.running hr
    exact h.setInst ((hok.setRb (representable_of_checkValue hrb)).setIp (representable_of_checkValue hn))

theorem DataOk.execHalt (h : DataOk s) (hr : Running s i m x) (ht : execHalt s = .next t) : DataOk t := by
  rw [execHalt_eq hr] at ht
  cases ht
  have hok := h.running hr
  obtain ⟨_, _, _, hf⟩ := hr
  exact (h.setInst (hok.halt hf)).stop _

/-- R97: every instruction whose raw values are words. -/
theorem DataOk.exec {ins : Instr} (h : DataOk s) (hr : Running s i m x) (hp : RawsOk s.cfg ins)
    (ht : exec ins s = .next t) : DataOk t := by
  cases ins with
  | add => exact h.store3 hr sumResult_ok ht
  | mul => exact h.store3 hr productResult_ok ht
  | inp => exact h.execInp hr ht
  | out p1 => exact h.execOut hr (hp p1 (by simp [Instr.paramList])) ht
  | jt p1 p2 => exact h.jump hr (hp p2 (by simp [Instr.paramList])) ht
  | jf p1 p2 => exact h.jump hr (hp p2 (by simp [Instr.paramList])) ht
  | lt => exact h.store3 hr lessResult_ok ht
  | eq => exact h.store3 hr equalResult_ok ht
  | arb => exact h.execArb hr ht
  | halt => exact h.execHalt hr ht

theorem DataOk.stepInstruction (h : DataOk s) (ht : stepInstruction Machine.exec s = .next t) : DataOk t := by
  obtain ⟨i, m, x, hr, hk⟩ := State.onActive_next ht
  rcases State.attempt_next hk with ⟨k, _, rfl⟩ | ⟨ins, hf, he⟩
  · exact h.takeFault hr k
  · exact h.exec hr ((h.running hr).fetch h.legal hf) he

end

/-! ### The host's transactions -/

section
variable {s t : State} {i : Nat} {prog phases : List Word}

/-- A transaction is performed, or refused with nothing but a reply. -/
theorem DataOk.orRefuse {c : HostCmd} {o : Option State} (h : DataOk s) (ho : ∀ u, o = some u → DataOk u)
    (ht : s.orRefuse c o = .next t) : DataOk t := by
  rcases State.orRefuse_next ht with e | ⟨_, rfl⟩
  · exact ho t e
  · exact h.reply _

theorem DataOk.answer {α : Type} {c : HostCmd} {v : Option α} {r : α → Reply} (h : DataOk s)
    (ht : s.answer c v r = .next t) : DataOk t := by
  obtain ⟨r, rfl⟩ := State.answer_next ht
  exact h.reply r

/-- R201, R202. -/
theorem DataOk.startPipeline (h : DataOk s) (ht : startPipeline prog phases s = some t) : DataOk t := by
  obtain ⟨_, _, _, rfl⟩ := startPipeline_eq_some.mp ht
  exact h.nextTurn rfl

/-- R204, R230: the ring's instances are LOADed, and RING_INPUT is a word. -/
theorem DataOk.startRing (h : DataOk s) (hr : startRing prog phases s = some (.ok t)) : DataOk t := by
  obtain ⟨hpos, hlen, hload, hin, ht⟩ := startRing_eq_some hr
  have hset : DataOk { s with insts := ringInsts prog phases.length 0 phases } := by
    refine h.setInsts (by rw [ringInsts_length]; omega) fun j y hy => ?_
    obtain ⟨ph, hph, e⟩ := ringInsts_get hy
    cases e
    exact (InstOk.load h.legal (hload ph (List.mem_of_getElem? hph))).setOutTo _
  have hturn : DataOk ({ s with insts := ringInsts prog phases.length 0 phases }.nextTurn
      (.ring { next := 0, last := none })) := hset.nextTurn rfl
  exact hturn.append hin ht.symm

/-- R207, R228: the network's instances are LOADed, its triples are empty, nothing is held. -/
theorem DataOk.startStar (h : DataOk s) (ht : startStar prog s = some t) : DataOk t := by
  obtain ⟨hpos, hload, hsup, rfl⟩ := startStar_eq_some ht
  refine DataOk.nextTurn (h.setInsts ?_ fun j y hy => ?_) (Sched.ok_star.mpr ⟨fun q hq => ?_, hsup, by simp⟩)
  · rw [List.length_map, natSeeds_length]
    exact hpos
  · rw [List.getElem?_map, Option.map_eq_some_iff] at hy
    obtain ⟨q, hq, e⟩ := hy
    cases e
    exact .load h.legal (hload q (List.mem_of_getElem? hq))
  · simp [List.eq_of_mem_replicate hq]

theorem DataOk.startPattern {p : Pattern} (h : DataOk s) (ht : startPattern p s = .next t) : DataOk t := by
  cases p with
  | pipeline => exact h.orRefuse (fun _ => h.startPipeline) ht
  | star => exact h.orRefuse (fun _ => h.startStar) ht
  | ring prog phases =>
    unfold Machine.startPattern at ht
    rcases hr : Machine.startRing prog phases s with _ | e
    · simp only [hr, Host.Outcome.next.injEq] at ht
      exact ht ▸ h.reply _
    · simp only [hr] at ht
      obtain ⟨u, rfl, hu⟩ := orFault_next ht
      cases hu
      exact h.startRing hr

/-- R36 to R42. -/
theorem DataOk.perform {c : HostCmd} (h : DataOk s) (ht : perform c s = .next t) : DataOk t := by
  cases c with
  | load =>
    refine h.orRefuse (fun u hu => ?_) ht
    obtain ⟨w, hw, rfl⟩ := Option.map_eq_some_iff.mp hu
    exact (h.load hw).reply _
  | resume => exact h.orRefuse (fun _ => h.beginResume) ht
  | pushIn =>
    refine h.orRefuse (fun u hu => ?_) ht
    obtain ⟨w, hw, rfl⟩ := Option.map_eq_some_iff.mp hu
    exact (h.pushIn hw).reply _
  | popOut =>
    refine h.orRefuse (fun u hu => ?_) ht
    obtain ⟨⟨w, r⟩, hw, rfl⟩ := Option.map_eq_some_iff.mp hu
    exact (h.popOut hw).reply _
  | readOutq => exact h.answer ht
  | readStatus => exact h.answer ht
  | readMem => exact h.answer ht
  | start => exact h.startPattern ht

theorem DataOk.stepPresented {c : HostCmd} (h : DataOk s) (ht : stepPresented c s = .next t) : DataOk t := by
  by_cases hm : MustRefuse s c
  · rw [stepPresented_refuses hm] at ht
    cases ht
    exact h.reply _
  · rw [stepPresented_performs hm] at ht
    exact h.perform ht

theorem DataOk.stepIdle (h : DataOk s) (ht : stepIdle s = .next t) : DataOk t := by
  rcases hh : s.host with _ | ⟨c, l⟩
  · rw [stepIdle_nil hh] at ht
    cases ht
    exact h
  · rw [stepIdle_cons hh] at ht
    exact (h.setHost l).perform ht

end

/-! ### The scheduler -/

section
variable {s t : State} {i : Nat} {st : Status} {n : Star} {v : Word}

theorem DataOk.pipelineTurn {p : Pipeline} (h : DataOk s) (ht : pipelineTurn p s = .next t) : DataOk t := by
  rcases pipelineTurn_next ht with ⟨_, hb⟩ | ⟨ph, _, _, _, hc, rfl⟩
  · exact h.beginResume hb
  · exact (h.setInst (.load h.legal hc)).nextTurn rfl

theorem DataOk.pipelineStop {p : Pipeline} (h : DataOk s) (ht : pipelineStop p i st s = .next t) : DataOk t := by
  rcases pipelineStop_next ht with ⟨e, rfl⟩ | ⟨v, _, _, _, rfl⟩
  · exact h.finish e
  · exact h.nextTurn rfl

theorem DataOk.ringStop {r : Ring} (h : DataOk s) (ht : ringStop r i st s = .next t) : DataOk t := by
  rcases ringStop_next ht with ⟨e, rfl⟩ | ⟨l, rfl⟩
  · exact h.finish e
  · exact h.nextTurn rfl

/-- R208, R212 to R214: the triples stay as they are, and a packet injected is the one held. -/
theorem DataOk.starEndTurn (h : DataOk s) (hn : Sched.ok s.cfg (.star n) = true)
    (ht : starEndTurn n i s = .next t) : DataOk t := by
  rcases starEndTurn_next ht with ⟨_, rfl⟩ | rfl | ⟨_, rfl⟩ | ⟨x, y, u, hheld, hu, e⟩
  · exact h.nextTurn hn
  · exact h.nextTurn hn
  · exact h.finish _
  · obtain ⟨_, _, hwords⟩ := Sched.ok_star.mp hn
    obtain ⟨hx, hy⟩ := hwords x y hheld
    have hu' : DataOk u := h.append2 hx hy hu
    rcases e with rfl | rfl
    · exact hu'.finish _
    · exact hu'.nextTurn (State.append2_cfg hu ▸ hn)

/-- R209: instance i's triple with the value collected is made of words. -/
theorem Sched.ok_star_collected {c : Config} (hn : Sched.ok c (.star n) = true) (hv : representable c v = true) :
    ∀ w ∈ n.part.getD i [] ++ [v], representable c w = true := by
  obtain ⟨hpart, _, _⟩ := Sched.ok_star.mp hn
  intro w hw
  rcases List.mem_append.mp hw with hw | hw
  · rcases Nat.lt_or_ge i n.part.length with hi | hi
    · rw [List.getD_eq_getElem _ _ hi] at hw
      exact hpart _ (List.getElem_mem hi) w hw
    · rw [List.getD_eq_default _ _ hi] at hw
      cases hw
  · rw [List.mem_singleton.mp hw]
    exact hv

/-- R207, R209: a triple replaced by words. -/
theorem Sched.ok_star_setPart {c : Config} {q : List Word} (hn : Sched.ok c (.star n) = true)
    (hq : ∀ w ∈ q, representable c w = true) :
    Sched.ok c (.star { n with roundOut := true, part := n.part.set i q }) = true := by
  obtain ⟨hpart, hsup, hheld⟩ := Sched.ok_star.mp hn
  refine Sched.ok_star.mpr ⟨fun p hp => ?_, hsup, hheld⟩
  rcases List.mem_or_eq_of_mem_set hp with hp | rfl
  · exact hpart p hp
  · exact hq

/-- R210: a packet of words held. -/
theorem Sched.ok_star_setHeld {c : Config} {x y : Word} (hn : Sched.ok c (.star n) = true)
    (hx : representable c x = true) (hy : representable c y = true) :
    Sched.ok c (.star { n with held := some (x, y) }) = true := by
  obtain ⟨hpart, hsup, _⟩ := Sched.ok_star.mp hn
  refine Sched.ok_star.mpr ⟨hpart, hsup, fun a b e => ?_⟩
  cases e
  exact ⟨hx, hy⟩

/-- R209, R210. -/
theorem DataOk.starCollect (h : DataOk s) (hn : Sched.ok s.cfg (.star n) = true) (hv : representable s.cfg v = true)
    (ht : starCollect n i v s = .next t) : DataOk t := by
  have hq := Sched.ok_star_collected (i := i) hn hv
  have hempty := Sched.ok_star_setPart (i := i) (q := []) hn (by simp)
  rcases starCollect_next ht with ⟨d, x, y, u, hp, _, _, hu, he⟩ | ⟨d, x, y, hp, _, he⟩ | he
  · rw [hp] at hq
    have hu' : DataOk u := h.append2 (hq x (by simp)) (hq y (by simp)) hu
    exact hu'.starEndTurn (State.append2_cfg hu ▸ hempty) he
  · rw [hp] at hq
    exact h.starEndTurn (Sched.ok_star_setHeld hempty (hq x (by simp)) (hq y (by simp))) he
  · exact h.starEndTurn (Sched.ok_star_setPart hn hq) he

/-- R211: the value NAT_EMPTY_READ supplies is a word. -/
theorem DataOk.starEmptyRead (h : DataOk s) (hn : Sched.ok s.cfg (.star n) = true)
    (ht : starEmptyRead n i s = .next t) : DataOk t := by
  rcases starEmptyRead_next ht with he | ⟨v, u, hsup, _, hu, rfl⟩
  · exact h.starEndTurn hn he
  · obtain ⟨_, hs, _⟩ := Sched.ok_star.mp hn
    have hv : representable s.cfg v = true := by simpa [supplyOk, hsup] using hs
    exact (h.append hv hu).nextTurn (State.append_cfg hu ▸ hn)

theorem DataOk.starStop (h : DataOk s) (hn : Sched.ok s.cfg (.star n) = true) (ht : starStop n i st s = .next t) :
    DataOk t := by
  rcases starStop_next ht with ⟨k, _, rfl⟩ | ⟨_, he⟩ | ⟨_, u, v, hp, hc⟩ | ⟨_, he⟩
  · exact h.finish _
  · exact h.starEndTurn hn he
  · have hcfg := State.popOut_cfg hp
    exact (h.popOut hp).starCollect (hcfg ▸ hn) (hcfg ▸ h.popped hp) hc
  · exact h.starEmptyRead hn he

/-- R195, R200: a stop goes to the host, or to the pattern that runs. -/
theorem DataOk.stepStopped (h : DataOk s) (ht : stepStopped i st s = .next t) : DataOk t := by
  unfold Machine.stepStopped at ht
  have hsched := h.sched
  rcases hd : s.sched with _ | p | r | n <;> simp only [hd] at ht hsched
  · cases ht
    exact { h with sched := hd ▸ h.sched }
  · exact h.pipelineStop ht
  · exact h.ringStop ht
  · exact h.starStop hsched ht

theorem DataOk.stepTurn (h : DataOk s) (ht : stepTurn s = .next t) : DataOk t := by
  unfold Machine.stepTurn at ht
  rcases hd : s.sched with _ | p | r | n <;> simp only [hd] at ht
  · cases ht
  · exact h.pipelineTurn ht
  · exact h.beginResume (State.issueTurn_next ht)
  · exact h.beginResume (State.issueTurn_next ht)

end

/-! ### The step -/

theorem DataOk.stepOwn {s t : State} (h : DataOk s) (ht : stepOwn Machine.exec s = .next t) : DataOk t := by
  unfold Machine.stepOwn at ht
  rcases hc : s.ctl with _ | ⟨i, m⟩ | ⟨i, st⟩ | _ <;> simp only [hc] at ht
  · exact h.stepIdle ht
  · exact h.stepInstruction ht
  · exact h.stepStopped ht
  · exact h.stepTurn ht

theorem DataOk.step {s t : State} (h : DataOk s) (ht : step s = .next t) : DataOk t := by
  rcases portQuiet_or s with ⟨_, e⟩ | ⟨c, l, _, _, e⟩
  · exact h.stepOwn (e ▸ ht)
  · exact (h.setAtPort l).stepPresented (e ▸ ht)

/-- Settles O40: the invariant, its conjuncts named (`DataOk`), is kept by whatever a step does. -/
theorem stepKeepsData : Obligations.StepKeepsData := fun _ _ hs ht =>
  dataOk_iff.mp ((dataOk_iff.mpr hs).step ht)

end Sys2Proof.Machine
end

section
/-! What instructions do to a wired queue, what the three-operand instructions leave alone, and who writes the cursor
(O16, O23, O27; spec/10_state.md R23 to R25, R28, R31, spec/40_datapath.md R95, R96, spec/42_io.md R102, R104). -/

namespace Sys2Proof.Machine

section
variable {s t : State} {i : Nat} {m : Mask} {x y : Inst} {p1 p2 p3 : Param} {ins : Instr}

/-! ### A wired OUTQ -/

/-- R31, R104: OUT passes its checks where the operand can be read, the advance is a word and INQ(j) has room. -/
theorem execOut_wired {j : Nat} {z : Inst} {v : Word} (hr : Running s i m x) (hv : readOperand s.cfg x p1 = .ok v)
    (hip : representable s.cfg (x.ip + 2) = true) (hw : x.outTo = some j) (hz : s.inst? j = some z)
    (hd : ∀ q, s.cfg.queueDepth = some q → z.inq.length < q) :
    execOut p1 s = .next (outState s i m x (x.ip + 2) v z.inq) := by
  have hc : checkOut s.cfg x p1 = .ok (v, x.ip + 2) := checkOut_ok.mpr ⟨hv, advance_ok.mpr ⟨rfl, hip⟩⟩
  exact execOut_ok hr hc (State.outQueue_wired hr.2.1 hw hz) (holds_iff.mpr hd)

/-- R31: every instance after OUT on a queue wired to INQ(j): j is the instance itself, or another one. -/
theorem outState_wired {j : Nat} {z : Inst} {n v : Word} (hx : s.inst? i = some x) (hw : x.outTo = some j)
    (hz : s.inst? j = some z) :
    (j = i ∧ z = x ∧ OnlyInst s i { x with ip := n, inq := x.inq ++ [v] } (outState s i m x n v z.inq))
      ∨ (j ≠ i ∧ (outState s i m x n v z.inq).inst? i = some { x with ip := n }
        ∧ (outState s i m x n v z.inq).inst? j = some { z with inq := z.inq ++ [v] }
        ∧ ∀ k, k ≠ i → k ≠ j → (outState s i m x n v z.inq).inst? k = s.inst? k) := by
  rcases outState_cases (m := m) (n := n) (v := v) hx (State.outQueue_wired hx hw hz) with
    ⟨hw', _⟩ | ⟨hw', h⟩ | ⟨k, z', hk, hw', hz', h⟩
  · simp [hw] at hw'
  · obtain rfl : j = i := by simpa [hw] using hw'
    obtain rfl : z = x := by simpa [hx] using hz.symm
    refine .inl ⟨rfl, rfl, by rw [h, if_pos rfl], fun k hk => by rw [h, if_neg hk], ?_⟩
    simp
  · obtain rfl : j = k := by simpa [hw] using hw'
    obtain rfl : z = z' := by simpa [hz] using hz'
    refine .inr ⟨hk, by rw [h, if_pos rfl], by rw [h, if_neg hk, if_pos rfl], fun l hi hj => ?_⟩
    rw [h, if_neg hi, if_neg hj]

/-! ### Three operands -/

/-- R98, R99, R111, R112: a three-operand instruction that takes no fault changes its instance's memory at the write
address, and its ip. -/
theorem store3_frame {r : Config → Word → Word → Except FaultKind Word} (hr : Running s i m x)
    (h : store3 r p1 p2 p3 s = .next t) (hy : t.inst? i = some y) (hf : y.fault = none) :
    OnlyInst s i y t ∧ t.ctl = s.ctl ∧ SameBesidesMemAndIp x y
      ∧ ∀ (ea b : Nat), writeAddress s.cfg x p3 = .ok ea → b ≠ ea → Mem.read y.mem b = Mem.read x.mem b := by
  rcases store3_next hr h with ⟨k, _, rfl⟩ | ⟨ea, v, n, hc, rfl⟩
  · rw [takeFault_inst?_eq hr hy] at hf
    cases hf
  · obtain ⟨_, _, _, _, hea, _, _⟩ := check3_ok.mp hc
    obtain rfl := setInst_inst?_eq hr hy
    refine ⟨onlyInst_setInst hr.lt, rfl, ⟨rfl, rfl, rfl, rfl, rfl, rfl, rfl⟩, fun ea' b hea' hb => ?_⟩
    obtain rfl : ea = ea' := by simpa [hea] using hea'
    exact Mem.read_write_ne x.mem v hb

/-! ### Who writes the cursor and HALTED -/

/-- R23 to R25, R95, R96: what instruction ins may do to rb, HALTED and ip. -/
structure WritesCursor (c : Config) (ins : Instr) (x y : Inst) : Prop where
  rb     : y.rb ≠ x.rb → ∃ p1, ins = .arb p1
  halted : y.halted ≠ x.halted → ins = .halt
  ip     : y.ip ≠ x.ip → y.ip = x.ip + ins.op.len
    ∨ ∃ p1 p2, (ins = .jt p1 p2 ∨ ins = .jf p1 p2) ∧ readOperand c x p2 = .ok y.ip

theorem WritesCursor.of_same {c : Config} (hrb : y.rb = x.rb) (hh : y.halted = x.halted) (hip : y.ip = x.ip) :
    WritesCursor c ins x y :=
  ⟨fun h => absurd hrb h, fun h => absurd hh h, fun h => absurd hip h⟩

/-- R95: an instruction that advances by its length. -/
theorem WritesCursor.of_advance {c : Config} {n : Word} (hn : advance c x ins.op.len = .ok n) (hrb : y.rb = x.rb)
    (hh : y.halted = x.halted) (hip : y.ip = n) : WritesCursor c ins x y :=
  ⟨fun h => absurd hrb h, fun h => absurd hh h, fun _ => .inl (hip.trans (advance_ok.mp hn).1)⟩

/-- R190: fault entry leaves the cursor and HALTED. -/
theorem WritesCursor.of_takeFault {c : Config} {k : FaultKind} (hr : Running s i m x)
    (hy : (s.takeFault i k).inst? i = some y) : WritesCursor c ins x y := by
  obtain rfl := takeFault_inst?_eq hr hy
  exact .of_same rfl rfl rfl

theorem store3_writesCursor {r : Config → Word → Word → Except FaultKind Word} (hr : Running s i m x)
    (hlen : ins.op.len = 4) (h : store3 r p1 p2 p3 s = .next t) (hy : t.inst? i = some y) :
    WritesCursor s.cfg ins x y := by
  rcases store3_next hr h with ⟨k, _, rfl⟩ | ⟨ea, v, n, hc, rfl⟩
  · exact .of_takeFault hr hy
  · obtain ⟨_, _, _, _, _, _, hn⟩ := check3_ok.mp hc
    obtain rfl := setInst_inst?_eq hr hy
    exact .of_advance (hlen ▸ hn) rfl rfl rfl

/-- R96: a jump that is taken goes to the value of p2. -/
theorem jump_writesCursor {taken : Word → Bool} (hr : Running s i m x) (hins : ins = .jt p1 p2 ∨ ins = .jf p1 p2)
    (h : jump taken p1 p2 s = .next t) (hy : t.inst? i = some y) : WritesCursor s.cfg ins x y := by
  rcases jump_next hr h with ⟨k, _, rfl⟩ | ⟨n, hc, rfl⟩
  · exact .of_takeFault hr hy
  · obtain ⟨_, v2, _, hv2, hn⟩ := checkJump_ok.mp hc
    obtain rfl := setInst_inst?_eq hr hy
    split at hn
    · subst hn
      exact ⟨fun h => absurd rfl h, fun h => absurd rfl h, fun _ => .inr ⟨p1, p2, hins, hv2⟩⟩
    · have hlen : ins.op.len = 3 := by rcases hins with rfl | rfl <;> rfl
      exact .of_advance (hlen ▸ hn) rfl rfl rfl

theorem execInp_writesCursor (hr : Running s i m x) (h : execInp p1 s = .next t) (hy : t.inst? i = some y) :
    WritesCursor s.cfg (.inp p1) x y := by
  rcases execInp_next hr h with ⟨k, _, rfl⟩ | ⟨ea, n, hc, ⟨_, _, rfl⟩ | ⟨_, _, rfl⟩ | ⟨v, q, _, rfl⟩⟩
  · exact .of_takeFault hr hy
  · obtain rfl : x = y := by simpa [hr.2.1] using hy
    exact .of_same rfl rfl rfl
  · exact .of_takeFault hr hy
  · obtain rfl := setInst_inst?_eq hr hy
    exact .of_advance (checkIn_ok.mp hc).2 rfl rfl rfl

theorem execOut_writesCursor (hr : Running s i m x) (h : execOut p1 s = .next t) (hy : t.inst? i = some y) :
    WritesCursor s.cfg (.out p1) x y := by
  rcases execOut_next hr h with ⟨k, _, rfl⟩ | ⟨v, n, q, hc, _, ⟨_, rfl⟩ | ⟨_, rfl⟩⟩
  · exact .of_takeFault hr hy
  · obtain ⟨y', hy', _, hip, hrb, hh, _⟩ := outState_other (m := m) (n := n) (v := v) (q := q) hr.2.1 hr.2.1
    obtain rfl : y = y' := by simpa [hy] using hy'
    rw [if_pos rfl] at hip hrb hh
    exact .of_advance (checkOut_ok.mp hc).2 hrb hh hip
  · exact .of_takeFault hr hy

theorem execArb_writesCursor (hr : Running s i m x) (h : execArb p1 s = .next t) (hy : t.inst? i = some y) :
    WritesCursor s.cfg (.arb p1) x y := by
  rcases execArb_next hr h with ⟨k, _, rfl⟩ | ⟨b, n, hc, rfl⟩
  · exact .of_takeFault hr hy
  · obtain ⟨_, _, _, hn⟩ := checkArb_ok.mp hc
    obtain rfl := setInst_inst?_eq hr hy
    exact ⟨fun _ => ⟨p1, rfl⟩, fun h => absurd rfl h, fun _ => .inl (advance_ok.mp hn).1⟩

theorem execHalt_writesCursor (hr : Running s i m x) (h : execHalt s = .next t) (hy : t.inst? i = some y) :
    WritesCursor s.cfg .halt x y := by
  rw [execHalt_eq hr] at h
  cases h
  obtain rfl := setInst_inst?_eq hr hy
  exact ⟨fun h => absurd rfl h, fun _ => rfl, fun h => absurd rfl h⟩

/-- R97: every instruction. -/
theorem exec_writesCursor (hr : Running s i m x) (h : exec ins s = .next t) (hy : t.inst? i = some y) :
    WritesCursor s.cfg ins x y := by
  cases ins with
  | add => exact store3_writesCursor hr rfl h hy
  | mul => exact store3_writesCursor hr rfl h hy
  | inp => exact execInp_writesCursor hr h hy
  | out => exact execOut_writesCursor hr h hy
  | jt => exact jump_writesCursor hr (.inl rfl) h hy
  | jf => exact jump_writesCursor hr (.inr rfl) h hy
  | lt => exact store3_writesCursor hr rfl h hy
  | eq => exact store3_writesCursor hr rfl h hy
  | arb => exact execArb_writesCursor hr h hy
  | halt => exact execHalt_writesCursor hr h hy

end

/-! ### The statements -/

/-- Settles O16: the destination is the instance's own INQ or another's (`outState_wired`). -/
theorem outAppendsToWiredQueue : Obligations.OutAppendsToWiredQueue := by
  intro s i j m x z p1 v hr hv hip hw hz hd
  refine ⟨_, execOut_wired hr hv hip hw hz hd, outState_ctl, ?_⟩
  rcases outState_wired (n := x.ip + 2) hr.2.1 hw hz with ⟨rfl, rfl, h⟩ | ⟨hj, hi, hz', hk⟩
  · exact ⟨fun _ => h, fun hj => absurd rfl hj⟩
  · exact ⟨fun e => absurd e hj, fun _ => ⟨hi, hz', hk, by simp⟩⟩

/-- Settles O23: the four instructions are one shape, `store3` (`store3_frame`). -/
theorem threeOperandFrame : Obligations.ThreeOperandFrame := by
  intro s t i m x y p1 p2 p3 ins hins hr h hy hf
  rcases hins with rfl | rfl | rfl | rfl <;> exact store3_frame hr h hy hf

/-- Settles O27: one lemma per shape of instruction, collected in `exec_writesCursor`. -/
theorem cursorWriters : Obligations.CursorWriters := by
  intro s t i m x y ins hr h hy
  obtain ⟨hrb, hh, hip⟩ := exec_writesCursor hr h hy
  exact ⟨hrb, hh, hip⟩

end Sys2Proof.Machine
end

section
/-! What a step leaves alone: the configuration, and, besides their queues, the instances that it neither LOADs nor runs
(O37, O38, O39; spec/00_scope.md R10, spec/10_state.md R19, R25, R26, R29, R34, spec/60_exceptions.md R192, R221). -/

namespace Sys2Proof.Machine

/-! ### What a step can be -/

/-- R36, R83, R195, R200: the steps that answer a next state t: a host transaction performed or refused, an idle block
that waits, a fault or an instruction of the running instance, a stop's report to its caller, the scheduler's turn. -/
inductive StepCase (s t : State) : Prop where
  | performs {c : HostCmd} {u : State} (hu : TakesUp s c u) (h : perform c u = .next t)
  | refuses (l : List HostCmd) (r : Reply) (h : t = { s with atPort := l }.reply r)
  | waits (h : t = s)
  | faults {i : Nat} {m : Mask} {x : Inst} (hr : Running s i m x) (k : FaultKind) (h : t = s.takeFault i k)
  | executes {i : Nat} {m : Mask} {x : Inst} (hr : Running s i m x) (ins : Instr) (h : exec ins s = .next t)
  | stops {i : Nat} {st : Status} (hc : s.ctl = .stopped i st) (h : stepStopped i st s = .next t)
  | turns (hc : s.ctl = .turn) (h : stepTurn s = .next t)

/-- R97: an instruction step. -/
theorem stepInstruction_case {s t : State} (h : stepInstruction exec s = .next t) : StepCase s t := by
  obtain ⟨i, m, x, hr, hk⟩ := State.onActive_next h
  rcases State.attempt_next hk with ⟨k, _, ht⟩ | ⟨ins, _, he⟩
  · exact .faults hr k ht
  · exact .executes hr ins he

/-- R36: an idle block with nothing at the ports. -/
theorem stepIdle_case {s t : State} (hc : s.ctl = .idle) (hp : s.atPort = []) (h : stepIdle s = .next t) :
    StepCase s t := by
  rcases hh : s.host with _ | ⟨c, l⟩
  · rw [stepIdle_nil hh] at h
    exact .waits (Host.Outcome.next.inj h).symm
  · rw [stepIdle_cons hh] at h
    exact .performs (.inr ⟨hc, hp, l, hh, rfl⟩) h

/-- Whatever stands at the ports of an idle block is taken up. -/
theorem PortQuiet.atPort_nil {s : State} (h : PortQuiet s) (hc : s.ctl = .idle) : s.atPort = [] := by
  rcases ha : s.atPort with _ | ⟨c, l⟩
  · rfl
  · exact absurd (by simp [MayPerform, hc]) (h c l ha).1

theorem step_case {s t : State} (h : step s = .next t) : StepCase s t := by
  rcases portQuiet_or s with ⟨hq, e⟩ | ⟨c, l, ha, hm, e⟩
  · rw [e, stepOwn] at h
    rcases hc : s.ctl with _ | ⟨i, m⟩ | ⟨i, st⟩ | _ <;> simp only [hc] at h
    · exact stepIdle_case hc (hq.atPort_nil hc) h
    · exact stepInstruction_case h
    · exact .stops hc h
    · exact .turns hc h
  · rw [e] at h
    rcases stepPresented_next (s := { s with atPort := l }) hm h with ⟨_, ht⟩ | ⟨hp, hk⟩
    · exact .refuses l _ ht
    · exact .performs (.inl ⟨l, ha, hp, rfl⟩) hk

/-! ### The change of some instances only -/

/-- From s to t the configuration and the number of instances stay, and an instance that is not one of d keeps all but
its queues. -/
structure ChangesOnly (d : Nat → Prop) (s t : State) : Prop where
  cfg    : t.cfg = s.cfg
  length : t.insts.length = s.insts.length
  others : ∀ j x, ¬ d j → s.inst? j = some x → ∃ y, t.inst? j = some y ∧ SameBesidesQueues x y

section
variable {d d' : Nat → Prop} {s t u : State} {i : Nat} {x y : Inst} {q : List Word} {v : Word}

theorem ChangesOnly.of_insts_eq (hc : t.cfg = s.cfg) (hi : t.insts = s.insts) : ChangesOnly d s t where
  cfg := hc
  length := by rw [hi]
  others j x _ hx := ⟨x, by rw [State.inst?_congr hi, hx], .refl x⟩

theorem ChangesOnly.refl (s : State) : ChangesOnly d s s := .of_insts_eq rfl rfl

theorem SameBesidesQueues.trans {z : Inst} (h : SameBesidesQueues x y) (h' : SameBesidesQueues y z) :
    SameBesidesQueues x z := by
  obtain ⟨h1, h2, h3, h4, h5, h6, h7⟩ := h'
  unfold SameBesidesQueues
  rw [h1, h2, h3, h4, h5, h6, h7]
  exact h

theorem ChangesOnly.trans (h : ChangesOnly d s t) (h' : ChangesOnly d t u) : ChangesOnly d s u where
  cfg := h'.cfg.trans h.cfg
  length := h'.length.trans h.length
  others j x hj hx := by
    obtain ⟨y, hy, hxy⟩ := h.others j x hj hx
    obtain ⟨z, hz, hyz⟩ := h'.others j y hj hy
    exact ⟨z, hz, hxy.trans hyz⟩

theorem ChangesOnly.mono (h : ChangesOnly d s t) (hd : ∀ j, d j → d' j) : ChangesOnly d' s t :=
  { h with others := fun j x hj => h.others j x fun hdj => hj (hd j hdj) }

/-- An instance of d is replaced. -/
theorem ChangesOnly.setInst (hi : d i) (y : Inst) : ChangesOnly d s (s.setInst i y) where
  cfg := rfl
  length := State.length_setInst
  others j x hj hx := ⟨x, by rw [State.inst?_setInst_ne (fun e : j = i => hj (e ▸ hi)), hx], .refl x⟩

/-- The queues of any instance are replaced. -/
theorem ChangesOnly.setQueues (hx : s.inst? i = some x) (h : SameBesidesQueues x y) :
    ChangesOnly d s (s.setInst i y) where
  cfg := rfl
  length := State.length_setInst
  others j z _ hz := by
    rw [State.inst?_setInst (State.inst?_lt hx)]
    split
    · next e =>
      subst e
      obtain rfl : x = z := by simpa [hx] using hz
      exact ⟨y, rfl, h⟩
    · exact ⟨z, hz, .refl z⟩

theorem ChangesOnly.setInq (hx : s.inst? i = some x) : ChangesOnly d s (s.setInst i { x with inq := q }) :=
  .setQueues hx ⟨rfl, rfl, rfl, rfl, rfl, rfl, rfl⟩

theorem ChangesOnly.setOutq (hx : s.inst? i = some x) : ChangesOnly d s (s.setInst i { x with outq := q }) :=
  .setQueues hx ⟨rfl, rfl, rfl, rfl, rfl, rfl, rfl⟩

/-- R31: OUTQ(i) is a queue, wherever it is. -/
theorem ChangesOnly.setOutQueue : ChangesOnly d s (s.setOutQueue i q) := by
  unfold State.setOutQueue
  split
  · exact .refl s
  · next x hx =>
    split
    · exact .setOutq hx
    · split
      · exact .refl s
      · next y hy => exact .setInq hy

/-! ### The host's transactions -/

/-- R37, R204, R207: a transaction that LOADs instance i: its LOAD, or the boot of a ring or a star network. -/
def HostCmd.Builds (c : HostCmd) (i : Nat) : Prop :=
  match c with
  | .load j _ _                                                  => j = i
  | .start (.ring _ _) | .start (.star _)                        => True
  | .start (.pipeline _ _) | .resume _ _ | .pushIn _ _ | .popOut _
  | .readOutq _ | .readStatus _ | .readMem _ _                   => False

/-- A transaction is performed, or refused with nothing but a reply. -/
theorem ChangesOnly.orRefuse {c : HostCmd} {o : Option State} (ho : ∀ u, o = some u → ChangesOnly d s u)
    (ht : s.orRefuse c o = .next t) : ChangesOnly d s t := by
  rcases State.orRefuse_next ht with e | ⟨_, rfl⟩
  · exact ho t e
  · exact .of_insts_eq rfl rfl

theorem ChangesOnly.answer {α : Type} {c : HostCmd} {o : Option α} {r : α → Reply} (ht : s.answer c o r = .next t) :
    ChangesOnly d s t := by
  obtain ⟨r, rfl⟩ := State.answer_next ht
  exact .of_insts_eq rfl rfl

/-- R195: a resume transaction that begins changes no instance. -/
theorem ChangesOnly.beginResume {m : Mask} (ht : s.beginResume i m = some t) : ChangesOnly d s t := by
  obtain ⟨x, _, ⟨k, _, rfl⟩ | ⟨_, _, rfl⟩ | ⟨_, rfl⟩⟩ := State.beginResume_eq_some ht
  · exact .of_insts_eq rfl rfl
  · exact .of_insts_eq rfl rfl
  · exact .of_insts_eq rfl rfl

theorem ChangesOnly.load {prog inbound : List Word} (hi : d i) (ht : s.load i prog inbound = some t) :
    ChangesOnly d s t := by
  obtain ⟨_, _, rfl⟩ := State.load_eq_some.mp ht
  exact .setInst hi _

theorem ChangesOnly.pushIn (ht : s.pushIn i v = some t) : ChangesOnly d s t := by
  obtain ⟨x, hx, _, _, rfl⟩ := State.pushIn_eq_some.mp ht
  exact .setInq hx

theorem ChangesOnly.popOut {r : Option Word} (ht : s.popOut i = some (t, r)) : ChangesOnly d s t := by
  obtain ⟨q, _, _, ⟨_, rfl⟩ | ⟨_, rfl⟩⟩ := State.popOut_eq_some.mp ht
  · exact .refl _
  · exact .setOutQueue

theorem ChangesOnly.append (ht : s.append i v = .ok t) : ChangesOnly d s t := by
  obtain ⟨x, hx, _, rfl⟩ := State.append_ok.mp ht
  exact .setInq hx

theorem ChangesOnly.append2 {a b : Word} (ht : s.append2 i a b = .ok t) : ChangesOnly d s t := by
  obtain ⟨x, hx, _, rfl⟩ := State.append2_ok.mp ht
  exact .setInq hx

/-- Every instance is replaced, and their number stays. -/
theorem ChangesOnly.of_all (hd : ∀ j, d j) (hc : t.cfg = s.cfg) (hl : t.insts.length = s.insts.length) :
    ChangesOnly d s t :=
  ⟨hc, hl, fun j _ hj => absurd (hd j) hj⟩

/-- R201, R204, R207: the boot of a pattern keeps the number of instances. -/
theorem ChangesOnly.startPattern {p : Pattern} (ht : startPattern p s = .next t) :
    ChangesOnly (HostCmd.start p).Builds s t := by
  cases p with
  | pipeline =>
    refine .orRefuse (fun u hu => ?_) ht
    obtain ⟨_, _, _, rfl⟩ := startPipeline_eq_some.mp hu
    exact .of_insts_eq rfl rfl
  | star =>
    refine .orRefuse (fun u hu => ?_) ht
    obtain ⟨_, _, _, rfl⟩ := startStar_eq_some hu
    exact .of_all (fun _ => trivial) rfl (by simp [natSeeds_length])
  | ring prog phases =>
    unfold Machine.startPattern at ht
    rcases hr : startRing prog phases s with _ | e <;> simp only [hr] at ht
    · cases ht
      exact .of_insts_eq rfl rfl
    · obtain ⟨u, rfl, hu⟩ := orFault_next ht
      cases hu
      obtain ⟨_, hlen, _, _, ha⟩ := startRing_eq_some hr
      have hboot : ChangesOnly (HostCmd.start (.ring prog phases)).Builds s
          ({ s with insts := ringInsts prog phases.length 0 phases }.nextTurn (.ring { next := 0, last := none })) :=
        .of_all (fun _ => trivial) rfl (by simp [ringInsts_length, hlen])
      exact hboot.trans (.append ha.symm)

/-- R36 to R42. -/
theorem ChangesOnly.perform {c : HostCmd} (ht : perform c s = .next t) : ChangesOnly c.Builds s t := by
  have reply : ∀ {u : State} (r : Reply), ChangesOnly c.Builds s u → ChangesOnly c.Builds s (u.reply r) :=
    fun r h => h.trans (.of_insts_eq rfl rfl)
  cases c with
  | load =>
    refine .orRefuse (fun u hu => ?_) ht
    obtain ⟨w, hw, rfl⟩ := Option.map_eq_some_iff.mp hu
    exact reply _ (.load rfl hw)
  | resume => exact .orRefuse (fun _ => .beginResume) ht
  | pushIn =>
    refine .orRefuse (fun u hu => ?_) ht
    obtain ⟨w, hw, rfl⟩ := Option.map_eq_some_iff.mp hu
    exact reply _ (.pushIn hw)
  | popOut =>
    refine .orRefuse (fun u hu => ?_) ht
    obtain ⟨⟨w, r⟩, hw, rfl⟩ := Option.map_eq_some_iff.mp hu
    exact reply _ (.popOut hw)
  | readOutq => exact .answer ht
  | readStatus => exact .answer ht
  | readMem => exact .answer ht
  | start => exact .startPattern ht

theorem HostCmd.Builds.cases {c : HostCmd} (h : c.Builds i) :
    (∃ prog inbound, c = .load i prog inbound) ∨ (∃ prog phases, c = .start (.ring prog phases))
      ∨ ∃ prog, c = .start (.star prog) := by
  unfold HostCmd.Builds at h
  split at h
  · exact .inl ⟨_, _, by rw [h]⟩
  · exact .inr (.inl ⟨_, _, rfl⟩)
  · exact .inr (.inr ⟨_, rfl⟩)
  all_goals exact h.elim

/-- R36, R222: a transaction at the ports that may be performed and LOADs instance i is one that `loads` names: while a
resume transaction is in progress no pattern starts, and where only reads are performed nothing is LOADed. -/
theorem MayPerform.loads {c : HostCmd} {l : List HostCmd} (hm : MayPerform s c) (ha : s.atPort = c :: l)
    (hb : c.Builds i) : loads s i = true := by
  rcases hc : s.ctl with _ | ⟨j, m⟩ | ⟨j, st⟩ | _ <;> simp only [MayPerform, hc] at hm
  · rcases hb.cases with ⟨_, _, rfl⟩ | ⟨_, _, rfl⟩ | ⟨_, rfl⟩ <;> simp [Machine.loads, hc, ha]
  · obtain ⟨_, hcon⟩ := hm
    rcases hb.cases with ⟨_, _, rfl⟩ | ⟨_, _, rfl⟩ | ⟨_, rfl⟩
    · simp [Machine.loads, hc, ha]
    · exact hcon.elim
    · exact hcon.elim
  all_goals
    obtain ⟨k, rfl | rfl | ⟨a, rfl⟩⟩ := hm <;> exact hb.elim

/-- R37, R204, R207: a transaction that is taken up and LOADs instance i is one that `loads` names. -/
theorem TakesUp.loads {c : HostCmd} (h : TakesUp s c u) (hb : c.Builds i) : loads s i = true := by
  rcases h with ⟨l, ha, hm, _⟩ | ⟨hc, ha, l, hh, _⟩
  · exact hm.loads ha hb
  · rcases hb.cases with ⟨_, _, rfl⟩ | ⟨_, _, rfl⟩ | ⟨_, rfl⟩ <;> simp [Machine.loads, hc, ha, hh]

/-! ### Instructions -/

theorem ChangesOnly.takeFault {k : FaultKind} (hi : d i) (hx : s.inst? i = some x) :
    ChangesOnly d s (s.takeFault i k) := by
  rw [State.takeFault_eq hx]
  exact (ChangesOnly.setInst hi _).trans (.of_insts_eq rfl rfl)

theorem ChangesOnly.outState {m : Mask} {n : Word} (hi : d i) : ChangesOnly d s (outState s i m x n v q) := by
  have hout : ChangesOnly d s ((s.setInst i { x with ip := n }).setOutQueue i (q ++ [v])) :=
    (ChangesOnly.setInst hi _).trans .setOutQueue
  unfold Machine.outState
  split
  · exact hout.trans (.of_insts_eq rfl rfl)
  · exact hout

/-- R221: an instruction changes its own instance, and at most a queue of another one. -/
theorem ChangesOnly.exec {m : Mask} {ins : Instr} (hr : Running s i m x) (hi : d i) (ht : exec ins s = .next t) :
    ChangesOnly d s t := by
  rcases exec_next hr ht with ⟨k, rfl⟩ | ⟨y, rfl, _⟩ | ⟨_, rfl⟩ | rfl | ⟨n, v, q, _, _, rfl⟩
  · exact .takeFault hi hr.2.1
  · exact .setInst hi y
  · exact .of_insts_eq rfl rfl
  · exact (ChangesOnly.setInst hi _).trans (.of_insts_eq rfl rfl)
  · exact .outState hi

/-! ### The scheduler -/

theorem ChangesOnly.finish (h : ChangesOnly d s t) (e : PatternEnd) : ChangesOnly d s (t.finish e) :=
  h.trans (.of_insts_eq rfl rfl)

theorem ChangesOnly.nextTurn (h : ChangesOnly d s t) (n : Sched) : ChangesOnly d s (t.nextTurn n) :=
  h.trans (.of_insts_eq rfl rfl)

theorem ChangesOnly.starEndTurn {n : Star} (ht : starEndTurn n i s = .next t) : ChangesOnly d s t := by
  rcases starEndTurn_next ht with ⟨_, rfl⟩ | rfl | ⟨_, rfl⟩ | ⟨a, b, u, _, hu, rfl | rfl⟩
  · exact (ChangesOnly.refl s).nextTurn _
  · exact (ChangesOnly.refl s).nextTurn _
  · exact (ChangesOnly.refl s).finish _
  · exact (ChangesOnly.append2 hu).finish _
  · exact (ChangesOnly.append2 hu).nextTurn _

theorem ChangesOnly.starCollect {n : Star} (ht : starCollect n i v s = .next t) : ChangesOnly d s t := by
  rcases starCollect_next ht with ⟨_, _, _, u, _, _, _, hu, he⟩ | ⟨_, _, _, _, _, he⟩ | he
  · exact (ChangesOnly.append2 hu).trans (.starEndTurn he)
  · exact .starEndTurn he
  · exact .starEndTurn he

theorem ChangesOnly.starEmptyRead {n : Star} (ht : starEmptyRead n i s = .next t) : ChangesOnly d s t := by
  rcases starEmptyRead_next ht with he | ⟨v, u, _, _, hu, rfl⟩
  · exact .starEndTurn he
  · exact (ChangesOnly.append hu).nextTurn _

theorem ChangesOnly.starStop {n : Star} {st : Status} (ht : starStop n i st s = .next t) : ChangesOnly d s t := by
  rcases starStop_next ht with ⟨k, _, rfl⟩ | ⟨_, he⟩ | ⟨_, u, v, hp, hc⟩ | ⟨_, he⟩
  · exact (ChangesOnly.refl s).finish _
  · exact .starEndTurn he
  · exact (ChangesOnly.popOut hp).trans (.starCollect hc)
  · exact .starEmptyRead he

/-- R195, R200: a stop goes to the host, or to the pattern that runs, which changes queues alone. -/
theorem ChangesOnly.stepStopped {st : Status} (ht : stepStopped i st s = .next t) : ChangesOnly d s t := by
  unfold Machine.stepStopped at ht
  split at ht
  · cases ht
    exact .of_insts_eq rfl rfl
  · rcases pipelineStop_next ht with ⟨e, rfl⟩ | ⟨_, _, _, _, rfl⟩
    · exact (ChangesOnly.refl s).finish e
    · exact (ChangesOnly.refl s).nextTurn _
  · rcases ringStop_next ht with ⟨e, rfl⟩ | ⟨_, rfl⟩
    · exact (ChangesOnly.refl s).finish e
    · exact (ChangesOnly.refl s).nextTurn _
  · exact .starStop ht

/-- R200, R202: a turn LOADs a pipeline's stage, or begins a resume transaction. -/
theorem ChangesOnly.stepTurn (hc : s.ctl = .turn) (ht : stepTurn s = .next t) :
    ChangesOnly (fun j => loads s j = true) s t := by
  unfold Machine.stepTurn at ht
  split at ht
  · cases ht
  · next p hp =>
    rcases pipelineTurn_next ht with ⟨_, hb⟩ | ⟨ph, hl, _, _, _, rfl⟩
    · exact .beginResume hb
    · exact (ChangesOnly.setInst (by simp [loads, hc, hp, hl]) _).nextTurn _
  · exact .beginResume (State.issueTurn_next ht)
  · exact .beginResume (State.issueTurn_next ht)

/-! ### The step -/

/-- The step may LOAD instance i, or runs it. -/
def LoadsOrRuns (s : State) (i : Nat) : Prop := loads s i = true ∨ ∃ m x, Running s i m x

theorem ChangesOnly.step (ht : step s = .next t) : ChangesOnly (LoadsOrRuns s) s t := by
  cases step_case ht with
  | @performs c u hu h =>
    obtain ⟨hi, hc, _⟩ := hu.same
    have hperf : ChangesOnly (LoadsOrRuns s) u t := (ChangesOnly.perform h).mono fun j hb => .inl (hu.loads hb)
    exact (ChangesOnly.of_insts_eq hc hi).trans hperf
  | refuses l r h => subst h; exact .of_insts_eq rfl rfl
  | waits h => subst h; exact .refl _
  | faults hr k h => subst h; exact .takeFault (.inr ⟨_, _, hr⟩) hr.2.1
  | executes hr ins h => exact .exec hr (.inr ⟨_, _, hr⟩) h
  | stops hc h => exact .stepStopped h
  | turns hc h => exact (ChangesOnly.stepTurn hc h).mono fun _ => .inl

/-- R83: an instance that is not READY does not run. -/
theorem not_loadsOrRuns (hx : s.inst? i = some x) (hl : loads s i = false)
    (hr : ∀ m, s.ctl = .running i m → x.ready = false) : ¬ LoadsOrRuns s i := by
  rintro (h | ⟨m, z, hc, hz, hready⟩)
  · simp [hl] at h
  · obtain rfl : x = z := by simpa [hx] using hz
    simpa [Inst.ready_iff.mpr hready] using hr m hc

end

/-! ### The statements -/

/-- Settles O37: it holds of each operation a step is made of (`ChangesOnly.step`). -/
theorem stepLeavesOtherInstances : Obligations.StepLeavesOtherInstances := fun _ _ i x hx hl hr ht =>
  (ChangesOnly.step ht).others i x (not_loadsOrRuns hx hl hr) hx

/-- Settles O38: a faulted or halted instance is not READY, so no step runs it. -/
theorem faultedAndHaltedStay : Obligations.FaultedAndHaltedStay := by
  intro s t i x hx hstop hl ht
  have hready : x.ready = false := by
    rw [← Bool.not_eq_true, Inst.ready_iff]
    rintro ⟨hh, hf⟩
    exact hstop.elim (fun h => by simp [hh] at h) fun h => h hf
  obtain ⟨y, hy, hmem, hip, hrb, hh, hf, hfip, _⟩ := stepLeavesOtherInstances s t i x hx hl (fun _ _ => hready) ht
  exact ⟨y, hy, hh, hf, hfip, hip, hrb, fun a => by rw [hmem]⟩

/-- Settles O39, which `ChangesOnly` carries along. -/
theorem configurationIsFixed : Obligations.ConfigurationIsFixed := fun _ _ ht =>
  have h := ChangesOnly.step ht
  ⟨h.cfg, h.length⟩

end Sys2Proof.Machine
end

section
/-! The host's transactions (O44 to O49; spec/10_state.md R27, R36 to R43): each statement is the law of its port,
carried over to the step that takes the transaction up (`TakesUp.step`). -/

namespace Sys2Proof.Machine

section
variable {s t u : State} {i : Nat} {m : Mask} {x : Inst} {c : HostCmd}

/-! ### The state in which a transaction is taken up -/

/-- `outQueue` reads only the list of instances. -/
theorem State.outQueue_congr (h : t.insts = s.insts) (i : Nat) : t.outQueue i = s.outQueue i := by
  simp [State.outQueue, State.inst?_congr h]

theorem TakesUp.insts (h : TakesUp s c u) : u.insts = s.insts := h.same.1

theorem TakesUp.cfg (h : TakesUp s c u) : u.cfg = s.cfg := h.same.2.1

theorem TakesUp.replies (h : TakesUp s c u) : u.replies = s.replies := h.same.2.2.2.2

theorem TakesUp.inst? (h : TakesUp s c u) (i : Nat) : u.inst? i = s.inst? i := State.inst?_congr h.insts i

theorem TakesUp.outQueue (h : TakesUp s c u) (i : Nat) : u.outQueue i = s.outQueue i :=
  State.outQueue_congr h.insts i

/-- A reply to the host, where the state before the transaction was taken up had these replies. -/
theorem TakesUp.reply (h : TakesUp s c u) (r : Reply) : u.reply r = { u with replies := s.replies ++ [r] } := by
  rw [← h.replies]
  rfl

/-! ### LOAD, PUSH_IN, POP_OUT -/

/-- R37, D16: what a LOAD is refused for. -/
theorem canLoad_eq_false {c : Config} {prog inbound : List Word}
    (h : (∃ v ∈ prog, representable c v = false) ∨ (∃ v ∈ inbound, representable c v = false)
      ∨ (∃ l, c.memLimit = some l ∧ l < prog.length) ∨ (∃ q, c.queueDepth = some q ∧ q < inbound.length)) :
    canLoad c prog inbound = false := by
  rw [← Bool.not_eq_true, canLoad_iff, fitsMemory_iff, holds_iff]
  rintro ⟨hp, hi, hm, hq⟩
  rcases h with ⟨v, hv, hr⟩ | ⟨v, hv, hr⟩ | ⟨l, hl, hlt⟩ | ⟨q, hd, hlt⟩
  · simp [hp v hv] at hr
  · simp [hi v hv] at hr
  · exact absurd (hm l hl) (by omega)
  · exact absurd (hq q hd) (by omega)

/-- R37: LOAD's step, where the port accepts it. -/
theorem step_load {prog inbound : List Word} (h : TakesUp s (.load i prog inbound) u)
    (hi : i < s.insts.length) (hc : canLoad s.cfg prog inbound = true) :
    step s = .next ((u.setInst i (Inst.load prog inbound)).reply (.loaded i)) := by
  have hload : u.load i prog inbound = some (u.setInst i (Inst.load prog inbound)) :=
    State.load_eq_some.mpr ⟨by rwa [h.insts], by rwa [h.cfg], rfl⟩
  rw [h.step]
  exact State.orRefuse_some (by rw [hload, Option.map_some])

/-- R39: PUSH_IN's step, where the port accepts it. -/
theorem step_pushIn {v : Word} (h : TakesUp s (.pushIn i v) u) (hx : s.inst? i = some x)
    (hv : representable s.cfg v = true) (hd : holds s.cfg (x.inq.length + 1) = true) :
    step s = .next ((u.setInst i { x with inq := x.inq ++ [v] }).reply (.pushed i)) := by
  have hpush : u.pushIn i v = some (u.setInst i { x with inq := x.inq ++ [v] }) :=
    State.pushIn_eq_some.mpr ⟨x, by rw [h.inst?, hx], by rwa [h.cfg], by rwa [h.cfg], rfl⟩
  rw [h.step]
  exact State.orRefuse_some (by rw [hpush, Option.map_some])

/-- R39: PUSH_IN's step, where the port refuses it. -/
theorem step_pushIn_refused {v : Word} (h : TakesUp s (.pushIn i v) u) (hx : s.inst? i = some x)
    (hr : ¬ (representable s.cfg v = true ∧ holds s.cfg (x.inq.length + 1) = true)) :
    step s = .next (u.reply (.refused (.pushIn i v))) := by
  have hpush : u.pushIn i v = none := by
    rw [State.pushIn, h.inst?, hx, h.cfg]
    exact if_neg hr
  rw [h.step]
  exact State.orRefuse_none (by rw [hpush, Option.map_none])

theorem State.setInst_self (hx : s.inst? i = some x) : s.setInst i x = s := by
  have hset : s.insts.set i (some x) = s.insts := by
    obtain ⟨hi, e⟩ := List.getElem?_eq_some_iff.mp (State.inst?_eq_some.mp hx)
    rw [← e, List.set_getElem_self]
  unfold State.setInst
  rw [hset]

/-- R31: a queue that is set to what it holds. -/
theorem State.setOutQueue_self {q : List Word} (hq : s.outQueue i = some q) : s.setOutQueue i q = s := by
  rcases State.outQueue_cases hq with ⟨x, hx, hw, rfl⟩ | ⟨x, j, y, hx, hw, hy, rfl⟩
  · rw [State.setOutQueue_own hx hw]
    exact State.setInst_self hx
  · rw [State.setOutQueue_wired hx hw hy]
    exact State.setInst_self hy

/-- R40: POP_OUT's step: OUTQ loses its oldest value, an empty one stays. -/
theorem step_popOut {q : List Word} (h : TakesUp s (.popOut i) u) (hq : s.outQueue i = some q) :
    step s = .next ((u.setOutQueue i q.tail).reply (.popped i q.head?)) := by
  have huq : u.outQueue i = some q := by rw [h.outQueue, hq]
  have hpop : u.popOut i = some (u.setOutQueue i q.tail, q.head?) := by
    refine State.popOut_eq_some.mpr ⟨q, huq, rfl, ?_⟩
    by_cases hn : q = []
    · subst hn
      exact .inl ⟨rfl, State.setOutQueue_self huq⟩
    · exact .inr ⟨hn, rfl⟩
  rw [h.step]
  exact State.orRefuse_some (by rw [hpop, Option.map_some])

/-! ### RESUME and what waits for it -/

/-- R192, R195, R198: RESUME's step: what who moves next becomes, by the instance's RUN_STATE. -/
theorem step_resume (h : TakesUp s (.resume i m) u) (hx : s.inst? i = some x) :
    ∃ k : Control, step s = .next { u with ctl := k }
      ∧ (∀ f, x.fault = some f → k = .stopped i (.fault f))
      ∧ (x.fault = none → x.halted = true → k = .stopped i .halted)
      ∧ (x.fault = none → x.halted = false → k = .running i m) := by
  have hux : u.inst? i = some x := by rw [h.inst?, hx]
  obtain ⟨t, ht⟩ := State.beginResume_isSome (m := m) hux
  have hstep : step s = .next t := by
    rw [h.step]
    exact State.orRefuse_some ht
  obtain ⟨y, hy, hcase⟩ := State.beginResume_eq_some ht
  obtain rfl : x = y := by simpa [hux] using hy
  rcases hcase with ⟨f, hf, rfl⟩ | ⟨hf, hh, rfl⟩ | ⟨hr, rfl⟩
  · exact ⟨_, hstep, by simp [hf], by simp [hf], by simp [hf]⟩
  · exact ⟨_, hstep, by simp [hf], by simp, by simp [hh]⟩
  · obtain ⟨hh, hf⟩ := Inst.ready_iff.mp hr
    exact ⟨_, hstep, by simp [hf], by simp [hh], by simp⟩

/-- R19, R36, R200: what may not overlap with the resume transaction in its loop. -/
theorem not_mayPerform_running {j : Nat} {k : Mask} {p : Pattern} {prog inbound : List Word} {v : Word}
    (hc : s.ctl = .running i m)
    (h : c = .resume j k ∨ c = .start p ∨ c.names = some i
      ∨ (s.sched ≠ .off ∧ (c = .load j prog inbound ∨ c = .pushIn j v ∨ c = .popOut j))) : ¬ MayPerform s c := by
  unfold MayPerform
  rw [hc]
  rintro ⟨hn, hcon⟩
  rcases h with rfl | rfl | h | ⟨hoff, rfl | rfl | rfl⟩
  · exact hcon
  · exact hcon
  · exact hn h
  · exact hoff hcon
  · exact hoff hcon
  · exact hoff hcon

/-- R221: an instruction leaves the host's lists alone. -/
theorem exec_keeps_host {ins : Instr} (hr : Running s i m x) (ht : exec ins s = .next t) :
    t.atPort = s.atPort ∧ t.host = s.host ∧ t.replies = s.replies := by
  rcases exec_next hr ht with ⟨k, rfl⟩ | ⟨y, rfl, _⟩ | ⟨_, rfl⟩ | rfl | ⟨n, v, q, _, _, rfl⟩
  · rw [State.takeFault_eq hr.2.1]
    exact ⟨rfl, rfl, rfl⟩
  · exact ⟨rfl, rfl, rfl⟩
  · exact ⟨rfl, rfl, rfl⟩
  · exact ⟨rfl, rfl, rfl⟩
  · exact ⟨outState_atPort, outState_host, outState_replies⟩

/-- R97: so does a whole step of the loop. -/
theorem step_running_keeps_host (hc : s.ctl = .running i m) (hq : PortQuiet s) (ht : step s = .next t) :
    t.atPort = s.atPort ∧ t.host = s.host ∧ t.replies = s.replies := by
  obtain ⟨x, hr⟩ := running_of_step_next hc hq ht
  rcases step_running_next hr hq ht with ⟨k, _, rfl⟩ | ⟨ins, _, he⟩
  · rw [State.takeFault_eq hr.2.1]
    exact ⟨rfl, rfl, rfl⟩
  · exact exec_keeps_host hr he

/-! ### Reads -/

/-- R42, R225: what the port refuses is answered so in the next step, whatever the block is doing. -/
theorem step_mustRefuse {l : List HostCmd} (ha : s.atPort = c :: l) (hm : MustRefuse s c) :
    step s = .next ({ s with atPort := l }.reply (.refused c)) := by
  rcases portQuiet_or s with ⟨hq, _⟩ | ⟨c', l', ha', _, e⟩
  · exact absurd hm (hq c l ha).2
  · obtain ⟨rfl, rfl⟩ : c = c' ∧ l = l' := by simpa [ha] using ha'
    rw [e]
    exact stepPresented_refuses (s := { s with atPort := l }) hm

/-- R40 to R42: what a read of instance x, whose OUTQ holds q, returns; the transactions that do not only read have no
entry here. -/
def readReply (x : Inst) (q : List Word) (c : HostCmd) : Reply :=
  match c with
  | .readOutq i   => .outq i q
  | .readStatus i => .status i (statusView x q)
  | .readMem i a  => if a < 0 then .refused c else .cell i a (Mem.read x.mem a.toNat)
  | .load _ _ _ | .resume _ _ | .pushIn _ _ | .popOut _ | .start _ => .refused c

/-- R40 to R42: a reading transaction is answered, and changes nothing. -/
theorem perform_read {q : List Word} {a : Word} (hx : s.inst? i = some x) (hq : s.outQueue i = some q)
    (hc : c = .readOutq i ∨ c = .readStatus i ∨ c = .readMem i a) :
    perform c s = .next (s.reply (readReply x q c)) := by
  rcases hc with rfl | rfl | rfl
  · simp [perform, State.answer, State.orRefuse, hq, readReply]
  · simp [perform, State.answer, State.orRefuse, State.readStatus, hx, hq, readReply]
  · by_cases ha : a < 0
    · simp [perform, State.answer, State.orRefuse, State.readMem, hx, ha, readReply]
    · simp [perform, State.answer, State.orRefuse, State.readMem, hx, ha, readReply]

/-- R27: RUN_STATE. -/
theorem runState_eq (x : Inst) :
    runState x = if x.fault ≠ none then .faulted else if x.halted then .halted else .ready := by
  unfold runState
  cases x.fault <;> simp

end

/-! ### The statements -/

/-- Settles O44: the port accepts the LOAD, which replaces instance i alone (`step_load`). -/
theorem loadBuildsInstance : Obligations.LoadBuildsInstance := by
  intro s u i prog inbound h hi hprog hinb hmem hdepth
  have hc : canLoad s.cfg prog inbound = true :=
    canLoad_iff.mpr ⟨hprog, hinb, fitsMemory_iff.mpr hmem, holds_iff.mpr hdepth⟩
  obtain ⟨hinsts, _, hctl, hsched, hreplies⟩ := h.same
  have hself : (u.setInst i (Inst.load prog inbound)).inst? i = some (Inst.load prog inbound) :=
    State.inst?_setInst_self (by rwa [hinsts])
  refine ⟨_, Inst.load prog inbound, step_load h hi hc, hself, fun a => ?_, rfl, rfl, rfl, rfl, rfl, rfl,
    State.outQueue_own hself rfl, fun j hj => ?_, hctl, hsched, rfl, rfl, by simp [hreplies]⟩
  · exact (Mem.read_ofProgram prog 0 a).trans (if_pos (Nat.zero_le a))
  · rw [State.inst?_reply, State.inst?_setInst_ne hj, h.inst?]

/-- Settles O45: with any of the grounds the port's LOAD answers nothing, so the refusal is all that is told. -/
theorem loadIsRefused : Obligations.LoadIsRefused := by
  intro s u i prog inbound h hbad
  have hnone : u.load i prog inbound = none := by
    refine State.load_eq_none fun ⟨hi, hc⟩ => ?_
    rw [h.insts] at hi
    rw [h.cfg] at hc
    rcases hbad with hlen | hbad
    · omega
    · simp [canLoad_eq_false hbad] at hc
  rw [h.step, ← h.reply]
  exact State.orRefuse_none (by rw [hnone, Option.map_none])

/-- Settles O47: INQ has room, or is full. -/
theorem pushInAppends : Obligations.PushInAppends := by
  intro s u i v x h hx
  obtain ⟨hinsts, hcfg, hctl, hsched, hreplies⟩ := h.same
  have hroom : holds s.cfg (x.inq.length + 1) = true ↔ ∀ q, s.cfg.queueDepth = some q → x.inq.length < q := holds_iff
  by_cases hok : representable s.cfg v = true ∧ holds s.cfg (x.inq.length + 1) = true
  · refine ⟨_, step_pushIn h hx hok.1 hok.2, hctl, rfl, rfl, hcfg, hsched, fun _ _ => ⟨?_, fun j hj => ?_, ?_⟩, ?_⟩
    · exact State.inst?_setInst_self (by rw [hinsts]; exact State.inst?_lt hx)
    · rw [State.inst?_reply, State.inst?_setInst_ne hj, h.inst?]
    · simp [hreplies]
    · rintro (hv | ⟨q, hq, hfull⟩)
      · simp [hok.1] at hv
      · exact absurd (hroom.mp hok.2 q hq) (by omega)
  · refine ⟨_, step_pushIn_refused h hx hok, hctl, rfl, rfl, hcfg, hsched, fun hv hd => ?_, fun _ => ⟨hinsts, ?_⟩⟩
    · exact absurd ⟨hv, hroom.mpr hd⟩ hok
    · simp [hreplies]

/-- Settles O48: OUTQ is the instance's own queue, or the INQ it is wired to. -/
theorem popOutTakesOldest : Obligations.PopOutTakesOldest := by
  intro s u i q h hq
  obtain ⟨_, hcfg, hctl, hsched, hreplies⟩ := h.same
  have huq : u.outQueue i = some q := by rw [h.outQueue, hq]
  refine ⟨_, step_popOut h hq, by simpa using hctl, by simp, by simp, by simpa using hcfg, by simpa using hsched,
    by simp [hreplies], State.outQueue_setOutQueue huq q.tail, fun hn => ?_, fun x hx hw => ?_,
    fun x z k hx hw hz => ?_⟩
  · subst hn
    rw [List.tail_nil, State.setOutQueue_self huq, State.reply_insts, h.insts]
  · have hux : u.inst? i = some x := by rw [h.inst?, hx]
    rw [State.setOutQueue_own hux hw]
    exact ⟨State.inst?_setInst_self (State.inst?_lt hux), fun j hj => by
      rw [State.inst?_reply, State.inst?_setInst_ne hj, h.inst?]⟩
  · have hux : u.inst? i = some x := by rw [h.inst?, hx]
    have huz : u.inst? k = some z := by rw [h.inst?, hz]
    rw [State.setOutQueue_wired hux hw huz]
    exact ⟨State.inst?_setInst_self (State.inst?_lt huz), fun j hj => by
      rw [State.inst?_reply, State.inst?_setInst_ne hj, h.inst?]⟩

/-- Settles O46: the beginning (`step_resume`), the report of a stop, and what waits at the ports. -/
theorem resumeBegins : Obligations.ResumeBegins := by
  refine ⟨fun s u i m x h hx => step_resume h hx, fun s i st hc hd hq => ?_, ?_⟩
  · rw [step_stopped hc hq, stepStopped, hd]
    rfl
  · intro s t i j m k p prog inbound v c l hc ha hm hwait ht
    have hq : PortQuiet s := fun c' l' ha' => by
      obtain ⟨rfl, rfl⟩ : c = c' ∧ l = l' := by simpa [ha] using ha'
      exact ⟨not_mayPerform_running hc hwait, hm⟩
    obtain ⟨hport, hhost, hreplies⟩ := step_running_keeps_host hc hq ht
    exact ⟨hport.trans ha, hhost, hreplies, hq⟩

/-- Settles O49: the refusal of R42, and what each read returns (`perform_read`). -/
theorem readsReturnAndChangeNothing : Obligations.ReadsReturnAndChangeNothing := by
  refine ⟨fun s i m a l hc ha => step_mustRefuse ha (.inr ⟨i, m, a, hc, rfl⟩), fun s u i x q a c h hx hq => ?_⟩
  refine ⟨readReply x q c, fun hc => ?_, ?_, ?_, ?_⟩
  · rw [h.step, perform_read (by rw [h.inst?, hx]) (by rw [h.outQueue, hq]) hc, h.reply]
  · rintro rfl
    rfl
  · rintro rfl
    refine ⟨statusView x q, rfl, rfl, rfl, rfl, rfl, rfl, runState_eq x, ?_⟩
    show faultNumber x.fault = _
    rcases x.fault with _ | k
    · rfl
    · cases k <;> rfl
  · rintro rfl
    rfl

end Sys2Proof.Machine
end

section
/-! The read primitive (O7; spec/20_memory.md R49): its two laws, `memRead_error` and `memRead_ok`, give the outcome of
each address. -/

namespace Sys2Proof.Machine

/-- R49, R50: an address at or above a finite MEM_LIMIT is outside the memory. -/
theorem inLimit_eq_false {c : Config} {a l : Nat} (hl : c.memLimit = some l) (h : l ≤ a) : inLimit c a = false :=
  Bool.eq_false_iff.mpr fun hin => h.not_gt (inLimit_iff.mp hin l hl)

/-- Settles O7: the two faults (`memRead_error`), the read (`memRead_ok`), and the cell that no entry names. -/
theorem memReadChecksThenReads : Obligations.MemReadChecksThenReads := by
  refine fun c x a => ⟨fun hneg => ?_, fun l h0 hl hge => ?_, fun h0 hin => ?_, fun hunlisted => ?_⟩
  · exact memRead_error.mpr (.inl ⟨rfl, hneg⟩)
  · exact memRead_error.mpr (.inr ⟨rfl, h0, inLimit_eq_false hl hge⟩)
  · exact memRead_ok.mpr ⟨h0, inLimit_iff.mpr hin, rfl⟩
  · exact Mem.read_of_not_mem hunlisted

end Sys2Proof.Machine
end

section
/-! The decoder and the encoder (O1 to O6, O35; spec/30_encoding.md R64 to R81). What decodes is named in two ways: a
word decodes to a head exactly where it is that head's word (`decodeWord_ok_iff_word`), and a list of cells decodes
exactly where it begins with the encoding of a well-formed instruction (`decode_ok_iff`). -/

namespace Sys2Proof

open Sys2Proof.Machine

variable {w : Word} {op : Op} {h : Head} {i : Instr}

/-! ### Digits and modes -/

theorem Mode.digit_eq_zero {m : Mode} : m.digit = 0 ↔ m = .position := by cases m <;> simp [Mode.digit]

theorem Mode.digit_eq_one {m : Mode} : m.digit = 1 ↔ m = .immediate := by cases m <;> simp [Mode.digit]

/-- R65: an absent digit is 0. -/
theorem digit_of_lt {n j : Nat} (hn : n < 10 ^ j) : digit n j = 0 := by
  rw [digit, Nat.div_eq_of_lt hn]

/-- R14: a number of five digits, written out from its opcode and its mode digits. -/
theorem eq_digits_iff {n o a b c : Nat} (hn : n < 10 ^ 5) (ho : o < 100) (ha : a ≤ 2) (hb : b ≤ 2) (hc : c ≤ 2) :
    n = o + 100 * a + 1000 * b + 10000 * c ↔ n % 100 = o ∧ digit n 2 = a ∧ digit n 3 = b ∧ digit n 4 = c := by
  simp only [digit, Nat.reducePow] at *
  omega

theorem Op.number_lt (op : Op) : op.number < 100 := by cases op <;> decide

theorem pow_params_le (op : Op) : 10 ^ (op.params + 2) ≤ 10 ^ 5 :=
  Nat.pow_le_pow_right (by decide) (Nat.add_le_add_right op.params_le 2)

/-- R67, R68: with no digit above the last mode digit, a parameter that the kind does not have reads as `position`, the
mode of its digit 0. -/
theorem paramMode_ok_of_lt {n p k : Nat} {m : Mode} (hn : n < 10 ^ (p + 2)) :
    paramMode n p k = .ok m ↔ digit n (k + 1) = m.digit ∧ (p < k → m = .position) := by
  rw [paramMode_ok]
  rcases Nat.lt_or_ge p k with hk | hk
  · have h0 : digit n (k + 1) = 0 := digit_of_lt (hn.trans_le (Nat.pow_le_pow_right (by decide) (by omega)))
    simp [hk, not_le.mpr hk, h0, eq_comm (a := 0), Mode.digit_eq_zero]
  · simp [hk, not_lt.mpr hk]

/-- R67, R78: the mode check passes on every digit that names a mode. -/
theorem exists_paramMode_ok {n p k : Nat} (hd : k ≤ p → digit n (k + 1) ≤ 2) :
    ∃ m, paramMode n p k = .ok m ∧ (k ≤ p → m.digit = digit n (k + 1)) := by
  rcases hm : paramMode n p k with f | m
  · obtain ⟨_, hk, hgt⟩ := paramMode_error.mp hm
    exact absurd (hd hk) (by omega)
  · refine ⟨m, rfl, fun hk => ?_⟩
    rcases paramMode_ok.mp hm with ⟨_, he⟩ | ⟨hlt, _⟩
    · exact he.symm
    · omega

/-! ### The checks of R78, one by one -/

theorem decodeWord_of_neg (hw : w < 0) : decodeWord w = .error .unknownOpcode := if_pos hw

theorem decodeWord_of_opOf_none (hw : 0 ≤ w) (ho : opOf (w.toNat % 100) = none) :
    decodeWord w = .error .unknownOpcode := by
  rw [decodeWord, if_neg (not_lt.mpr hw), ho]

/-- R78: the mode checks of a word whose opcode is in the map, and the checks after them. -/
theorem decodeWord_eq_bind (hw : 0 ≤ w) (ho : opOf (w.toNat % 100) = some op) :
    decodeWord w = (paramMode w.toNat op.params 1).bind fun m1 => (paramMode w.toNat op.params 2).bind fun m2 =>
      (paramMode w.toNat op.params 3).bind fun m3 =>
        if w.toNat / 10 ^ (op.params + 2) ≠ 0 then .error .invalidParameterMode
        else if (Head.mk op m1 m2 m3).writesImmediate then .error .illegalWriteTarget
        else .ok ⟨op, m1, m2, m3⟩ := by
  rw [decodeWord, if_neg (not_lt.mpr hw), ho]
  rfl

/-- R67, R78: a mode check fails with InvalidParameterMode, or hands on to what fails so. -/
theorem paramMode_bind_error {α : Type} {n p k : Nat} {f : Mode → Except FaultKind α}
    (hf : ∀ m, paramMode n p k = .ok m → f m = .error .invalidParameterMode) :
    (paramMode n p k).bind f = .error .invalidParameterMode := by
  rcases hm : paramMode n p k with e | m
  · rw [(paramMode_error.mp hm).1]
    rfl
  · exact hf m hm

/-- R67: a mode digit that names no mode, whichever parameter's it is. -/
theorem decodeWord_of_modeDigit {k : Nat} (hw : 0 ≤ w) (ho : opOf (w.toNat % 100) = some op) (h1 : 1 ≤ k)
    (hk : k ≤ op.params) (hd : 2 < digit w.toNat (k + 1)) : decodeWord w = .error .invalidParameterMode := by
  have hfail : paramMode w.toNat op.params k = .error .invalidParameterMode := paramMode_error.mpr ⟨rfl, hk, hd⟩
  have hk3 : k = 1 ∨ k = 2 ∨ k = 3 := by have := op.params_le; omega
  rw [decodeWord_eq_bind hw ho]
  refine paramMode_bind_error fun m1 e1 => paramMode_bind_error fun m2 e2 => paramMode_bind_error fun m3 e3 => ?_
  rcases hk3 with rfl | rfl | rfl
  · cases hfail.symm.trans e1
  · cases hfail.symm.trans e2
  · cases hfail.symm.trans e3

/-- R79: the write parameter is p3 of the kinds with three parameters, and p1 of Input. -/
theorem Head.writesImmediate_iff :
    h.writesImmediate = true ↔ (h.op.params = 3 ∧ h.m3 = .immediate) ∨ (h.op = .inp ∧ h.m1 = .immediate) := by
  obtain ⟨op, _, _, _⟩ := h
  cases op <;> simp [Head.writesImmediate, Op.params]

/-- R75: the map names the numbers 1 to 9 and 99 alone. -/
theorem opOf_eq_none {n : Nat} (hn : n = 0 ∨ (10 ≤ n ∧ n ≤ 98)) : opOf n = none := by
  refine Option.eq_none_iff_forall_ne_some.mpr fun op ho => ?_
  rw [opOf_eq_some] at ho
  cases op <;> simp only [Op.number] at ho <;> omega

theorem opOf_toNat_mod_eq_none {v : Int} (hop : v % 100 = 0 ∨ (10 ≤ v % 100 ∧ v % 100 ≤ 98)) :
    opOf (v.toNat % 100) = none := opOf_eq_none (by omega)

/-! ### The word of a head -/

/-- R65: the modes of the parameters that the kind does not have are `position`. -/
structure Head.Canonical (h : Head) : Prop where
  m1 : h.op.params < 1 → h.m1 = .position
  m2 : h.op.params < 2 → h.m2 = .position
  m3 : h.op.params < 3 → h.m3 = .position

/-- R81: `w = OP + 100*m1 + 1000*m2 + 10000*m3`. -/
def Head.word (h : Head) : Nat := h.op.number + 100 * h.m1.digit + 1000 * h.m2.digit + 10000 * h.m3.digit

theorem Head.Canonical.word_lt (hc : h.Canonical) : h.word < 10 ^ (h.op.params + 2) := by
  obtain ⟨op, m1, m2, m3⟩ := h
  obtain ⟨h1, h2, h3⟩ := hc
  have := m1.digit_le
  have := m2.digit_le
  have := m3.digit_le
  cases op <;> simp_all [Head.word, Op.params, Op.number, Mode.digit] <;> omega

/-- R67, R81: the digits of a head's word. -/
theorem Head.eq_word_iff {n : Nat} (hn : n < 10 ^ (h.op.params + 2)) :
    n = h.word ↔ n % 100 = h.op.number
      ∧ digit n 2 = h.m1.digit ∧ digit n 3 = h.m2.digit ∧ digit n 4 = h.m3.digit :=
  eq_digits_iff (hn.trans_le (pow_params_le _)) h.op.number_lt h.m1.digit_le h.m2.digit_le h.m3.digit_le

/-- R78, R81: a word decodes exactly where it is the word of what it decodes to. -/
theorem decodeWord_ok_iff_word :
    decodeWord w = .ok h ↔ w = h.word ∧ h.Canonical ∧ h.writesImmediate = false := by
  rw [decodeWord_ok, opOf_eq_some, Nat.div_eq_zero_iff_lt (Nat.pow_pos (by decide))]
  constructor
  · rintro ⟨hw, ho, h1, h2, h3, hn, hi⟩
    rw [paramMode_ok_of_lt hn] at h1 h2 h3
    have he : w.toNat = h.word := (Head.eq_word_iff hn).mpr ⟨ho, h1.1, h2.1, h3.1⟩
    exact ⟨by rw [← he, Int.toNat_of_nonneg hw], ⟨h1.2, h2.2, h3.2⟩, hi⟩
  · rintro ⟨rfl, hc, hi⟩
    have hn := hc.word_lt
    obtain ⟨ho, h1, h2, h3⟩ := (Head.eq_word_iff hn).mp rfl
    rw [Int.toNat_natCast, paramMode_ok_of_lt hn, paramMode_ok_of_lt hn, paramMode_ok_of_lt hn]
    exact ⟨Int.natCast_nonneg _, ho, ⟨h1, hc.m1⟩, ⟨h2, hc.m2⟩, ⟨h3, hc.m3⟩, hn, hi⟩

/-! ### The cells of an instruction -/

/-- The cells that stand for the first three parameters, where there are as many. -/
theorem take_eq_getD {n : Nat} {cs : List Word} (hn : n ≤ 3) (hl : n ≤ cs.length) :
    cs.take n = [cs.getD 0 0, cs.getD 1 0, cs.getD 2 0].take n := by
  refine List.ext_getElem (by simp [hl, hn]) fun k hk _ => ?_
  have hk3 : k = 0 ∨ k = 1 ∨ k = 2 := by rw [List.length_take] at hk; omega
  rw [List.getElem_take, List.getElem_take]
  rcases hk3 with rfl | rfl | rfl <;> exact List.getElem_eq_getD 0

/-- R72: the cells after the word give every parameter its raw value, and the rest stays. -/
theorem decode_ok {cells rest : List Word} :
    decode cells = .ok (i, rest) ↔ ∃ w h r1 r2 r3, decodeWord w = .ok h ∧ i = h.instr r1 r2 r3
      ∧ cells = w :: ([r1, r2, r3].take h.op.params ++ rest) := by
  constructor
  · intro hd
    rcases cells with _ | ⟨w, cs⟩
    · cases hd
    rcases hw : decodeWord w with f | h
    · simp [decode, hw] at hd
    · by_cases hlen : cs.length < h.op.params
      · simp [decode, hw, hlen] at hd
      · obtain ⟨rfl, rfl⟩ : h.instr (cs.getD 0 0) (cs.getD 1 0) (cs.getD 2 0) = i ∧ cs.drop h.op.params = rest := by
          simpa [decode, hw, hlen] using hd
        refine ⟨w, h, _, _, _, hw, rfl, ?_⟩
        rw [← take_eq_getD h.op.params_le (not_lt.mp hlen), List.take_append_drop]
  · rintro ⟨w, ⟨op, m1, m2, m3⟩, r1, r2, r3, hw, rfl, rfl⟩
    cases op <;> simp [decode, hw, Op.params, Head.instr]

theorem Instr.length_paramList (i : Instr) : i.paramList.length = i.op.params := by cases i <;> rfl

/-- R65: the mode of parameter k + 1, `position` where the kind has none. -/
def Instr.modeAt (i : Instr) (k : Nat) : Mode := (i.paramList[k]?.map Param.mode).getD .position

/-- The raw value of parameter k + 1; one that the kind does not have is never used. -/
def Instr.rawAt (i : Instr) (k : Nat) : Word := (i.paramList[k]?.map Param.raw).getD 0

/-- R65, R78: an instruction's kind and modes. -/
def Instr.head (i : Instr) : Head := ⟨i.op, i.modeAt 0, i.modeAt 1, i.modeAt 2⟩

theorem Instr.modeAt_of_le {k : Nat} (hk : i.op.params ≤ k) : i.modeAt k = .position := by
  rw [modeAt, List.getElem?_eq_none (i.length_paramList.le.trans hk)]
  rfl

theorem Instr.head_canonical (i : Instr) : i.head.Canonical where
  m1 hp := modeAt_of_le (Nat.le_of_lt_succ hp)
  m2 hp := modeAt_of_le (Nat.le_of_lt_succ hp)
  m3 hp := modeAt_of_le (Nat.le_of_lt_succ hp)

/-- R72: an instruction is its head with its raw values. -/
theorem Instr.instr_head (i : Instr) : i.head.instr (i.rawAt 0) (i.rawAt 1) (i.rawAt 2) = i := by cases i <;> rfl

theorem Head.Canonical.modeDigits_take (hc : h.Canonical) (r1 r2 r3 : Word) :
    modeDigits ([⟨h.m1, r1⟩, ⟨h.m2, r2⟩, ⟨h.m3, r3⟩].take h.op.params)
      = h.m1.digit + 10 * (h.m2.digit + 10 * h.m3.digit) := by
  obtain ⟨op, m1, m2, m3⟩ := h
  obtain ⟨h1, h2, h3⟩ := hc
  cases op <;> simp_all [Op.params, modeDigits, Mode.digit]

/-- R81: the encoding of a head with its raw values. -/
theorem Head.Canonical.encode_instr (hc : h.Canonical) (r1 r2 r3 : Word) :
    encode (h.instr r1 r2 r3) = (h.word : Word) :: [r1, r2, r3].take h.op.params := by
  have hword : (h.instr r1 r2 r3).word = h.word := by
    rw [Instr.word, Head.instr_op, instr_paramList, hc.modeDigits_take, Head.word]
    ring
  rw [encode, hword, instr_paramList, List.map_take]
  rfl

/-- R64, R70, R72, R79, R81: the decoder and the encoder agree. -/
theorem decode_ok_iff {cells rest : List Word} :
    decode cells = .ok (i, rest) ↔ i.wf = true ∧ cells = encode i ++ rest := by
  rw [decode_ok]
  constructor
  · rintro ⟨w, h, r1, r2, r3, hw, rfl, rfl⟩
    obtain ⟨rfl, hc, hi⟩ := decodeWord_ok_iff_word.mp hw
    exact ⟨by rw [Head.instr_wf, hi]; rfl, by rw [hc.encode_instr]; rfl⟩
  · rintro ⟨hwf, rfl⟩
    have hencode := i.head_canonical.encode_instr (i.rawAt 0) (i.rawAt 1) (i.rawAt 2)
    rw [i.instr_head] at hencode
    rw [← i.instr_head, Head.instr_wf, Bool.not_eq_true'] at hwf
    exact ⟨_, i.head, _, _, _, decodeWord_ok_iff_word.mpr ⟨rfl, i.head_canonical, hwf⟩, i.instr_head.symm,
      by rw [hencode]; rfl⟩

/-- R71: an instruction's cells are as many as its kind has. -/
theorem encode_length (i : Instr) : (encode i).length = i.op.len := by
  rw [encode, List.length_cons, List.length_map, i.length_paramList, Op.len, Nat.add_comm]

/-! ### The listed words -/

theorem Mode.digit_mem (m : Mode) : (m.digit : Word) ∈ ([0, 1, 2] : List Word) := by cases m <;> decide

theorem Mode.digit_mem_of_ne {m : Mode} (hm : m ≠ .immediate) : (m.digit : Word) ∈ ([0, 2] : List Word) := by
  cases m with
  | position => decide
  | immediate => exact absurd rfl hm
  | relative => decide

/-- R77: the words of Add, Multiply, LessThan and Equals. -/
theorem mem_legalWords_of_three {m3 : Mode} (hp : op.params = 3) (m1 m2 : Mode) (hm : m3 ≠ .immediate) :
    ((op.number + 100 * m1.digit + 1000 * m2.digit + 10000 * m3.digit : Nat) : Word) ∈ legalWords := by
  have ho : (op.number : Word) ∈ ([1, 2, 7, 8] : List Word) := by cases op <;> simp_all [Op.params, Op.number]
  simp only [legalWords, List.mem_append]
  exact .inl (.inl (.inl (.inl (.inl (List.mem_flatMap.mpr ⟨_, ho, List.mem_flatMap.mpr ⟨_, m1.digit_mem,
    List.mem_flatMap.mpr ⟨_, m2.digit_mem, List.mem_map.mpr ⟨_, Mode.digit_mem_of_ne hm, rfl⟩⟩⟩⟩)))))

/-- R77: the words of JumpIfTrue and JumpIfFalse. -/
theorem mem_legalWords_of_two (hp : op.params = 2) (m1 m2 : Mode) :
    ((op.number + 100 * m1.digit + 1000 * m2.digit : Nat) : Word) ∈ legalWords := by
  have ho : (op.number : Word) ∈ ([5, 6] : List Word) := by cases op <;> simp_all [Op.params, Op.number]
  simp only [legalWords, List.mem_append]
  exact .inl (.inr (List.mem_flatMap.mpr ⟨_, ho, List.mem_flatMap.mpr ⟨_, m1.digit_mem,
    List.mem_map.mpr ⟨_, m2.digit_mem, rfl⟩⟩⟩))

/-- R77: the words of Input, Output and AdjustRelativeBase. -/
theorem mem_legalWords_of_one {m1 : Mode} (hp : op.params = 1) (hm : op = .inp → m1 ≠ .immediate) :
    ((op.number + 100 * m1.digit : Nat) : Word) ∈ legalWords := by
  have ho : op = .inp ∨ op = .out ∨ op = .arb := by cases op <;> simp_all [Op.params]
  rcases ho with rfl | rfl | rfl
  · cases m1 with
    | position => decide
    | immediate => exact absurd rfl (hm rfl)
    | relative => decide
  · cases m1 <;> decide
  · cases m1 <;> decide

/-- R77, R79: the word of every head whose write parameter is not IMMEDIATE is listed. -/
theorem Head.Canonical.word_mem_legalWords (hc : h.Canonical) (hi : h.writesImmediate = false) :
    (h.word : Word) ∈ legalWords := by
  have hw := mt Head.writesImmediate_iff.mpr (Bool.eq_false_iff.mp hi)
  obtain ⟨op, m1, m2, m3⟩ := h
  obtain ⟨h1, h2, h3⟩ := hc
  cases op
  case add | mul | lt | eq => exact mem_legalWords_of_three rfl m1 m2 fun e => hw (.inl ⟨rfl, e⟩)
  case jt | jf =>
    obtain rfl : m3 = .position := h3 (by simp [Op.params])
    exact mem_legalWords_of_two rfl m1 m2
  case inp | out | arb =>
    obtain rfl : m2 = .position := h2 (by simp [Op.params])
    obtain rfl : m3 = .position := h3 (by simp [Op.params])
    exact mem_legalWords_of_one rfl fun e1 e2 => hw (.inr ⟨e1, e2⟩)
  case halt =>
    obtain rfl : m1 = .position := h1 (by simp [Op.params])
    obtain rfl : m2 = .position := h2 (by simp [Op.params])
    obtain rfl : m3 = .position := h3 (by simp [Op.params])
    decide

/-- R77: every listed word decodes. -/
theorem decodes_of_mem_legalWords : ∀ w ∈ legalWords, (decodeWord w).isOk = true := by decide

/-! ### The statements -/

/-- Settles O2: the decoder and the encoder agree (`decode_ok_iff`). -/
theorem decodeOfEncode : Obligations.DecodeOfEncode := fun _ _ hwf => decode_ok_iff.mpr ⟨hwf, rfl⟩

/-- Settles O3: the decoder and the encoder agree (`decode_ok_iff`). -/
theorem encodeOfDecode : Obligations.EncodeOfDecode := fun _ _ i hd =>
  have ⟨hwf, hcells⟩ := decode_ok_iff.mp hd
  ⟨hwf, hcells, encode_length i⟩

/-- Settles O4: a word that decodes is its head's, which is listed; the listed words decode, one by one. -/
theorem legalWordsAreTheListed99 : Obligations.LegalWordsAreTheListed99 := by
  refine ⟨by decide, by decide, fun w => ⟨?_, fun hw => ?_⟩⟩
  · rintro ⟨h, hd⟩
    obtain ⟨rfl, hc, hi⟩ := decodeWord_ok_iff_word.mp hd
    exact hc.word_mem_legalWords hi
  · have hok := decodes_of_mem_legalWords w hw
    rcases hd : decodeWord w with f | h
    · rw [hd] at hok
      cases hok
    · exact ⟨h, rfl⟩

/-- Settles O5: the checks of R78, each by the lemma that states it. -/
theorem decoderChecksInOrder : Obligations.DecoderChecksInOrder := by
  refine fun w => ⟨decodeWord_of_neg, decodeWord_of_opOf_none, fun op hw ho => ⟨?_, fun hd => ?_⟩⟩
  · rintro ⟨k, h1, hk, hgt⟩
    exact decodeWord_of_modeDigit hw ho h1 hk hgt
  obtain ⟨m1, e1, d1⟩ := exists_paramMode_ok (hd 1 le_rfl)
  obtain ⟨m2, e2, d2⟩ := exists_paramMode_ok (hd 2 (by decide))
  obtain ⟨m3, e3, d3⟩ := exists_paramMode_ok (hd 3 (by decide))
  have hword := decodeWord_eq_bind hw ho
  simp only [e1, e2, e3, Except.bind] at hword
  have hwrites : (Head.mk op m1 m2 m3).writesImmediate = true
      ↔ (op.params = 3 ∧ digit w.toNat 4 = 1) ∨ (op = .inp ∧ digit w.toNat 2 = 1) := by
    rw [Head.writesImmediate_iff]
    refine or_congr (and_congr_right fun hp => ?_) (and_congr_right fun hp => ?_)
    · rw [← d3 hp.ge, Mode.digit_eq_one]
    · rw [← d1 (by rw [show op = .inp from hp]; decide), Mode.digit_eq_one]
  refine ⟨fun hz => by rw [hword, if_pos hz], fun hz => ⟨fun hbad => ?_, fun hgood => ?_⟩⟩
  · rw [hword, if_neg (not_not.mpr hz), if_pos (hwrites.mpr hbad)]
  · rw [hword, if_neg (not_not.mpr hz), if_neg (mt hwrites.mp hgood)]
    exact ⟨m1, m2, m3, rfl, d1, d2, d3⟩

/-- Settles O6: a mode digit that names no mode fails first and with the same fault (O5); what decodes is the word of
its head. -/
theorem highDigitsMustBeZero : Obligations.HighDigitsMustBeZero := by
  refine ⟨fun w op hw ho hz => ?_, fun w h hd => ?_, fun w => ⟨?_, ?_⟩⟩
  · obtain ⟨_, _, hchecks⟩ := decoderChecksInOrder w
    obtain ⟨hmode, hhigh⟩ := hchecks op hw ho
    by_cases hd : ∃ k, 1 ≤ k ∧ k ≤ op.params ∧ 2 < digit w.toNat (k + 1)
    · exact hmode hd
    · exact (hhigh fun k h1 hk => not_lt.mp fun hgt => hd ⟨k, h1, hk, hgt⟩).1 hz
  · obtain ⟨rfl, hc, _⟩ := decodeWord_ok_iff_word.mp hd
    exact hc.word_lt
  · rintro ⟨⟨op, m1, m2, m3⟩, hd, rfl⟩
    obtain ⟨rfl, ⟨h1, h2, h3⟩, _⟩ := decodeWord_ok_iff_word.mp hd
    obtain rfl : m1 = .position := h1 (by simp [Op.params])
    obtain rfl : m2 = .position := h2 (by simp [Op.params])
    obtain rfl : m3 = .position := h3 (by simp [Op.params])
    rfl
  · rintro rfl
    exact ⟨⟨.halt, .position, .position, .position⟩, rfl, rfl⟩

/-- Settles O35: the opcode map has no entry (`opOf_eq_none`); a cell that nothing has written reads 0. -/
theorem unknownOpcodes : Obligations.UnknownOpcodes := by
  have hword : ∀ w : Word, 0 ≤ w → (w % 100 = 0 ∨ (10 ≤ w % 100 ∧ w % 100 ≤ 98)) →
      decodeWord w = .error .unknownOpcode := fun w hw hop =>
    decodeWord_of_opOf_none hw (opOf_toNat_mod_eq_none hop)
  refine ⟨hword, fun s i m x hr hq hip hlim hunwritten => ?_⟩
  have hread : memRead s.cfg x x.ip = .ok 0 := memRead_ok.mpr ⟨hip, hlim, (Mem.read_of_not_mem hunwritten).symm⟩
  have hfetch : fetch s.cfg x = .error .unknownOpcode := fetch_decode_error hread (hword 0 le_rfl (.inl rfl))
  exact ⟨_, step_fetch_error hr hq hfetch, faultEntry_takeFault hr.2.1 _⟩

/-- Settles O1: each word decodes by computation. -/
theorem specWordsDecode : Obligations.SpecWordsDecode :=
  ⟨rfl, rfl, rfl, rfl, rfl, rfl, rfl, rfl, rfl, rfl, rfl, rfl⟩

end Sys2Proof
end

section
/-! The invariant of the control (O41, O43; spec/40_datapath.md R83, spec/60_exceptions.md R190, R195 to R215): every
operation of the block keeps it, and with unbounded queues every operation that it allows answers a next state. `CtlOk`
is the Boolean of Sys2Proof/Safety.lean with its conjuncts named. -/

namespace Sys2Proof.Machine

/-! ### The invariant with named parts -/

/-- `State.ctlOk`, its conjuncts and its cases named. -/
structure CtlOk (s : State) : Prop where
  wiring  : wiringOk s = true
  sched   : schedOk s = true
  idle    : s.ctl = .idle → s.sched = .off
  running : ∀ i m, s.ctl = .running i m → (∃ x, s.inst? i = some x ∧ x.ready = true) ∧ turnOk s.sched i m = true
  stopped : ∀ i st, s.ctl = .stopped i st → (∃ x, s.inst? i = some x) ∧ stopOk s i st = true
  turn    : s.ctl = .turn → s.sched ≠ .off

theorem ctlOk_iff {s : State} : CtlOk s ↔ s.ctlOk = true := by
  rw [State.ctlOk_iff]
  constructor
  · rintro ⟨hw, hs, hidle, hrun, hstop, hturn⟩
    refine ⟨hw, hs, ?_⟩
    rcases hc : s.ctl with _ | ⟨i, m⟩ | ⟨i, st⟩ | _
    · exact decide_eq_true (hidle hc)
    · obtain ⟨⟨x, hx, hr⟩, hm⟩ := hrun i m hc
      simp [hx, hr, hm]
    · obtain ⟨⟨x, hx⟩, hst⟩ := hstop i st hc
      simp [hx, hst]
    · exact decide_eq_true (hturn hc)
  · rintro ⟨hw, hs, hctl⟩
    refine ⟨hw, hs, fun hc => ?_, fun i m hc => ?_, fun i st hc => ?_, fun hc => ?_⟩ <;> rw [hc] at hctl
    · exact of_decide_eq_true hctl
    · rcases hx : s.inst? i with _ | x
      · simp [hx] at hctl
      · simp only [hx, Bool.and_eq_true] at hctl
        exact ⟨⟨x, rfl, hctl.1⟩, hctl.2⟩
    · obtain ⟨hx, hst⟩ := Bool.and_eq_true_iff.mp hctl
      exact ⟨Option.isSome_iff_exists.mp hx, hst⟩
    · exact of_decide_eq_true hctl

/-! ### What keeps instances and wirings -/

/-- From s to t the configuration and the number of instances stay, no instance vanishes, and no wiring is new. -/
structure KeepsLinks (s t : State) : Prop where
  cfg    : t.cfg = s.cfg
  length : t.insts.length = s.insts.length
  exist  : ∀ j x, s.inst? j = some x → ∃ y, t.inst? j = some y
  links  : ∀ j y, t.inst? j = some y → y.outTo = none ∨ ∃ x, s.inst? j = some x ∧ x.outTo = y.outTo

section
variable {s t u : State} {i : Nat} {m : Mask} {x y : Inst} {st : Status} {v : Word} {q : List Word}

theorem KeepsLinks.of_insts_eq (hc : t.cfg = s.cfg) (hi : t.insts = s.insts) : KeepsLinks s t where
  cfg := hc
  length := by rw [hi]
  exist j x hx := ⟨x, by rw [State.inst?_congr hi, hx]⟩
  links j y hy := .inr ⟨y, by rw [← State.inst?_congr hi, hy], rfl⟩

theorem KeepsLinks.refl (s : State) : KeepsLinks s s := .of_insts_eq rfl rfl

theorem KeepsLinks.trans (h : KeepsLinks s t) (h' : KeepsLinks t u) : KeepsLinks s u where
  cfg := h'.cfg.trans h.cfg
  length := h'.length.trans h.length
  exist j x hx := (h.exist j x hx).elim fun y hy => h'.exist j y hy
  links j z hz := by
    rcases h'.links j z hz with hn | ⟨y, hy, hyz⟩
    · exact .inl hn
    · rw [← hyz]
      exact h.links j y hy

theorem KeepsLinks.stop (h : KeepsLinks s t) (st : Status) : KeepsLinks s (t.stop i st) :=
  h.trans (.of_insts_eq rfl rfl)

theorem KeepsLinks.setInst (hi : i < s.insts.length)
    (hw : y.outTo = none ∨ ∃ x, s.inst? i = some x ∧ x.outTo = y.outTo) : KeepsLinks s (s.setInst i y) where
  cfg := rfl
  length := State.length_setInst
  exist j x hx := by
    rw [State.inst?_setInst hi]
    split
    · exact ⟨y, rfl⟩
    · exact ⟨x, hx⟩
  links j z hz := by
    rw [State.inst?_setInst hi] at hz
    split at hz
    · next e =>
      cases hz
      exact e ▸ hw
    · exact .inr ⟨z, hz, rfl⟩

/-- An instance that exists is replaced by one with the same wiring. -/
theorem KeepsLinks.update (hx : s.inst? i = some x) (hw : x.outTo = y.outTo) : KeepsLinks s (s.setInst i y) :=
  .setInst (State.inst?_lt hx) (.inr ⟨x, hx, hw⟩)

/-- R37: LOAD gives the instance a queue of its own. -/
theorem KeepsLinks.load {prog inbound : List Word} (hi : i < s.insts.length) :
    KeepsLinks s (s.setInst i (Inst.load prog inbound)) :=
  .setInst hi (.inl rfl)

theorem KeepsLinks.setOutQueue : KeepsLinks s (s.setOutQueue i q) := by
  unfold State.setOutQueue
  split
  · exact .refl s
  · next x hx =>
    split
    · exact .update hx rfl
    · split
      · exact .refl s
      · next y hy => exact .update hy rfl

theorem KeepsLinks.pushIn (ht : s.pushIn i v = some t) : KeepsLinks s t := by
  obtain ⟨x, hx, _, _, rfl⟩ := State.pushIn_eq_some.mp ht
  exact .update hx rfl

theorem KeepsLinks.popOut {r : Option Word} (ht : s.popOut i = some (t, r)) : KeepsLinks s t := by
  obtain ⟨q, _, _, ⟨_, rfl⟩ | ⟨_, rfl⟩⟩ := State.popOut_eq_some.mp ht
  · exact .refl _
  · exact .setOutQueue

theorem KeepsLinks.append (ht : s.append i v = .ok t) : KeepsLinks s t := by
  obtain ⟨x, hx, _, rfl⟩ := State.append_ok.mp ht
  exact .update hx rfl

theorem KeepsLinks.append2 {a b : Word} (ht : s.append2 i a b = .ok t) : KeepsLinks s t := by
  obtain ⟨x, hx, _, rfl⟩ := State.append2_ok.mp ht
  exact .update hx rfl

theorem KeepsLinks.takeFault (hx : s.inst? i = some x) (k : FaultKind) : KeepsLinks s (s.takeFault i k) := by
  rw [State.takeFault_eq hx]
  exact (KeepsLinks.update (y := { x with fault := some k, faultIp := x.ip }) hx rfl).stop _

theorem KeepsLinks.outState {n : Word} (hx : s.inst? i = some x) : KeepsLinks s (outState s i m x n v q) := by
  have hout : KeepsLinks s ((s.setInst i { x with ip := n }).setOutQueue i (q ++ [v])) :=
    (KeepsLinks.update (y := { x with ip := n }) hx rfl).trans .setOutQueue
  unfold Machine.outState
  split
  · exact hout.stop _
  · exact hout

/-- R36: a transaction performed while another instance runs. -/
theorem Undisturbed.keepsLinks {c : HostCmd} (h : Undisturbed s t c) : KeepsLinks s t := by
  obtain ⟨_, _, hcfg, hlen, hexist, hlinks⟩ := h
  exact ⟨hcfg, hlen, fun j x hx => (hexist j x hx).elim fun y hy => ⟨y, hy.1⟩, hlinks⟩

/-! ### What it keeps of the invariant -/

/-- R31. -/
theorem KeepsLinks.wiringOk (h : KeepsLinks s t) (hw : wiringOk s = true) : wiringOk t = true := by
  rw [wiringOk_iff] at hw ⊢
  intro j y k hy hk
  rcases h.links j y hy with hn | ⟨x, hx, hxy⟩
  · rw [hn] at hk
    cases hk
  · obtain ⟨z, hz⟩ := hw j x k hx (hxy.trans hk)
    exact h.exist k z hz

theorem KeepsLinks.allLoaded (h : KeepsLinks s t) (hl : allLoaded s = true) : allLoaded t = true := by
  rw [allLoaded_iff] at hl ⊢
  intro j hj
  obtain ⟨x, hx⟩ := hl j (h.length ▸ hj)
  exact h.exist j x hx

/-- R201 to R208. -/
theorem KeepsLinks.schedOk (h : KeepsLinks s t) (hd : t.sched = s.sched) (hs : schedOk s = true) :
    schedOk t = true := by
  rcases hc : s.sched with _ | p | r | n <;> have hc' := hd.trans hc
  · exact schedOk_off hc'
  · obtain ⟨hlen, hnext, hload, hexist⟩ := (schedOk_pipeline hc).mp hs
    rw [schedOk_pipeline hc', h.length, h.cfg]
    exact ⟨hlen, hnext, hload, fun hp => (hexist hp).elim fun x hx => h.exist _ x hx⟩
  · obtain ⟨hl, hnext⟩ := (schedOk_ring hc).mp hs
    rw [schedOk_ring hc', h.length]
    exact ⟨h.allLoaded hl, hnext⟩
  · obtain ⟨hl, hnext, hpart⟩ := (schedOk_star hc).mp hs
    rw [schedOk_star hc', h.length]
    exact ⟨h.allLoaded hl, hnext, hpart⟩

/-! ### Who moves next, after an operation -/

theorem CtlOk.of_idle (hw : wiringOk s = true) (hc : s.ctl = .idle) (hd : s.sched = .off) : CtlOk s where
  wiring := hw
  sched := schedOk_off hd
  idle _ := hd
  running i m e := by simp [hc] at e
  stopped i st e := by simp [hc] at e
  turn e := by simp [hc] at e

/-- R83, R195. -/
theorem CtlOk.of_running (hw : wiringOk s = true) (hs : schedOk s = true) (hc : s.ctl = .running i m)
    (hx : s.inst? i = some x) (hr : x.ready = true) (hm : turnOk s.sched i m = true) : CtlOk s where
  wiring := hw
  sched := hs
  idle e := by simp [hc] at e
  running i' m' e := by
    obtain ⟨rfl, rfl⟩ : i = i' ∧ m = m' := by simpa [hc] using e
    exact ⟨⟨x, hx, hr⟩, hm⟩
  stopped i st e := by simp [hc] at e
  turn e := by simp [hc] at e

/-- R195 to R197. -/
theorem CtlOk.of_stopped (hw : wiringOk s = true) (hs : schedOk s = true) (hc : s.ctl = .stopped i st)
    (hx : s.inst? i = some x) (hst : stopOk s i st = true) : CtlOk s where
  wiring := hw
  sched := hs
  idle e := by simp [hc] at e
  running i m e := by simp [hc] at e
  stopped i' st' e := by
    obtain ⟨rfl, rfl⟩ : i = i' ∧ st = st' := by simpa [hc] using e
    exact ⟨⟨x, hx⟩, hst⟩
  turn e := by simp [hc] at e

/-- R200: a pattern's next transaction is due. -/
theorem CtlOk.nextTurn {d : Sched} (hw : wiringOk s = true) (hs : schedOk (s.nextTurn d) = true) (hd : d ≠ .off) :
    CtlOk (s.nextTurn d) where
  wiring := hw
  sched := hs
  idle e := by cases e
  running i m e := by cases e
  stopped i st e := by cases e
  turn _ := hd

/-- R202: a pipeline's next transaction is due, and its LOADs will be accepted. -/
theorem CtlOk.nextTurn_pipeline {p : Pipeline} (hw : wiringOk s = true) (hlen : p.phases.length = s.insts.length)
    (hnext : p.next < s.insts.length) (hload : ∀ ph ∈ p.phases, canLoad s.cfg p.prog [ph, p.signal] = true)
    (hx : p.loaded = true → ∃ x, s.inst? p.next = some x) : CtlOk (s.nextTurn (.pipeline p)) :=
  .nextTurn hw ((schedOk_pipeline rfl).mpr ⟨hlen, hnext, hload, hx⟩) (by simp)

/-- R236: the end of a pattern's run. -/
theorem CtlOk.finish (hw : wiringOk s = true) (e : PatternEnd) : CtlOk (s.finish e) := .of_idle hw rfl rfl

/-- The host's lists and the replies are no part of the control. -/
theorem CtlOk.congr (h : CtlOk s) (hcfg : t.cfg = s.cfg) (hinsts : t.insts = s.insts) (hctl : t.ctl = s.ctl)
    (hsched : t.sched = s.sched) : CtlOk t := by
  have hk : KeepsLinks s t := .of_insts_eq hcfg hinsts
  have hstop : ∀ i st, stopOk t i st = stopOk s i st := fun i st => by
    simp only [stopOk, hsched, State.outQueue_congr hinsts]
  refine ⟨hk.wiringOk h.wiring, hk.schedOk hsched h.sched, ?_, ?_, ?_, ?_⟩
  · rw [hctl, hsched]
    exact h.idle
  · simp only [hctl, hsched, State.inst?_congr hinsts]
    exact h.running
  · simp only [hctl, State.inst?_congr hinsts, hstop]
    exact h.stopped
  · rw [hctl, hsched]
    exact h.turn

theorem CtlOk.reply (h : CtlOk s) (r : Reply) : CtlOk (s.reply r) := h.congr rfl rfl rfl rfl

theorem CtlOk.setAtPort (h : CtlOk s) (l : List HostCmd) : CtlOk { s with atPort := l } := h.congr rfl rfl rfl rfl

theorem CtlOk.setHost (h : CtlOk s) (l : List HostCmd) : CtlOk { s with host := l } := h.congr rfl rfl rfl rfl

/-- R196, R197: a turn that is its pattern's stops with a status that its mask selects. -/
theorem stopOk_of_turnOk (hm : turnOk s.sched i m = true) (hn : st = .needsInput → m.needsInput = true)
    (ho : st = .hasOutput → m.hasOutput = true ∧ ∃ v q, s.outQueue i = some (v :: q)) : stopOk s i st = true := by
  rcases hd : s.sched with _ | p | r | n <;>
    simp only [hd, turnOk, Bool.and_eq_true, decide_eq_true_eq] at hm
  · simp [stopOk, hd]
  · obtain ⟨rfl, rfl⟩ := hm
    have hn' : st ≠ .needsInput := fun e => absurd (hn e) (by decide)
    have ho' : st ≠ .hasOutput := fun e => absurd (ho e).1 (by decide)
    simp [stopOk, hd, hn', ho']
  · obtain ⟨rfl, rfl⟩ := hm
    have hn' : st ≠ .needsInput := fun e => absurd (hn e) (by decide)
    simp [stopOk, hd, hn']
  · obtain ⟨rfl, rfl⟩ := hm
    by_cases he : st = .hasOutput
    · obtain ⟨_, v, q, hq⟩ := ho he
      simp [stopOk, hd, hq]
    · simp [stopOk, hd, he]

/-- The running instance's turn goes on. -/
theorem CtlOk.keep_running (h : CtlOk s) (hc : s.ctl = .running i m) (hk : KeepsLinks s t) (hc' : t.ctl = s.ctl)
    (hd : t.sched = s.sched) (hx : t.inst? i = some x) (hr : x.ready = true) : CtlOk t := by
  obtain ⟨_, hm⟩ := h.running i m hc
  exact .of_running (hk.wiringOk h.wiring) (hk.schedOk hd h.sched) (hc'.trans hc) hx hr (hd ▸ hm)

/-- The running instance's turn stops. -/
theorem CtlOk.stop_running (h : CtlOk s) (hc : s.ctl = .running i m) (hk : KeepsLinks s t)
    (hc' : t.ctl = .stopped i st) (hd : t.sched = s.sched) (hx : t.inst? i = some x)
    (hn : st = .needsInput → m.needsInput = true)
    (ho : st = .hasOutput → m.hasOutput = true ∧ ∃ v q, t.outQueue i = some (v :: q)) : CtlOk t := by
  obtain ⟨_, hm⟩ := h.running i m hc
  exact .of_stopped (hk.wiringOk h.wiring) (hk.schedOk hd h.sched) hc' hx (stopOk_of_turnOk (hd ▸ hm) hn ho)

/-- R192, R195, R198: RESUME with the mask of the turn, where a pattern runs. -/
theorem CtlOk.beginResume (h : CtlOk s) (hm : turnOk s.sched i m = true) (ht : s.beginResume i m = some t) :
    CtlOk t := by
  obtain ⟨x, hx, ⟨k, _, rfl⟩ | ⟨_, _, rfl⟩ | ⟨hr, rfl⟩⟩ := State.beginResume_eq_some ht
  · exact .of_stopped h.wiring h.sched rfl hx (stopOk_of_turnOk hm (by simp) (by simp))
  · exact .of_stopped h.wiring h.sched rfl hx (stopOk_of_turnOk hm (by simp) (by simp))
  · exact .of_running h.wiring h.sched rfl hx hr hm

/-! ### Instructions -/

theorem CtlOk.takeFault (h : CtlOk s) (hr : Running s i m x) (k : FaultKind) : CtlOk (s.takeFault i k) := by
  obtain ⟨hc, hx, _⟩ := hr
  obtain ⟨y, hy⟩ := (KeepsLinks.takeFault hx k).exist i x hx
  have he := State.takeFault_eq hx k
  exact h.stop_running hc (.takeFault hx k) (by rw [he, State.stop_ctl])
    (by rw [he, State.stop_sched, State.setInst_sched]) hy (by simp) (by simp)

/-- R104, R197: OUT goes on, or stops with its value in OUTQ where the mask has HasOutput. -/
theorem CtlOk.outState {n : Word} (h : CtlOk s) (hr : Running s i m x) (hq : s.outQueue i = some q) :
    CtlOk (outState s i m x n v q) := by
  obtain ⟨hc, hx, hh, hf⟩ := hr
  obtain ⟨y, hy, _, _, _, hyh, hyf, _⟩ := outState_other (m := m) (n := n) (v := v) (q := q) hx hx
  rw [if_pos rfl] at hyh hyf
  rcases ho : m.hasOutput with _ | _
  · exact h.keep_running hc (.outState hx) (by simp [outState_ctl, ho]) outState_sched hy
      (Inst.ready_iff.mpr ⟨hyh.trans hh, hyf.trans hf⟩)
  · obtain ⟨w, l, hl⟩ := List.exists_cons_of_ne_nil (List.concat_ne_nil v q)
    exact h.stop_running (st := .hasOutput) hc (.outState hx) (by rw [outState_ctl, if_pos ho]) outState_sched hy
      (by simp) fun _ => ⟨ho, w, l, by rw [outState_outQueue hx hq, hl]⟩

/-- R97: every instruction. -/
theorem CtlOk.exec {ins : Instr} (h : CtlOk s) (hr : Running s i m x) (ht : exec ins s = .next t) : CtlOk t := by
  obtain ⟨hc, hx, hh, hf⟩ := id hr
  have hself : ∀ y, (s.setInst i y).inst? i = some y := fun _ => State.inst?_setInst_self hr.lt
  rcases exec_next hr ht with ⟨k, rfl⟩ | ⟨y, rfl, hyh, hyf, _, _, hyw, _⟩ | ⟨hm, rfl⟩ | rfl | ⟨n, v, q, hq, _, rfl⟩
  · exact h.takeFault hr k
  · exact h.keep_running hc (.update hx hyw.symm) rfl rfl (hself y)
      (Inst.ready_iff.mpr ⟨hyh.trans hh, hyf.trans hf⟩)
  · exact h.stop_running hc (.stop (.refl s) _) rfl rfl hx (fun _ => hm) (by simp)
  · exact h.stop_running hc ((KeepsLinks.update (y := { x with halted := true }) hx rfl).stop _) rfl rfl (hself _)
      (by simp) (by simp)
  · exact h.outState hr hq

theorem CtlOk.stepInstruction (h : CtlOk s) (ht : stepInstruction Machine.exec s = .next t) : CtlOk t := by
  obtain ⟨i, m, x, hr, hk⟩ := State.onActive_next ht
  rcases State.attempt_next hk with ⟨k, _, rfl⟩ | ⟨ins, _, he⟩
  · exact h.takeFault hr k
  · exact h.exec hr he

end

/-! ### The host's transactions -/

section
variable {s t u : State} {i : Nat} {c : HostCmd} {prog phases : List Word}

/-- A transaction is performed, or refused with nothing but a reply. -/
theorem CtlOk.orRefuse {o : Option State} (h : CtlOk s) (ho : ∀ u, o = some u → CtlOk u)
    (ht : s.orRefuse c o = .next t) : CtlOk t := by
  rcases State.orRefuse_next ht with e | ⟨_, rfl⟩
  · exact ho t e
  · exact h.reply _

theorem CtlOk.answer {α : Type} {o : Option α} {r : α → Reply} (h : CtlOk s) (ht : s.answer c o r = .next t) :
    CtlOk t := by
  obtain ⟨r, rfl⟩ := State.answer_next ht
  exact h.reply r

/-- R36: an idle block stays idle through what begins no turn. -/
theorem CtlOk.keep_idle (h : CtlOk s) (hc : s.ctl = .idle) (hk : KeepsLinks s t) (hc' : t.ctl = s.ctl)
    (hd : t.sched = s.sched) : CtlOk t :=
  .of_idle (hk.wiringOk h.wiring) (hc'.trans hc) (hd.trans (h.idle hc))

/-- R201, R202: each stage will be LOADed at its turn. -/
theorem CtlOk.startPipeline (h : CtlOk s) (ht : startPipeline prog phases s = some t) : CtlOk t := by
  obtain ⟨hpos, hlen, hload, rfl⟩ := startPipeline_eq_some.mp ht
  exact .nextTurn_pipeline h.wiring hlen hpos hload (by simp)

/-- The block with the instances that the boot of a ring LOADs (R204, R230), before RING_INPUT is appended. -/
def ringBooted (prog phases : List Word) (s : State) : State :=
  { s with insts := ringInsts prog phases.length 0 phases }.nextTurn (.ring { next := 0, last := none })

theorem ringBooted_length : (ringBooted prog phases s).insts.length = phases.length := ringInsts_length

theorem ringBooted_allLoaded : allLoaded (ringBooted prog phases s) = true := by
  rw [allLoaded_iff]
  intro j hj
  obtain ⟨ph, _, e⟩ := ringInsts_get (List.getElem?_eq_getElem hj)
  exact ⟨_, State.inst?_eq_some.mpr ((List.getElem?_eq_getElem hj).trans (congrArg some e))⟩

/-- R204: OUTQ(i) is the INQ of the next instance. -/
theorem ringBooted_ctlOk (hpos : 0 < phases.length) : CtlOk (ringBooted prog phases s) := by
  have hloaded := allLoaded_iff.mp (ringBooted_allLoaded (prog := prog) (phases := phases) (s := s))
  refine .nextTurn (wiringOk_iff.mpr fun j x k hx hk => ?_)
    ((schedOk_ring rfl).mpr ⟨ringBooted_allLoaded, by simpa [ringInsts_length] using hpos⟩) (by simp)
  obtain ⟨ph, _, e⟩ := ringInsts_get (State.inst?_eq_some.mp hx)
  cases e
  cases hk
  exact hloaded _ (by rw [ringBooted_length]; exact Nat.mod_lt _ hpos)

theorem CtlOk.startRing (hr : startRing prog phases s = some (.ok t)) : CtlOk t := by
  obtain ⟨hpos, hlen, _, _, ht⟩ := startRing_eq_some hr
  have hb : CtlOk (ringBooted prog phases s) := ringBooted_ctlOk (hlen ▸ hpos)
  obtain ⟨x, hx, _, rfl⟩ := State.append_ok.mp ht.symm
  have hk : KeepsLinks (ringBooted prog phases s)
      ((ringBooted prog phases s).setInst 0 { x with inq := x.inq ++ [s.cfg.ringInput] }) := .update hx rfl
  exact .nextTurn (hk.wiringOk hb.wiring) (hk.schedOk rfl hb.sched) (by simp)

/-- R207, R228: every instance is LOADed, and none is wired. -/
theorem CtlOk.startStar (ht : startStar prog s = some t) : CtlOk t := by
  obtain ⟨hpos, _, _, rfl⟩ := startStar_eq_some ht
  have hlen : ((natSeeds s.cfg s.insts.length).map fun q => some (Inst.load prog q)).length = s.insts.length := by
    rw [List.length_map, natSeeds_length]
  refine .nextTurn (wiringOk_iff.mpr fun j x k hx hk => ?_) ((schedOk_star rfl).mpr ⟨?_, ?_, ?_⟩) (by simp)
  · obtain ⟨q, _, e⟩ := by simpa [State.inst?_eq_some] using hx
    subst e
    cases hk
  · simp [allLoaded]
  · exact hlen.symm ▸ hpos
  · exact (List.length_replicate ..).trans hlen.symm

theorem CtlOk.startPattern {p : Pattern} (h : CtlOk s) (ht : startPattern p s = .next t) : CtlOk t := by
  cases p with
  | pipeline => exact h.orRefuse (fun _ => h.startPipeline) ht
  | star => exact h.orRefuse (fun _ => .startStar) ht
  | ring prog phases =>
    unfold Machine.startPattern at ht
    rcases hr : Machine.startRing prog phases s with _ | e <;> simp only [hr] at ht
    · cases ht
      exact h.reply _
    · obtain ⟨u, rfl, hu⟩ := orFault_next ht
      cases hu
      exact .startRing hr

/-- R36 to R42: a transaction of an idle block. -/
theorem CtlOk.perform (h : CtlOk s) (hc : s.ctl = .idle) (ht : perform c s = .next t) : CtlOk t := by
  have hoff := h.idle hc
  cases c with
  | load =>
    refine h.orRefuse (fun u hu => ?_) ht
    obtain ⟨w, hw, rfl⟩ := Option.map_eq_some_iff.mp hu
    obtain ⟨hi, _, rfl⟩ := State.load_eq_some.mp hw
    exact (h.keep_idle hc (.load hi) rfl rfl).reply _
  | resume => exact h.orRefuse (fun _ => h.beginResume (by rw [hoff]; rfl)) ht
  | pushIn =>
    refine h.orRefuse (fun u hu => ?_) ht
    obtain ⟨w, hw, rfl⟩ := Option.map_eq_some_iff.mp hu
    have hk := KeepsLinks.pushIn hw
    obtain ⟨x, _, _, _, rfl⟩ := State.pushIn_eq_some.mp hw
    exact (h.keep_idle hc hk rfl rfl).reply _
  | popOut =>
    refine h.orRefuse (fun u hu => ?_) ht
    obtain ⟨⟨w, r⟩, hw, rfl⟩ := Option.map_eq_some_iff.mp hu
    have hk := KeepsLinks.popOut hw
    obtain ⟨q, _, _, ⟨_, rfl⟩ | ⟨_, rfl⟩⟩ := State.popOut_eq_some.mp hw
    · exact h.reply _
    · exact (h.keep_idle hc hk (by simp) (by simp)).reply _
  | readOutq => exact h.answer ht
  | readStatus => exact h.answer ht
  | readMem => exact h.answer ht
  | start => exact h.startPattern ht

/-- R36, R222: a transaction at the ports; of the running instance it changes at most the queues. -/
theorem CtlOk.stepPresented (h : CtlOk s) (hm : MayPerform s c ∨ MustRefuse s c)
    (ht : stepPresented c s = .next t) : CtlOk t := by
  rcases hc : s.ctl with _ | ⟨i, m⟩ | ⟨i, st⟩ | _
  · rw [stepPresented_idle hc] at ht
    exact h.perform hc ht
  · obtain ⟨hu, hrun⟩ := stepPresented_keeps (by simp [hc]) hm ht
    obtain ⟨⟨x, hx, hr⟩, _⟩ := h.running i m hc
    obtain ⟨y, hy, _, _, _, hh, hf, _⟩ := hrun i m x hc hx
    have hready : y.ready = true := by
      rw [Inst.ready_iff, hh, hf]
      exact Inst.ready_iff.mp hr
    obtain ⟨hctl, hsched, _⟩ := id hu
    exact h.keep_running hc hu.keepsLinks hctl hsched hy hready
  all_goals
    obtain ⟨r, rfl⟩ := stepPresented_between (by simp [hc]) (by simp [hc]) hm ht
    exact h.reply r

theorem CtlOk.stepIdle (h : CtlOk s) (hc : s.ctl = .idle) (ht : stepIdle s = .next t) : CtlOk t := by
  rcases hh : s.host with _ | ⟨c, l⟩
  · rw [stepIdle_nil hh] at ht
    cases ht
    exact h
  · rw [stepIdle_cons hh] at ht
    exact (h.setHost l).perform hc ht

end

/-! ### The scheduler -/

section
variable {s t u : State} {i : Nat} {st : Status} {n n' : Star} {v : Word}

/-- R202: the stage's LOAD, then its RESUME. -/
theorem CtlOk.pipelineTurn {p : Pipeline} (h : CtlOk s) (hp : s.sched = .pipeline p)
    (ht : pipelineTurn p s = .next t) : CtlOk t := by
  obtain ⟨hlen, hnext, hload, _⟩ := (schedOk_pipeline hp).mp h.sched
  rcases pipelineTurn_next ht with ⟨_, hb⟩ | ⟨ph, _, _, _, _, rfl⟩
  · exact h.beginResume (by simp [hp, turnOk]) hb
  · have hk : KeepsLinks s (s.setInst p.next (Inst.load p.prog [ph, p.signal])) := .load hnext
    exact .nextTurn_pipeline (hk.wiringOk h.wiring) (hlen.trans hk.length.symm) (hk.length.symm ▸ hnext) hload
      fun _ => ⟨_, State.inst?_setInst_self hnext⟩

/-- R202: what a stage put out is a word, so the next stage's LOAD will be accepted. -/
theorem CtlOk.pipelineStop {p : Pipeline} (hdata : DataOk s) (h : CtlOk s) (hp : s.sched = .pipeline p)
    (ht : pipelineStop p i st s = .next t) : CtlOk t := by
  obtain ⟨hlen, _, hload, _⟩ := (schedOk_pipeline hp).mp h.sched
  rcases pipelineStop_next ht with ⟨e, rfl⟩ | ⟨v, _, hq, hi, rfl⟩
  · exact .finish h.wiring e
  · refine .nextTurn_pipeline h.wiring hlen (hlen ▸ hi) (fun ph hph => ?_) (by simp)
    have hv : representable s.cfg v = true := (hdata.outQueue hq).words v (by simp)
    obtain ⟨hprog, hin, hfit, hdepth⟩ := canLoad_iff.mp (hload ph hph)
    exact canLoad_iff.mpr ⟨hprog, by simpa [hv] using hin ph (by simp), hfit, hdepth⟩

theorem CtlOk.ringStop {r : Ring} (h : CtlOk s) (hr : s.sched = .ring r) (ht : ringStop r i st s = .next t) :
    CtlOk t := by
  obtain ⟨hloaded, hnext⟩ := (schedOk_ring hr).mp h.sched
  rcases ringStop_next ht with ⟨e, rfl⟩ | ⟨l, rfl⟩
  · exact .finish h.wiring e
  · exact .nextTurn h.wiring
      ((schedOk_ring rfl).mpr ⟨hloaded, Nat.mod_lt _ (Nat.zero_lt_of_lt hnext)⟩) (by simp)

/-- R207, R208: what the end of instance i's turn in a star network needs of the block. -/
structure StarFits (s : State) (n : Star) (i : Nat) : Prop where
  wiring : wiringOk s = true
  loaded : allLoaded s = true
  index  : i < s.insts.length
  part   : n.part.length = s.insts.length

theorem StarFits.of_ctlOk (h : CtlOk s) (hn : s.sched = .star n) : StarFits s n n.next := by
  obtain ⟨hloaded, hnext, hpart⟩ := (schedOk_star hn).mp h.sched
  exact ⟨h.wiring, hloaded, hnext, hpart⟩

theorem StarFits.keeps (h : StarFits s n i) (hk : KeepsLinks s t) : StarFits t n i where
  wiring := hk.wiringOk h.wiring
  loaded := hk.allLoaded h.loaded
  index := hk.length.symm ▸ h.index
  part := h.part.trans hk.length.symm

/-- R209: a triple replaced. -/
theorem StarFits.setPart {q : List Word} (h : StarFits s n i) (hp : n'.part = n.part.set i q) : StarFits s n' i :=
  { h with part := by rw [hp, List.length_set, h.part] }

theorem StarFits.nextTurn (h : StarFits s n i) (hp : n'.part = n.part) (hn : n'.next < s.insts.length) :
    CtlOk (s.nextTurn (.star n')) :=
  .nextTurn h.wiring ((schedOk_star rfl).mpr ⟨h.loaded, hn, hp ▸ h.part⟩) (by simp)

/-- R208, R212 to R214. -/
theorem StarFits.starEndTurn (h : StarFits s n i) (ht : starEndTurn n i s = .next t) : CtlOk t := by
  have hpos := Nat.zero_lt_of_lt h.index
  rcases starEndTurn_next ht with ⟨hi, rfl⟩ | rfl | ⟨_, rfl⟩ | ⟨x, y, u, _, hu, e⟩
  · exact h.nextTurn rfl hi
  · exact h.nextTurn rfl hpos
  · exact .finish h.wiring _
  · have hk := KeepsLinks.append2 hu
    rcases e with rfl | rfl
    · exact .finish (h.keeps hk).wiring _
    · exact (h.keeps hk).nextTurn rfl (hk.length.symm ▸ hpos)

/-- R209, R210. -/
theorem StarFits.starCollect (h : StarFits s n i) (ht : starCollect n i v s = .next t) : CtlOk t := by
  rcases starCollect_next ht with ⟨d, x, y, u, _, _, _, hu, he⟩ | ⟨d, x, y, _, _, he⟩ | he
  · exact ((h.keeps (.append2 hu)).setPart rfl).starEndTurn he
  · exact (h.setPart rfl).starEndTurn he
  · exact (h.setPart rfl).starEndTurn he

/-- R211. -/
theorem StarFits.starEmptyRead (h : StarFits s n i) (ht : starEmptyRead n i s = .next t) : CtlOk t := by
  rcases starEmptyRead_next ht with he | ⟨v, u, _, _, hu, rfl⟩
  · exact h.starEndTurn he
  · have hk := KeepsLinks.append hu
    exact (h.keeps hk).nextTurn rfl (hk.length.symm ▸ h.index)

theorem StarFits.starStop (h : StarFits s n i) (ht : starStop n i st s = .next t) : CtlOk t := by
  rcases starStop_next ht with ⟨k, _, rfl⟩ | ⟨_, he⟩ | ⟨_, u, v, hp, hc⟩ | ⟨_, he⟩
  · exact .finish h.wiring _
  · exact h.starEndTurn he
  · exact (h.keeps (.popOut hp)).starCollect hc
  · exact h.starEmptyRead he

/-- R197, R208: a star network's stop is that of the instance whose turn it is; after HasOutput its value is in OUTQ. -/
theorem stopOk_star (hd : s.sched = .star n) (h : stopOk s i st = true) :
    i = n.next ∧ (st = .hasOutput → ∃ v q, s.outQueue i = some (v :: q)) := by
  simp only [stopOk, hd, Bool.and_eq_true, decide_eq_true_eq] at h
  obtain ⟨hi, hout⟩ := h
  refine ⟨hi, fun e => ?_⟩
  rcases hq : s.outQueue i with _ | _ | ⟨v, q⟩ <;> simp [e, hq] at hout
  exact ⟨v, q, rfl⟩

/-- R195, R200: a stop goes to the host, or to the pattern that runs. -/
theorem CtlOk.stepStopped (hdata : DataOk s) (h : CtlOk s) (hc : s.ctl = .stopped i st)
    (ht : stepStopped i st s = .next t) : CtlOk t := by
  obtain ⟨_, hst⟩ := h.stopped i st hc
  unfold Machine.stepStopped at ht
  rcases hd : s.sched with _ | p | r | n <;> simp only [hd] at ht
  · cases ht
    exact .of_idle h.wiring rfl rfl
  · exact h.pipelineStop hdata hd ht
  · exact h.ringStop hd ht
  · obtain ⟨rfl, _⟩ := stopOk_star hd hst
    exact (StarFits.of_ctlOk h hd).starStop ht

theorem CtlOk.stepTurn (h : CtlOk s) (ht : stepTurn s = .next t) : CtlOk t := by
  unfold Machine.stepTurn at ht
  rcases hd : s.sched with _ | p | r | n <;> simp only [hd] at ht
  · cases ht
  · exact h.pipelineTurn hd ht
  · exact h.beginResume (by simp [hd, turnOk]) (State.issueTurn_next ht)
  · exact h.beginResume (by simp [hd, turnOk]) (State.issueTurn_next ht)

end

/-! ### The step -/

theorem CtlOk.stepOwn {s t : State} (hdata : DataOk s) (h : CtlOk s) (ht : stepOwn Machine.exec s = .next t) :
    CtlOk t := by
  unfold Machine.stepOwn at ht
  rcases hc : s.ctl with _ | ⟨i, m⟩ | ⟨i, st⟩ | _ <;> simp only [hc] at ht
  · exact h.stepIdle hc ht
  · exact h.stepInstruction ht
  · exact h.stepStopped hdata hc ht
  · exact h.stepTurn ht

theorem CtlOk.step {s t : State} (hdata : DataOk s) (h : CtlOk s) (ht : step s = .next t) : CtlOk t := by
  rcases portQuiet_or s with ⟨_, e⟩ | ⟨c, l, _, hm, e⟩
  · exact h.stepOwn hdata (e ▸ ht)
  · exact (h.setAtPort l).stepPresented hm (e ▸ ht)

/-- Settles O41: the invariant, its parts named (`CtlOk`), is kept by whatever a step does. -/
theorem stepKeepsControl : Obligations.StepKeepsControl := fun _ _ hdata hctl ht =>
  ctlOk_iff.mp ((ctlOk_iff.mpr hctl).step (dataOk_iff.mpr hdata) ht)

/-! ### Every step proceeds

Where the invariants hold, nothing stops the block but a scheduler's append to a full queue, and an unbounded queue
always has room. -/

section
variable {s : State} {i : Nat} {m : Mask} {x : Inst} {st : Status} {n : Star} {c : HostCmd} {v a b : Word}

theorem State.attempt_proceeds {α : Type} {e : Except FaultKind α} {k : α → Result} (h : ∀ a, ∃ t, k a = .next t) :
    ∃ t, s.attempt i e k = .next t := by
  cases e with
  | error f => exact ⟨_, rfl⟩
  | ok a => exact h a

theorem orFault_proceeds {α : Type} {e : Except Fault α} {k : α → Result} (he : ∃ a, e = .ok a)
    (hk : ∀ a, ∃ t, k a = .next t) : ∃ t, orFault e k = .next t := by
  obtain ⟨a, rfl⟩ := he
  exact hk a

theorem State.orRefuse_proceeds (o : Option State) : ∃ t, s.orRefuse c o = .next t := by
  cases o with
  | none => exact ⟨_, rfl⟩
  | some t => exact ⟨t, rfl⟩

theorem State.append_proceeds (hq : s.cfg.queueDepth = none) (hx : s.inst? i = some x) : ∃ t, s.append i v = .ok t :=
  ⟨_, State.append_ok.mpr ⟨x, hx, holds_unbounded hq _, rfl⟩⟩

theorem State.append2_proceeds (hq : s.cfg.queueDepth = none) (hx : s.inst? i = some x) :
    ∃ t, s.append2 i a b = .ok t :=
  ⟨_, State.append2_ok.mpr ⟨x, hx, holds_unbounded hq _, rfl⟩⟩

theorem State.issueTurn_proceeds (hx : s.inst? i = some x) : ∃ t, s.issueTurn i m = .next t :=
  (State.beginResume_isSome hx).imp fun _ => State.issueTurn_eq

/-! ### Instructions -/

theorem store3_proceeds {r : Config → Word → Word → Except FaultKind Word} {p1 p2 p3 : Param} (hr : Running s i m x) :
    ∃ t, store3 r p1 p2 p3 s = .next t := by
  rw [store3, State.onActive_running hr]
  exact State.attempt_proceeds fun _ => ⟨_, rfl⟩

theorem jump_proceeds {taken : Word → Bool} {p1 p2 : Param} (hr : Running s i m x) :
    ∃ t, jump taken p1 p2 s = .next t := by
  rw [jump, State.onActive_running hr]
  exact State.attempt_proceeds fun _ => ⟨_, rfl⟩

theorem execInp_proceeds {p1 : Param} (hr : Running s i m x) : ∃ t, execInp p1 s = .next t := by
  rw [execInp, State.onActive_running hr]
  refine State.attempt_proceeds fun _ => ?_
  dsimp only
  split
  · split <;> exact ⟨_, rfl⟩
  · exact ⟨_, rfl⟩

theorem execOut_proceeds {p1 : Param} {q : List Word} (hr : Running s i m x) (hq : s.outQueue i = some q) :
    ∃ t, execOut p1 s = .next t := by
  rw [execOut, State.onActive_running hr]
  refine State.attempt_proceeds fun _ => ?_
  dsimp only
  rw [hq]
  dsimp only
  split <;> exact ⟨_, rfl⟩

theorem execArb_proceeds {p1 : Param} (hr : Running s i m x) : ∃ t, execArb p1 s = .next t := by
  rw [execArb, State.onActive_running hr]
  exact State.attempt_proceeds fun _ => ⟨_, rfl⟩

/-- R97: every instruction of an instance that has an OUTQ. -/
theorem exec_proceeds {q : List Word} (hr : Running s i m x) (hq : s.outQueue i = some q) (ins : Instr) :
    ∃ t, exec ins s = .next t := by
  cases ins with
  | add => exact store3_proceeds hr
  | mul => exact store3_proceeds hr
  | inp => exact execInp_proceeds hr
  | out => exact execOut_proceeds hr hq
  | jt => exact jump_proceeds hr
  | jf => exact jump_proceeds hr
  | lt => exact store3_proceeds hr
  | eq => exact store3_proceeds hr
  | arb => exact execArb_proceeds hr
  | halt => exact ⟨_, execHalt_eq hr⟩

/-- R31: an instance that exists has an OUTQ, as no wiring leads to nowhere. -/
theorem CtlOk.exists_outQueue (h : CtlOk s) (hx : s.inst? i = some x) : ∃ q, s.outQueue i = some q := by
  rcases hw : x.outTo with _ | j
  · exact ⟨_, State.outQueue_own hx hw⟩
  · obtain ⟨y, hy⟩ := wiringOk_iff.mp h.wiring i x j hx hw
    exact ⟨_, State.outQueue_wired hx hw hy⟩

theorem CtlOk.stepInstruction_proceeds (h : CtlOk s) (hc : s.ctl = .running i m) :
    ∃ t, Machine.stepInstruction Machine.exec s = .next t := by
  obtain ⟨⟨x, hx, hready⟩, _⟩ := h.running i m hc
  have hr : Running s i m x := ⟨hc, hx, Inst.ready_iff.mp hready⟩
  obtain ⟨q, hq⟩ := h.exists_outQueue hx
  rw [Machine.stepInstruction, State.onActive_running hr]
  exact State.attempt_proceeds (exec_proceeds hr hq)

/-! ### The host's transactions -/

theorem startPattern_proceeds (hq : s.cfg.queueDepth = none) (p : Pattern) : ∃ t, startPattern p s = .next t := by
  cases p with
  | pipeline => exact State.orRefuse_proceeds _
  | star => exact State.orRefuse_proceeds _
  | ring prog phases =>
    rcases hr : startRing prog phases s with _ | e <;> simp only [startPattern, hr]
    · exact ⟨_, rfl⟩
    · obtain ⟨hpos, hlen, _, _, rfl⟩ := startRing_eq_some hr
      obtain ⟨x, hx⟩ := allLoaded_iff.mp (ringBooted_allLoaded (prog := prog) (phases := phases) (s := s)) 0
        (by rw [ringBooted_length, hlen]; exact hpos)
      exact orFault_proceeds (State.append_proceeds (s := ringBooted prog phases s) hq hx) fun _ => ⟨_, rfl⟩

theorem perform_proceeds (hq : s.cfg.queueDepth = none) (c : HostCmd) : ∃ t, perform c s = .next t := by
  cases c with
  | start => exact startPattern_proceeds hq _
  | load => exact State.orRefuse_proceeds _
  | resume => exact State.orRefuse_proceeds _
  | pushIn => exact State.orRefuse_proceeds _
  | popOut => exact State.orRefuse_proceeds _
  | readOutq => exact State.orRefuse_proceeds _
  | readStatus => exact State.orRefuse_proceeds _
  | readMem => exact State.orRefuse_proceeds _

theorem stepIdle_proceeds (hq : s.cfg.queueDepth = none) : ∃ t, stepIdle s = .next t := by
  rcases hh : s.host with _ | ⟨c, l⟩
  · exact ⟨s, stepIdle_nil hh⟩
  · rw [stepIdle_cons hh]
    exact perform_proceeds (s := { s with host := l }) hq c

/-! ### The scheduler -/

/-- R202: the stage's LOAD is accepted, or the instance it LOADed is there. -/
theorem CtlOk.pipelineTurn_proceeds {p : Pipeline} (h : CtlOk s) (hp : s.sched = .pipeline p) :
    ∃ t, Machine.pipelineTurn p s = .next t := by
  obtain ⟨hlen, hnext, hload, hexist⟩ := (schedOk_pipeline hp).mp h.sched
  unfold Machine.pipelineTurn
  split
  · next hl =>
    obtain ⟨x, hx⟩ := hexist hl
    exact State.issueTurn_proceeds hx
  · have hph : p.next < p.phases.length := hlen ▸ hnext
    have hok : s.load p.next p.prog [p.phases[p.next], p.signal] = some _ :=
      State.load_eq_some.mpr ⟨hnext, hload _ (List.getElem_mem hph), rfl⟩
    simp [pipelineLoad, List.getElem?_eq_getElem hph, hok]

theorem CtlOk.stepTurn_proceeds (h : CtlOk s) (hc : s.ctl = .turn) : ∃ t, Machine.stepTurn s = .next t := by
  unfold Machine.stepTurn
  rcases hd : s.sched with _ | p | r | n
  · exact absurd hd (h.turn hc)
  · exact h.pipelineTurn_proceeds hd
  · obtain ⟨hloaded, hnext⟩ := (schedOk_ring hd).mp h.sched
    obtain ⟨x, hx⟩ := allLoaded_iff.mp hloaded _ hnext
    exact State.issueTurn_proceeds hx
  · obtain ⟨hloaded, hnext, _⟩ := (schedOk_star hd).mp h.sched
    obtain ⟨x, hx⟩ := allLoaded_iff.mp hloaded _ hnext
    exact State.issueTurn_proceeds hx

/-- R202, R203: only a stop that the empty mask excludes has no rule. -/
theorem pipelineStop_proceeds {p : Pipeline} (hn : st ≠ .needsInput) (ho : st ≠ .hasOutput) :
    ∃ t, pipelineStop p i st s = .next t := by
  cases st with
  | needsInput => exact absurd rfl hn
  | hasOutput => exact absurd rfl ho
  | fault k => exact ⟨_, rfl⟩
  | halted =>
    unfold pipelineStop
    dsimp only
    split
    · split <;> exact ⟨_, rfl⟩
    · exact ⟨_, rfl⟩

theorem ringAfterTurn_proceeds (r : Ring) : ∃ t, ringAfterTurn r i s = .next t := by
  unfold ringAfterTurn
  split
  · split <;> exact ⟨_, rfl⟩
  · exact ⟨_, rfl⟩

/-- R205, R206: only a stop that the ring's mask excludes has no rule. -/
theorem ringStop_proceeds {r : Ring} (hn : st ≠ .needsInput) : ∃ t, ringStop r i st s = .next t := by
  cases st with
  | needsInput => exact absurd rfl hn
  | fault k => exact ⟨_, rfl⟩
  | halted => exact ringAfterTurn_proceeds r
  | hasOutput =>
    unfold ringStop
    dsimp only
    split <;> exact ringAfterTurn_proceeds _

/-- R212 to R214: the injection into INQ(0) has room. -/
theorem StarFits.starEndTurn_proceeds (h : StarFits s n i) (hq : s.cfg.queueDepth = none) :
    ∃ t, Machine.starEndTurn n i s = .next t := by
  obtain ⟨x, hx⟩ := allLoaded_iff.mp h.loaded 0 (Nat.zero_lt_of_lt h.index)
  unfold Machine.starEndTurn
  split
  · exact ⟨_, rfl⟩
  · split
    · unfold starInject
      split
      · exact ⟨_, rfl⟩
      · refine orFault_proceeds (State.append2_proceeds hq hx) fun u => ?_
        split <;> exact ⟨_, rfl⟩
    · exact ⟨_, rfl⟩

/-- R209: a packet for an instance has room in its INQ. -/
theorem StarFits.starCollect_proceeds (h : StarFits s n i) (hq : s.cfg.queueDepth = none) :
    ∃ t, Machine.starCollect n i v s = .next t := by
  unfold Machine.starCollect
  dsimp only
  split
  · next d x y _ =>
    split
    · next hd =>
      obtain ⟨z, hz⟩ := allLoaded_iff.mp h.loaded d.toNat ((Int.toNat_lt hd.1).mpr hd.2)
      obtain ⟨u, hu⟩ := State.append2_proceeds (a := x) (b := y) hq hz
      rw [hu]
      exact ((h.keeps (.append2 hu)).setPart rfl).starEndTurn_proceeds (State.append2_cfg hu ▸ hq)
    · exact (h.setPart rfl).starEndTurn_proceeds hq
  · exact (h.setPart rfl).starEndTurn_proceeds hq

/-- R211: a value supplied has room. -/
theorem StarFits.starEmptyRead_proceeds (h : StarFits s n i) (hq : s.cfg.queueDepth = none) :
    ∃ t, Machine.starEmptyRead n i s = .next t := by
  obtain ⟨x, hx⟩ := allLoaded_iff.mp h.loaded i h.index
  unfold Machine.starEmptyRead
  split
  · exact h.starEndTurn_proceeds hq
  · split
    · exact h.starEndTurn_proceeds hq
    · exact orFault_proceeds (State.append_proceeds hq hx) fun _ => ⟨_, rfl⟩

/-- R197, R208: after HasOutput the value is in OUTQ. -/
theorem StarFits.starStop_proceeds (h : StarFits s n i) (hq : s.cfg.queueDepth = none)
    (ho : st = .hasOutput → ∃ v q, s.outQueue i = some (v :: q)) : ∃ t, Machine.starStop n i st s = .next t := by
  cases st with
  | fault k => exact ⟨_, rfl⟩
  | halted => exact h.starEndTurn_proceeds hq
  | needsInput => exact h.starEmptyRead_proceeds hq
  | hasOutput =>
    obtain ⟨v, q, hout⟩ := ho rfl
    have hp : s.popOut i = some (s.setOutQueue i q, some v) := by simp [State.popOut, hout]
    simp only [Machine.starStop, hp]
    exact (h.keeps (.popOut hp)).starCollect_proceeds (State.popOut_cfg hp ▸ hq)

/-- R196, R197: a stop has a status that the mask of its turn selects. -/
theorem CtlOk.stepStopped_proceeds (h : CtlOk s) (hc : s.ctl = .stopped i st) (hq : s.cfg.queueDepth = none) :
    ∃ t, Machine.stepStopped i st s = .next t := by
  obtain ⟨_, hst⟩ := h.stopped i st hc
  unfold Machine.stepStopped
  rcases hd : s.sched with _ | p | r | n
  · exact ⟨_, rfl⟩
  · simp only [stopOk, hd, Bool.and_eq_true, decide_eq_true_eq] at hst
    obtain ⟨⟨_, hn⟩, ho⟩ := hst
    exact pipelineStop_proceeds hn ho
  · simp only [stopOk, hd, Bool.and_eq_true, decide_eq_true_eq] at hst
    exact ringStop_proceeds hst.2
  · obtain ⟨rfl, hout⟩ := stopOk_star hd hst
    exact (StarFits.of_ctlOk h hd).starStop_proceeds hq hout

/-! ### The step -/

theorem CtlOk.stepOwn_proceeds (h : CtlOk s) (hq : s.cfg.queueDepth = none) :
    ∃ t, Machine.stepOwn Machine.exec s = .next t := by
  unfold Machine.stepOwn
  rcases hc : s.ctl with _ | ⟨i, m⟩ | ⟨i, st⟩ | _
  · exact stepIdle_proceeds hq
  · exact h.stepInstruction_proceeds hc
  · exact h.stepStopped_proceeds hc hq
  · exact h.stepTurn_proceeds hc

theorem CtlOk.step_proceeds (h : CtlOk s) (hq : s.cfg.queueDepth = none) : ∃ t, Machine.step s = .next t := by
  rcases portQuiet_or s with ⟨_, e⟩ | ⟨c, l, _, hm, e⟩ <;> rw [e]
  · exact h.stepOwn_proceeds hq
  · by_cases hc : s.ctl = .idle
    · rw [stepPresented_idle (s := { s with atPort := l }) hc]
      exact perform_proceeds (s := { s with atPort := l }) hq c
    · exact stepPresented_proceeds (s := { s with atPort := l }) hc hm

end

/-- Settles O43: the step answers a next state (`CtlOk.step_proceeds`), and keeps both invariants (O40, O41). -/
theorem stepAlwaysProceeds : Obligations.StepAlwaysProceeds := by
  intro s hdata hctl hq
  obtain ⟨t, ht⟩ := (ctlOk_iff.mpr hctl).step_proceeds hq
  exact ⟨t, ht, stepKeepsData s t hdata ht, stepKeepsControl s t hdata hctl ht⟩

end Sys2Proof.Machine
end

section
/-! Operands, the aliased ADD, and the step of a decoded instruction (O8, O9, O22, O33; spec/20_memory.md R62,
spec/40_datapath.md R86 to R97). -/

namespace Sys2Proof.Machine

section
variable {c : Config} {x : Inst} {a : Nat} {raw : Word} {m : Mode}

/-! ### Operands by mode -/

/-- R91: the address of a RELATIVE parameter is not a word. -/
theorem relativeAddress_error (h : representable c (x.rb + raw) = false) :
    relativeAddress c x raw = .error .valueOutOfRange :=
  checkValue_error.mpr ⟨rfl, h⟩

/-- R90: a parameter that names the address b in its mode is checked as b is. -/
theorem writeAddress_eq {b : Word}
    (h : (m = .position ∧ b = raw) ∨ (m = .relative ∧ b = x.rb + raw ∧ representable c (x.rb + raw) = true)) :
    writeAddress c x ⟨m, raw⟩ = checkAddress c b := by
  rcases h with ⟨rfl, rfl⟩ | ⟨rfl, rfl, hr⟩
  · rfl
  · simp [writeAddress, relativeAddress_ok.mpr ⟨rfl, hr⟩, bind, Except.bind]

/-- A cell within MEM_LIMIT, read by its index. -/
theorem memRead_natCast (h : inLimit c a = true) : memRead c x (a : Word) = .ok (Mem.read x.mem a) :=
  memRead_ok.mpr ⟨Int.natCast_nonneg a, h, rfl⟩

/-! ### The fetch of a decoded instruction -/

/-- R72: an instruction is made of the raw values that its kind has. -/
theorem instr_congr {h : Head} {r1 r2 r3 r1' r2' r3' : Word} (h1 : 1 ≤ h.op.params → r1 = r1')
    (h2 : 2 ≤ h.op.params → r2 = r2') (h3 : 3 ≤ h.op.params → r3 = r3') : h.instr r1 r2 r3 = h.instr r1' r2' r3' := by
  obtain ⟨op, m1, m2, m3⟩ := h
  cases op <;> simp_all [Op.params, Head.instr]

/-- R72, R78: the instruction that four cells of a memory begin with. -/
theorem decode_cellsAt {mem : Mem} {ins : Instr} {rest : List Word} (h : decode (cellsAt mem a 4) = .ok (ins, rest)) :
    ∃ hd, decodeWord (Mem.read mem a) = .ok hd
      ∧ ins = hd.instr (Mem.read mem (a + 1)) (Mem.read mem (a + 2)) (Mem.read mem (a + 3)) := by
  have hcells : cellsAt mem a 4
      = [Mem.read mem a, Mem.read mem (a + 1), Mem.read mem (a + 2), Mem.read mem (a + 3)] := rfl
  rcases hw : decodeWord (Mem.read mem a) with f | hd
  · simp [hcells, decode, hw] at h
  · have hlen : ¬ 3 < hd.op.params := not_lt.mpr hd.op.params_le
    simp only [hcells, decode, hw, List.length_cons, List.length_nil, Nat.reduceAdd, hlen, if_false, Except.ok.injEq,
      Prod.mk.injEq] at h
    exact ⟨hd, rfl, h.1.symm⟩

/-- R88: parameter cell n of an instruction at ip: its word, or 0 where the kind has no such parameter. -/
theorem paramCellOf_read {p n : Nat} (hip : 0 ≤ x.ip) (hl : n ≤ p → inLimit c (x.ip.toNat + n) = true)
    (hr : n ≤ p → representable c (x.ip + n) = true) :
    paramCellOf c x p n = .ok (if n ≤ p then Mem.read x.mem (x.ip.toNat + n) else 0) := by
  split
  · next hn =>
    have ha : (x.ip + n).toNat = x.ip.toNat + n := Int.toNat_add_nat hip n
    rw [paramCellOf_present hn]
    exact paramCell_ok.mpr ⟨hr hn, memRead_ok.mpr
      ⟨Int.add_nonneg hip (Int.natCast_nonneg n), ha.symm ▸ hl hn, by rw [ha]⟩⟩
  · next hn => exact paramCellOf_absent (not_le.mp hn)

/-- R86 to R88: the cells at ip are fetched as the instruction that they decode to. -/
theorem fetch_of_decode {ins : Instr} {rest : List Word} (hip : 0 ≤ x.ip)
    (hl : ∀ k, k ≤ ins.op.params → inLimit c (x.ip.toNat + k) = true)
    (hr : ∀ k : Nat, 1 ≤ k → k ≤ ins.op.params → representable c (x.ip + k) = true)
    (hd : decode (cellsAt x.mem x.ip.toNat 4) = .ok (ins, rest)) : fetch c x = .ok ins := by
  obtain ⟨h, hw, rfl⟩ := decode_cellsAt hd
  rw [Head.instr_op] at hl hr
  have hcell : ∀ n, 1 ≤ n → paramCellOf c x h.op.params n = .ok _ :=
    fun n hn => paramCellOf_read hip (hl n) (hr n hn)
  refine fetch_ok.mpr ⟨_, h, _, _, _, memRead_ok.mpr ⟨hip, hl 0 (Nat.zero_le _), rfl⟩, hw, hcell 1 le_rfl,
    hcell 2 (by decide), hcell 3 (by decide), ?_⟩
  exact instr_congr (fun h1 => (if_pos h1).symm) (fun h2 => (if_pos h2).symm) fun h3 => (if_pos h3).symm

end

/-! ### The statements -/

/-- Settles O22: both operands are read before the write, and the write is what the next fetch reads. -/
theorem aliasedAddDoubles : Obligations.AliasedAddDoubles := by
  intro s i m x a hr hlim hsum hip
  have hread : readOperand s.cfg x ⟨.position, a⟩ = .ok (Mem.read x.mem a) := memRead_natCast hlim
  have haddr : writeAddress s.cfg x ⟨.position, a⟩ = .ok a :=
    checkAddress_ok.mpr ⟨Int.natCast_nonneg a, rfl, hlim⟩
  have hcheck : check3 s.cfg x (sumResult s.cfg) ⟨.position, a⟩ ⟨.position, a⟩ ⟨.position, a⟩
      = .ok (a, Mem.read x.mem a + Mem.read x.mem a, x.ip + 4) :=
    check3_ok.mpr ⟨_, _, hread, hread, haddr, checkValue_ok.mpr ⟨rfl, hsum⟩, advance_ok.mpr ⟨rfl, hip⟩⟩
  have hcell : Mem.read (x.write a (Mem.read x.mem a + Mem.read x.mem a)).mem a = 2 * Mem.read x.mem a := by
    rw [Inst.write_mem, Mem.read_write_self, two_mul]
  refine ⟨_, _, store3_ok hr hcheck, State.inst?_setInst_self hr.lt, hcell, rfl, fun he => ?_⟩
  rw [he, ← hcell]
  exact memRead_natCast hlim

/-- Settles O8: mode by mode. -/
theorem readOperandByMode : Obligations.ReadOperandByMode := fun _ _ _ =>
  ⟨readOperand_immediate, readOperand_position, readOperand_relative,
    fun h => bind_error.mpr (.inl (relativeAddress_error h))⟩

/-- Settles O9: the checks are those of the address that the parameter names (`writeAddress_eq`). -/
theorem writeAddressByMode : Obligations.WriteAddressByMode := by
  refine fun c x m raw a => ⟨fun h => ?_, ?_⟩
  · rw [writeAddress_eq h]
    refine ⟨fun hneg => ?_, fun l h0 hl hge => ?_, fun h0 hin => ?_⟩
    · exact checkAddress_error.mpr (.inl ⟨rfl, hneg⟩)
    · exact checkAddress_error.mpr (.inr ⟨rfl, h0, inLimit_eq_false hl hge⟩)
    · exact checkAddress_ok.mpr ⟨h0, rfl, inLimit_iff.mpr hin⟩
  · rintro rfl h
    exact bind_error.mpr (.inl (relativeAddress_error h))

/-- Settles O33: what the cells decode to is what is fetched (`fetch_of_decode`). -/
theorem stepRunsDecodedInstruction : Obligations.StepRunsDecodedInstruction :=
  fun _ _ _ _ _ _ hr hq hip hl hrep hd => step_fetch_ok hr hq (fetch_of_decode hip hl hrep hd)

end Sys2Proof.Machine
end

section
/-! What a three-parameter instruction that takes no fault stores, and the two arithmetic instructions (O10, O11;
spec/41_arithmetic.md R98 to R100, spec/40_datapath.md R95). -/

namespace Sys2Proof.Machine

section
variable {s : State} {i : Nat} {m : Mask} {x : Inst} {p1 p2 p3 : Param}

/-- R98, R99, R111, R112: with every check passed, the result stands at the write address, ip is advanced by 4, and
nothing else changes. -/
theorem store3_stores {r : Config → Word → Word → Except FaultKind Word} {v1 v2 v : Word} {ea : Nat}
    (hr : Running s i m x) (h1 : readOperand s.cfg x p1 = .ok v1) (h2 : readOperand s.cfg x p2 = .ok v2)
    (hea : writeAddress s.cfg x p3 = .ok ea) (hv : r s.cfg v1 v2 = .ok v)
    (hip : representable s.cfg (x.ip + 4) = true) :
    ∃ (t : State) (y : Inst), store3 r p1 p2 p3 s = .next t ∧ OnlyInst s i y t ∧ t.ctl = s.ctl
      ∧ StoresCell x y ea v ∧ y.ip = x.ip + 4 ∧ SameBesidesMemAndIp x y := by
  have hcheck : check3 s.cfg x (r s.cfg) p1 p2 p3 = .ok (ea, v, x.ip + 4) :=
    check3_ok.mpr ⟨v1, v2, h1, h2, hea, hv, advance_ok.mpr ⟨rfl, hip⟩⟩
  refine ⟨_, { x.write ea v with ip := x.ip + 4 }, store3_ok hr hcheck, onlyInst_setInst hr.lt, rfl, ?_, rfl, ?_⟩
  · exact storesCell_write x _ ea v rfl
  · exact ⟨rfl, rfl, rfl, rfl, rfl, rfl, rfl⟩

end

/-! ### The statements -/

/-- Settles O10: ADD is `store3` with the exact sum, whose check passes where the sum is a word. -/
theorem addWritesSum : Obligations.AddWritesSum := fun _ _ _ _ _ _ _ _ _ _ hr h1 h2 hea hsum hip =>
  store3_stores (r := sumResult) hr h1 h2 hea (checkValue_ok.mpr ⟨rfl, hsum⟩) hip

/-- Settles O11: MUL is `store3` with the exact product, whose check passes where the product is a word. -/
theorem mulWritesProduct : Obligations.MulWritesProduct := fun _ _ _ _ _ _ _ _ _ _ hr h1 h2 hea hprod hip =>
  store3_stores (r := productResult) hr h1 h2 hea (checkValue_ok.mpr ⟨rfl, hprod⟩) hip

end Sys2Proof.Machine
end

section
/-! What IN and OUT do when their checks pass, and what they leave alone (O13, O14, O15, O24, O26; spec/42_io.md R102 to
R105, spec/60_exceptions.md R185, R196, R197). -/

namespace Sys2Proof.Machine

section
variable {s t : State} {i : Nat} {m : Mask} {x y : Inst} {p1 : Param}

/-! ### IN -/

section
variable {ea : Nat} {n : Word} (hr : Running s i m x) (hc : checkIn s.cfg x p1 = .ok (ea, n))
include hr hc

/-- R103: IN with a value in INQ. -/
theorem execInp_cons {v : Word} {q : List Word} (hq : x.inq = v :: q) :
    execInp p1 s = .next (s.setInst i { x.write ea v with ip := n, inq := q }) := by
  simp only [execInp, State.onActive_running hr, hc, State.attempt_ok, hq]

/-- R105, R196: IN on an empty INQ blocks where the mask has NeedsInput. -/
theorem execInp_blocks (hq : x.inq = []) (hm : m.needsInput = true) :
    execInp p1 s = .next (s.stop i .needsInput) := by
  simp only [execInp, State.onActive_running hr, hc, State.attempt_ok, hq, hm, if_true]

/-- R105, R185: IN on an empty INQ underflows where the mask does not have NeedsInput. -/
theorem execInp_underflows (hq : x.inq = []) (hm : m.needsInput = false) :
    execInp p1 s = .next (s.takeFault i .channelUnderflow) := by
  simp only [execInp, State.onActive_running hr, hc, State.attempt_ok, hq, hm, Bool.false_eq_true, if_false]

end

/-- R103: the checks of IN pass where its parameter names an address and the advance is a word. -/
theorem checkIn_passes {c : Config} {ea : Nat} (hea : writeAddress c x p1 = .ok ea)
    (hip : representable c (x.ip + 2) = true) : checkIn c x p1 = .ok (ea, x.ip + 2) :=
  checkIn_ok.mpr ⟨hea, advance_ok.mpr ⟨rfl, hip⟩⟩

/-- R196: a stop changes no instance. -/
theorem onlyInst_stop_self (hx : s.inst? i = some x) (st : Status) : OnlyInst s i x (s.stop i st) :=
  ⟨hx, fun _ _ => rfl, rfl, rfl, rfl, rfl, rfl, rfl⟩

/-- R190: an instance without a fault is not what fault entry leaves. -/
theorem takeFault_ne {k : FaultKind} (hr : Running s i m x) (hy : t.inst? i = some y) (hf : y.fault = none) :
    t ≠ s.takeFault i k := by
  rintro rfl
  rw [takeFault_inst?_eq hr hy] at hf
  cases hf

/-! ### OUT -/

section
variable {n v : Word} {q : List Word}

/-- R104: where OUT changes its own instance alone, it changes nothing else of the block but the control. -/
theorem onlyInst_outState
    (h : ∀ j, (outState s i m x n v q).inst? j = if j = i then some y else s.inst? j) :
    OnlyInst s i y (outState s i m x n v q) :=
  ⟨by rw [h, if_pos rfl], fun j hj => by rw [h, if_neg hj], outState_length, outState_cfg, outState_sched,
    outState_host, outState_atPort, outState_replies⟩

/-- R30, R104: OUT on the instance's own OUTQ. -/
theorem outState_own (hx : s.inst? i = some x) (hw : x.outTo = none) :
    OnlyInst s i { x with ip := n, outq := x.outq ++ [v] } (outState s i m x n v x.outq) := by
  rcases outState_cases (m := m) (n := n) (v := v) hx (State.outQueue_own hx hw) with
    ⟨_, h⟩ | ⟨hw', _⟩ | ⟨_, _, _, hw', _⟩
  · exact onlyInst_outState h
  · simp [hw] at hw'
  · simp [hw] at hw'

/-- R31, R102: the instance's own INQ grows only where its OUTQ is wired to it, and its own OUTQ only where it is not
wired. -/
theorem outState_queues (hx : s.inst? i = some x) (hq : s.outQueue i = some q)
    (hy : (outState s i m x n v q).inst? i = some y) :
    (x.outTo ≠ some i → y.inq = x.inq) ∧ (x.outTo ≠ none → y.outq = x.outq) := by
  rcases outState_cases (m := m) (n := n) (v := v) hx hq with ⟨hw, h⟩ | ⟨hw, h⟩ | ⟨_, _, _, _, _, h⟩ <;>
    rw [h, if_pos rfl, Option.some.injEq] at hy <;> subst hy
  · exact ⟨fun _ => rfl, fun hn => absurd hw hn⟩
  · exact ⟨fun hn => absurd hw hn, fun _ => rfl⟩
  · exact ⟨fun _ => rfl, fun _ => rfl⟩

/-- R31, R102: another instance after OUT: unchanged, or its INQ is the destination and alone has changed. -/
theorem outState_inst?_ne {j : Nat} (hx : s.inst? i = some x) (hq : s.outQueue i = some q) (hj : j ≠ i) :
    (outState s i m x n v q).inst? j = s.inst? j
      ∨ ∃ z, x.outTo = some j ∧ s.inst? j = some z
        ∧ (outState s i m x n v q).inst? j = some { z with inq := q ++ [v] } := by
  rcases outState_cases (m := m) (n := n) (v := v) hx hq with ⟨_, h⟩ | ⟨_, h⟩ | ⟨k, z, _, hw, hz, h⟩
  · exact .inl (by rw [h, if_neg hj])
  · exact .inl (by rw [h, if_neg hj])
  · by_cases hjk : j = k
    · subst hjk
      exact .inr ⟨z, hw, hz, by rw [h, if_neg hj, if_pos rfl]⟩
    · exact .inl (by rw [h, if_neg hj, if_neg hjk])

end

/-- R104: OUT that leaves its instance without a fault has completed. -/
theorem execOut_completes (hr : Running s i m x) (h : execOut p1 s = .next t) (hy : t.inst? i = some y)
    (hf : y.fault = none) : ∃ n v q, s.outQueue i = some q ∧ t = outState s i m x n v q := by
  rcases execOut_next hr h with ⟨k, _, ht⟩ | ⟨v, n, q, _, hq, ⟨_, ht⟩ | ⟨_, ht⟩⟩
  · exact absurd ht (takeFault_ne hr hy hf)
  · exact ⟨n, v, q, hq, ht⟩
  · exact absurd ht (takeFault_ne hr hy hf)

end

/-! ### The statements -/

/-- Settles O13: IN that finds a value in INQ (`execInp_cons`). -/
theorem inpTakesOldestValue : Obligations.InpTakesOldestValue := by
  intro s i m x p1 ea v q hr hea hip hq
  refine ⟨_, { x.write ea v with ip := x.ip + 2, inq := q }, execInp_cons hr (checkIn_passes hea hip) hq,
    onlyInst_setInst hr.lt, rfl, ?_, rfl, rfl, rfl, rfl, rfl, rfl, rfl, rfl⟩
  exact storesCell_write x _ ea v rfl

/-- Settles O14: the mask decides (`execInp_blocks`, `execInp_underflows`). -/
theorem inpOnEmptyQueue : Obligations.InpOnEmptyQueue := by
  intro s i m x p1 ea hr hea hip hq
  have hc := checkIn_passes hea hip
  cases hm : m.needsInput
  · exact ⟨_, execInp_underflows hr hc hq hm, nofun, fun _ => faultEntry_takeFault hr.2.1 _⟩
  · exact ⟨_, execInp_blocks hr hc hq hm, fun _ => ⟨onlyInst_stop_self hr.2.1 _, rfl⟩, nofun⟩

/-- Settles O15: the destination is the instance's own OUTQ (`outState_own`). -/
theorem outAppendsToOwnQueue : Obligations.OutAppendsToOwnQueue := by
  intro s i m x p1 v hr hv hip hw hd
  have hc : checkOut s.cfg x p1 = .ok (v, x.ip + 2) := checkOut_ok.mpr ⟨hv, advance_ok.mpr ⟨rfl, hip⟩⟩
  have hq : s.outQueue i = some x.outq := State.outQueue_own hr.2.1 hw
  exact ⟨_, execOut_ok hr hc hq (holds_iff.mpr hd), outState_own hr.2.1 hw, outState_ctl⟩

/-- Settles O24: IN without a fault has blocked, which changes no instance, or stored at the write address. -/
theorem inpFrame : Obligations.InpFrame := by
  intro s t i m x y p1 hr h hy hf
  rcases execInp_next hr h with ⟨_, _, ht⟩ | ⟨ea, n, hc, ⟨_, _, rfl⟩ | ⟨_, _, ht⟩ | ⟨v, q, _, rfl⟩⟩
  · exact absurd ht (takeFault_ne hr hy hf)
  · obtain rfl : x = y := by simpa [hr.2.1] using hy
    exact ⟨onlyInst_stop_self hr.2.1 _, rfl, rfl, rfl, rfl, rfl, fun _ _ _ _ => rfl⟩
  · exact absurd ht (takeFault_ne hr hy hf)
  · obtain rfl := setInst_inst?_eq hr hy
    refine ⟨onlyInst_setInst hr.lt, rfl, rfl, rfl, rfl, rfl, fun ea' b hea' hb => ?_⟩
    obtain rfl : ea = ea' := by simpa [(checkIn_ok.mp hc).1] using hea'
    exact Mem.read_write_ne x.mem v hb

/-- Settles O26: OUT without a fault has completed, and every instance after it is known (`outState_other`,
`outState_queues`, `outState_inst?_ne`). -/
theorem outFrame : Obligations.OutFrame := by
  intro s t i m x y p1 hr h hy hf
  have hx := hr.2.1
  obtain ⟨n, v, q, hq, rfl⟩ := execOut_completes hr h hy hf
  obtain ⟨y', hy', hsame⟩ := outState_other (m := m) (n := n) (v := v) (q := q) hx hx
  obtain rfl : y = y' := by simpa [hy] using hy'
  rw [if_pos rfl] at hsame
  obtain ⟨hmem, _, hrb, hh, _, hfip, hw⟩ := hsame
  obtain ⟨hinq, houtq⟩ := outState_queues hx hq hy
  refine ⟨fun a => congrArg (Mem.read · a) hmem, hrb, hh, hfip, hw, hinq, houtq, outState_cfg, outState_sched,
    outState_host, outState_atPort, outState_replies, fun j hj hne => ?_, fun j z hj hz => ?_⟩
  · rcases outState_inst?_ne hx hq hj with he | ⟨_, hwj, _⟩
    · exact he
    · exact absurd hwj hne
  · rcases outState_inst?_ne hx hq hj with he | ⟨z', _, hz', he⟩
    · exact ⟨z, he.trans hz, ⟨rfl, rfl, rfl, rfl, rfl, rfl, rfl⟩, rfl⟩
    · obtain rfl : z = z' := by simpa [hz] using hz'
      exact ⟨_, he, ⟨rfl, rfl, rfl, rfl, rfl, rfl, rfl⟩, rfl⟩

end Sys2Proof.Machine
end

section
/-! What a jump does when its operands can be read, and what JT, JF, ARB and HALT leave alone (O17, O18, O19, O25;
spec/43_jumps.md R107 to R109, spec/45_relative_base.md R114, spec/46_halt.md R116). -/

namespace Sys2Proof.Machine

section
variable {s t : State} {i : Nat} {m : Mask} {x y : Inst} {p1 p2 : Param} {taken : Word → Bool}

/-! ### Jumps -/

/-- R96, R107, R108: the checks of a jump: the target is not checked where the jump is taken, and the advance is only
where it is not. -/
theorem checkJump_passes {c : Config} {v1 v2 : Word} (h1 : readOperand c x p1 = .ok v1)
    (h2 : readOperand c x p2 = .ok v2) (hip : taken v1 = false → representable c (x.ip + 3) = true) :
    checkJump c x taken p1 p2 = .ok (if taken v1 then v2 else x.ip + 3) := by
  refine checkJump_ok.mpr ⟨v1, v2, h1, h2, ?_⟩
  cases ht : taken v1
  · exact advance_ok.mpr ⟨rfl, hip ht⟩
  · rfl

/-- R107, R108: a jump whose checks pass changes its instance's ip and nothing else. -/
theorem jump_goes {v1 v2 : Word} (hr : Running s i m x) (h1 : readOperand s.cfg x p1 = .ok v1)
    (h2 : readOperand s.cfg x p2 = .ok v2) (hip : taken v1 = false → representable s.cfg (x.ip + 3) = true) :
    ∃ t : State, jump taken p1 p2 s = .next t
      ∧ OnlyInst s i { x with ip := if taken v1 then v2 else x.ip + 3 } t ∧ t.ctl = s.ctl :=
  ⟨_, jump_ok hr (checkJump_passes h1 h2 hip), onlyInst_setInst hr.lt, rfl⟩

/-! ### Frames -/

/-- R107, R108: a jump that takes no fault writes ip. -/
theorem jump_frame (hr : Running s i m x) (h : jump taken p1 p2 s = .next t) (hy : t.inst? i = some y)
    (hf : y.fault = none) : ∃ n, y = { x with ip := n } ∧ OnlyInst s i y t := by
  rcases jump_next hr h with ⟨k, _, ht⟩ | ⟨n, _, rfl⟩
  · exact absurd ht (takeFault_ne hr hy hf)
  · obtain rfl := setInst_inst?_eq hr hy
    exact ⟨n, rfl, onlyInst_setInst hr.lt⟩

/-- R114: ARB that takes no fault writes rb and ip. -/
theorem execArb_frame (hr : Running s i m x) (h : execArb p1 s = .next t) (hy : t.inst? i = some y)
    (hf : y.fault = none) : ∃ r n, y = { x with rb := r, ip := n } ∧ OnlyInst s i y t := by
  rcases execArb_next hr h with ⟨k, _, ht⟩ | ⟨r, n, _, rfl⟩
  · exact absurd ht (takeFault_ne hr hy hf)
  · obtain rfl := setInst_inst?_eq hr hy
    exact ⟨r, n, rfl, onlyInst_setInst hr.lt⟩

/-- R116: HALT writes HALTED. -/
theorem execHalt_frame (hr : Running s i m x) (h : execHalt s = .next t) (hy : t.inst? i = some y) :
    y = { x with halted := true } ∧ OnlyInst s i y t := by
  obtain rfl := Host.Outcome.next.inj ((execHalt_eq hr).symm.trans h)
  obtain rfl := setInst_inst?_eq hr hy
  exact ⟨rfl, onlyInst_stop _ _ (onlyInst_setInst hr.lt)⟩

end

/-! ### The statements -/

/-- Settles O17: JT is `jump` with the test `v1 ≠ 0` (`jump_goes`). -/
theorem jtJumpsOnNonZero : Obligations.JtJumpsOnNonZero := by
  intro s i m x p1 p2 v1 v2 hr h1 h2 hip
  have h := jump_goes (taken := takenTrue) hr h1 h2 fun hn => hip (by simpa [takenTrue] using hn)
  simp only [takenTrue, decide_eq_true_eq] at h
  exact h

/-- Settles O18: JF is `jump` with the test `v1 = 0` (`jump_goes`). -/
theorem jfJumpsOnZero : Obligations.JfJumpsOnZero := by
  intro s i m x p1 p2 v1 v2 hr h1 h2 hip
  have h := jump_goes (taken := takenFalse) hr h1 h2 fun hn => hip (by simpa [takenFalse] using hn)
  simp only [takenFalse, decide_eq_true_eq] at h
  exact h

/-- Settles O19: JT and JF on the same operands (`jtJumpsOnNonZero`, `jfJumpsOnZero`), by whether p1 is 0. -/
theorem jtAndJfAreComplements : Obligations.JtAndJfAreComplements := by
  intro s i m x p1 p2 v1 v2 hr h1 h2 hip
  obtain ⟨t, ht, ⟨hy, _⟩, _⟩ := jtJumpsOnNonZero s i m x p1 p2 v1 v2 hr h1 h2 fun _ => hip
  obtain ⟨u, hu, ⟨hz, _⟩, _⟩ := jfJumpsOnZero s i m x p1 p2 v1 v2 hr h1 h2 fun _ => hip
  refine ⟨t, u, _, _, ht, hu, hy, hz, ?_⟩
  by_cases h0 : v1 = 0
  · exact .inr ⟨h0, if_neg (not_not.mpr h0), if_pos h0⟩
  · exact .inl ⟨h0, if_pos h0, if_neg h0⟩

/-- Settles O25: the registers each of the four writes (`jump_frame`, `execArb_frame`, `execHalt_frame`). -/
theorem registerOnlyFrame : Obligations.RegisterOnlyFrame := by
  intro s t i m x y p1 p2 ins hins hr h hy hf
  rcases hins with rfl | rfl | rfl | rfl
  · obtain ⟨n, rfl, ho⟩ := jump_frame hr h hy hf
    exact ⟨ho, fun _ => rfl, rfl, rfl, rfl, rfl, fun _ => rfl, fun _ => rfl, nofun⟩
  · obtain ⟨n, rfl, ho⟩ := jump_frame hr h hy hf
    exact ⟨ho, fun _ => rfl, rfl, rfl, rfl, rfl, fun _ => rfl, fun _ => rfl, nofun⟩
  · obtain ⟨r, n, rfl, ho⟩ := execArb_frame hr h hy hf
    exact ⟨ho, fun _ => rfl, rfl, rfl, rfl, rfl, fun hne => absurd rfl hne, fun _ => rfl, nofun⟩
  · obtain ⟨rfl, ho⟩ := execHalt_frame hr h hy
    exact ⟨ho, fun _ => rfl, rfl, rfl, rfl, rfl, fun _ => rfl, fun hne => absurd rfl hne, fun _ => rfl⟩

end Sys2Proof.Machine
end

section
/-! What the two comparisons store (O12; spec/44_compare.md R110 to R112, spec/40_datapath.md R95). -/

namespace Sys2Proof.Machine

/-- R110: a comparison's word is 1 where it holds, else 0. -/
theorem boolWord_decide (p : Prop) [Decidable p] : boolWord (decide p) = if p then 1 else 0 := by
  simp only [boolWord, decide_eq_true_eq]

/-- R111: the result of LT is never a fault. -/
theorem lessResult_eq (c : Config) (v1 v2 : Word) : lessResult c v1 v2 = .ok (if v1 < v2 then 1 else 0) :=
  congrArg Except.ok (boolWord_decide (v1 < v2))

/-- R112: the result of EQ is never a fault. -/
theorem equalResult_eq (c : Config) (v1 v2 : Word) : equalResult c v1 v2 = .ok (if v1 = v2 then 1 else 0) :=
  congrArg Except.ok (boolWord_decide (v1 = v2))

/-! ### The statements -/

/-- Settles O12: LT and EQ are `store3` with a result that has no check to fail (`lessResult_eq`, `equalResult_eq`). -/
theorem comparisonsWriteOneOrZero : Obligations.ComparisonsWriteOneOrZero :=
  fun _ _ _ _ _ _ _ _ _ _ hr h1 h2 hea hip =>
  ⟨store3_stores hr h1 h2 hea (lessResult_eq _ _ _) hip,
    store3_stores hr h1 h2 hea (equalResult_eq _ _ _) hip⟩

end Sys2Proof.Machine
end

section
/-! What ARB does when its checks pass (O20; spec/45_relative_base.md R114, spec/40_datapath.md R92). -/

namespace Sys2Proof.Machine

section
variable {s : State} {i : Nat} {m : Mask} {x : Inst} {p1 : Param}

/-- R92, R114: the checks of ARB pass where its operand can be read and the new base and the advance are words; the
operand is read in x, whose base is still the old one. -/
theorem checkArb_passes {c : Config} {v : Word} (hv : readOperand c x p1 = .ok v)
    (hrb : representable c (x.rb + v) = true) (hip : representable c (x.ip + 2) = true) :
    checkArb c x p1 = .ok (x.rb + v, x.ip + 2) :=
  checkArb_ok.mpr ⟨v, hv, checkValue_ok.mpr ⟨rfl, hrb⟩, advance_ok.mpr ⟨rfl, hip⟩⟩

/-- R114: ARB whose checks pass writes rb and ip together. -/
theorem execArb_ok {r n : Word} (hr : Running s i m x) (hc : checkArb s.cfg x p1 = .ok (r, n)) :
    execArb p1 s = .next (s.setInst i { x with rb := r, ip := n }) := by
  rw [execArb, State.onActive_running hr, hc, State.attempt_ok]

end

/-! ### The statements -/

/-- Settles O20: ARB whose checks pass (`checkArb_passes`, `execArb_ok`) writes its own instance alone. -/
theorem arbAddsToBase : Obligations.ArbAddsToBase := fun _ _ _ _ _ _ hr hv hrb hip =>
  ⟨_, execArb_ok hr (checkArb_passes hv hrb hip), onlyInst_setInst hr.lt, rfl⟩

end Sys2Proof.Machine
end

section
/-! What HALT does (O21; spec/46_halt.md R116, spec/60_exceptions.md R198). -/

namespace Sys2Proof.Machine

/-! ### The statements -/

/-- Settles O21: HALT has no check to pass, so what it does is one equation (`execHalt_eq`) for every mask. -/
theorem haltSetsHalted : Obligations.HaltSetsHalted := fun _ _ _ _ hr =>
  ⟨_, execHalt_eq hr, onlyInst_stop _ _ (onlyInst_setInst hr.lt), State.stop_ctl _ _ _⟩

end Sys2Proof.Machine
end

section
/-! The faults of an instance (O28 to O32, O34; spec/60_exceptions.md R180 to R191, spec/40_datapath.md R85 to R93): what
fault entry changes, which check fails first, and which faults a finite parameter must be there for. -/

namespace Sys2Proof.Machine

section
variable {s t : State} {i : Nat} {m : Mask} {x y : Inst} {p1 p2 p3 : Param} {k k' : FaultKind} {c : Config}
  {ins : Instr}

/-! ### The step after which the instance is faulted -/

/-- R190: FAULT after fault entry is the fault that was taken. -/
theorem takeFault_fault_eq (hr : Running s i m x) (hy : (s.takeFault i k').inst? i = some y) (hf : y.fault = some k) :
    k' = k := by
  rw [takeFault_inst?_eq hr hy] at hf
  exact Option.some.inj hf

/-- R85, R190: an instruction that leaves its instance faulted has taken that fault. -/
theorem exec_faulted (hr : Running s i m x) (h : exec ins s = .next t) (hy : t.inst? i = some y)
    (hf : y.fault = some k) : t = s.takeFault i k := by
  obtain ⟨_, hx, _, hnone⟩ := id hr
  have hne : y.fault ≠ x.fault := by simp [hf, hnone]
  rcases exec_next hr h with ⟨k', rfl⟩ | ⟨z, rfl, _, hz, _⟩ | ⟨_, rfl⟩ | rfl | ⟨n, v, q, _, _, rfl⟩
  · rw [takeFault_fault_eq hr hy hf]
  · obtain rfl := setInst_inst?_eq hr hy
    exact absurd hz hne
  · obtain rfl : x = y := by simpa [hx] using hy
    exact absurd rfl hne
  · obtain rfl := setInst_inst?_eq (z := { x with halted := true }) hr hy
    exact absurd rfl hne
  · obtain ⟨y', hy', _, _, _, _, hz, _⟩ := outState_other (m := m) (n := n) (v := v) (q := q) hx hx
    obtain rfl : y = y' := by simpa [hy] using hy'
    rw [if_pos rfl] at hz
    exact absurd hz hne

/-- R36, R85, R190: a step that leaves the running instance faulted has taken that fault, raised by the fetch or by the
instruction; no transaction at the ports faults it. -/
theorem step_faulted (hr : Running s i m x) (h : step s = .next t) (hy : t.inst? i = some y)
    (hf : y.fault = some k) :
    t = s.takeFault i k
      ∧ (fetch s.cfg x = .error k ∨ ∃ ins, exec ins s = .next (s.takeFault i k)) := by
  obtain ⟨hctl, hx, _, hnone⟩ := id hr
  rcases portQuiet_or s with ⟨hq, _⟩ | ⟨c, l, _, hm, e⟩
  · rcases step_running_next hr hq h with ⟨k', hk, rfl⟩ | ⟨ins, _, he⟩
    · obtain rfl := takeFault_fault_eq hr hy hf
      exact ⟨rfl, .inl hk⟩
    · obtain rfl := exec_faulted hr he hy hf
      exact ⟨rfl, .inr ⟨ins, he⟩⟩
  · obtain ⟨_, hkeep⟩ := stepPresented_keeps (s := { s with atPort := l }) (by simp [hctl]) hm (e ▸ h)
    obtain ⟨y', hy', _, _, _, _, hz, _⟩ := hkeep i m x hctl hx
    obtain rfl : y = y' := by simpa [hy] using hy'
    simp [hf, hnone] at hz

/-! ### The first failing check -/

theorem check3_error {r : Word → Word → Except FaultKind Word} :
    check3 c x r p1 p2 p3 = .error k ↔
      readOperand c x p1 = .error k ∨ ∃ v1, readOperand c x p1 = .ok v1 ∧
        (readOperand c x p2 = .error k ∨ ∃ v2, readOperand c x p2 = .ok v2 ∧
          (writeAddress c x p3 = .error k ∨ ∃ ea, writeAddress c x p3 = .ok ea ∧
            (r v1 v2 = .error k ∨ ∃ v, r v1 v2 = .ok v ∧ advance c x 4 = .error k))) := by
  simp [check3, bind_error]

theorem checkJump_error {taken : Word → Bool} :
    checkJump c x taken p1 p2 = .error k ↔
      readOperand c x p1 = .error k ∨ ∃ v1, readOperand c x p1 = .ok v1 ∧
        (readOperand c x p2 = .error k ∨ ∃ v2, readOperand c x p2 = .ok v2 ∧
          taken v1 = false ∧ advance c x 3 = .error k) := by
  have hlast : ∀ v1 v2, (if taken v1 then .ok v2 else advance c x 3) = .error k
      ↔ taken v1 = false ∧ advance c x 3 = .error k := fun v1 v2 => by cases taken v1 <;> simp
  simp [checkJump, bind_error, hlast]

theorem checkIn_error :
    checkIn c x p1 = .error k ↔
      writeAddress c x p1 = .error k ∨ ∃ ea, writeAddress c x p1 = .ok ea ∧ advance c x 2 = .error k := by
  simp [checkIn, bind_error]

theorem checkOut_error :
    checkOut c x p1 = .error k ↔
      readOperand c x p1 = .error k ∨ ∃ v, readOperand c x p1 = .ok v ∧ advance c x 2 = .error k := by
  simp [checkOut, bind_error]

theorem checkArb_error :
    checkArb c x p1 = .error k ↔
      readOperand c x p1 = .error k ∨ ∃ v, readOperand c x p1 = .ok v ∧
        (checkValue c (x.rb + v) = .error k ∨ ∃ r, checkValue c (x.rb + v) = .ok r ∧ advance c x 2 = .error k) := by
  simp [checkArb, bind_error]

/-! ### A check that fails is the fault taken -/

/-- R85, R190: what checks first and then commits enters the fault that its checks raise. -/
theorem onActive_attempt_faults {α : Type} {check : Inst → Except FaultKind α}
    {commit : Nat → Mask → Inst → α → Result} (hr : Running s i m x) (h : check x = .error k) :
    ∃ t, (s.onActive fun i m x => s.attempt i (check x) (commit i m x)) = .next t ∧ FaultEntry s i k t := by
  rw [State.onActive_running hr, h]
  exact ⟨_, rfl, faultEntry_takeFault hr.2.1 k⟩

theorem store3_faults {r : Config → Word → Word → Except FaultKind Word} (hr : Running s i m x)
    (h : check3 s.cfg x (r s.cfg) p1 p2 p3 = .error k) :
    ∃ t, store3 r p1 p2 p3 s = .next t ∧ FaultEntry s i k t :=
  onActive_attempt_faults (check := fun x => check3 s.cfg x (r s.cfg) p1 p2 p3) hr h

theorem jump_faults {taken : Word → Bool} (hr : Running s i m x) (h : checkJump s.cfg x taken p1 p2 = .error k) :
    ∃ t, jump taken p1 p2 s = .next t ∧ FaultEntry s i k t :=
  onActive_attempt_faults (check := fun x => checkJump s.cfg x taken p1 p2) hr h

theorem execInp_faults (hr : Running s i m x) (h : checkIn s.cfg x p1 = .error k) :
    ∃ t, execInp p1 s = .next t ∧ FaultEntry s i k t :=
  onActive_attempt_faults (check := fun x => checkIn s.cfg x p1) hr h

theorem execOut_faults (hr : Running s i m x) (h : checkOut s.cfg x p1 = .error k) :
    ∃ t, execOut p1 s = .next t ∧ FaultEntry s i k t :=
  onActive_attempt_faults (check := fun x => checkOut s.cfg x p1) hr h

theorem execArb_faults (hr : Running s i m x) (h : checkArb s.cfg x p1 = .error k) :
    ∃ t, execArb p1 s = .next t ∧ FaultEntry s i k t :=
  onActive_attempt_faults (check := fun x => checkArb s.cfg x p1) hr h

/-- R188: OUT whose destination queue has no room. -/
theorem execOut_overflows {v n : Word} {q : List Word} (hr : Running s i m x) (hc : checkOut s.cfg x p1 = .ok (v, n))
    (hq : s.outQueue i = some q) (hfull : holds s.cfg (q.length + 1) = false) :
    execOut p1 s = .next (s.takeFault i .channelOverflow) := by
  simp [execOut, State.onActive_running hr, hc, hq, hfull]

theorem step_fetch_faults (hr : Running s i m x) (hq : PortQuiet s) (h : fetch s.cfg x = .error k) :
    ∃ t, step s = .next t ∧ FaultEntry s i k t :=
  ⟨_, step_fetch_error hr hq h, faultEntry_takeFault hr.2.1 k⟩

/-! ### Results and advances out of range (R186) -/

theorem advance_out_of_range {len : Nat} (h : representable c (x.ip + len) = false) :
    advance c x len = .error .valueOutOfRange :=
  advance_error.mpr ⟨rfl, h⟩

/-- A value that is checked before something else is: where the value or the other thing fails, one of the two checks is
the first to fail. -/
theorem checkValue_error_or {v : Word} {P : Prop} (h : representable c v = false ∨ P) :
    checkValue c v = .error .valueOutOfRange ∨ ∃ w, checkValue c v = .ok w ∧ P := by
  cases hv : representable c v with
  | false => exact .inl (checkValue_error.mpr ⟨rfl, hv⟩)
  | true => exact .inr ⟨v, checkValue_ok.mpr ⟨rfl, hv⟩, h.resolve_left (by simp [hv])⟩

/-- R191 (8): a three-parameter instruction whose operands and write address pass. -/
theorem check3_out_of_range {r : Word → Word → Except FaultKind Word} {v1 v2 : Word} {ea : Nat}
    (h1 : readOperand c x p1 = .ok v1) (h2 : readOperand c x p2 = .ok v2) (hea : writeAddress c x p3 = .ok ea)
    (h : r v1 v2 = .error .valueOutOfRange ∨ ∃ v, r v1 v2 = .ok v ∧ representable c (x.ip + 4) = false) :
    check3 c x r p1 p2 p3 = .error .valueOutOfRange :=
  check3_error.mpr (.inr ⟨v1, h1, .inr ⟨v2, h2, .inr ⟨ea, hea,
    h.imp_right fun ⟨v, hv, hip⟩ => ⟨v, hv, advance_out_of_range hip⟩⟩⟩⟩)

/-- R191 (8): a jump that is not taken. -/
theorem checkJump_out_of_range {taken : Word → Bool} {v1 v2 : Word} (h1 : readOperand c x p1 = .ok v1)
    (h2 : readOperand c x p2 = .ok v2) (hn : taken v1 = false) (hip : representable c (x.ip + 3) = false) :
    checkJump c x taken p1 p2 = .error .valueOutOfRange :=
  checkJump_error.mpr (.inr ⟨v1, h1, .inr ⟨v2, h2, hn, advance_out_of_range hip⟩⟩)

end

/-! ### The faults that a finite parameter must be there for (R186 to R188) -/

/-- R186 to R188: fault k can be raised with these parameters. -/
def Raisable (c : Config) (k : FaultKind) : Prop :=
  match k with
  | .valueOutOfRange     => c.wordBits ≠ none
  | .memoryLimitExceeded => c.memLimit ≠ none
  | .channelOverflow     => c.queueDepth ≠ none
  | .unknownOpcode | .invalidParameterMode | .illegalWriteTarget | .channelUnderflow | .negativeAddress => True

/-- The check e raises no fault but one that these parameters allow. -/
def RaisesOnly (c : Config) {α : Type} (e : Except FaultKind α) : Prop := ∀ k, e = .error k → Raisable c k

section
variable {s t : State} {i : Nat} {m : Mask} {x y : Inst} {p p1 p2 p3 : Param} {k k' : FaultKind} {c : Config}
  {ins : Instr}

theorem RaisesOnly.ok {α : Type} (a : α) : RaisesOnly c (.ok a : Except FaultKind α) := nofun

theorem RaisesOnly.error {α : Type} (h : Raisable c k) : RaisesOnly c (.error k : Except FaultKind α) := by
  rintro _ ⟨⟩
  exact h

/-- Checks one after the other. -/
theorem RaisesOnly.bind {α β : Type} {e : Except FaultKind α} {f : α → Except FaultKind β} (he : RaisesOnly c e)
    (hf : ∀ a, RaisesOnly c (f a)) : RaisesOnly c (e >>= f) := fun k h => by
  rcases bind_error.mp h with h | ⟨a, _, h⟩
  · exact he k h
  · exact hf a k h

/-- R186. -/
theorem raisesOnly_checkValue (v : Word) : RaisesOnly c (checkValue c v) := fun k h => by
  obtain ⟨rfl, hv⟩ := checkValue_error.mp h
  intro hw
  simp [representable, hw] at hv

/-- R187. -/
theorem raisesOnly_checkAddress (a : Word) : RaisesOnly c (checkAddress c a) := fun k h => by
  rcases checkAddress_error.mp h with ⟨rfl, _⟩ | ⟨rfl, _, hl⟩
  · trivial
  · intro hm
    simp [inLimit, hm] at hl

theorem raisesOnly_memRead (a : Word) : RaisesOnly c (memRead c x a) :=
  (raisesOnly_checkAddress a).bind fun _ => .ok _

theorem raisesOnly_readOperand : RaisesOnly c (readOperand c x p) := by
  obtain ⟨mode, raw⟩ := p
  cases mode with
  | immediate => exact .ok _
  | position => exact raisesOnly_memRead _
  | relative => exact (raisesOnly_checkValue _).bind raisesOnly_memRead

theorem raisesOnly_writeAddress : RaisesOnly c (writeAddress c x p) := by
  obtain ⟨mode, raw⟩ := p
  cases mode with
  | immediate => exact .error trivial
  | position => exact raisesOnly_checkAddress _
  | relative => exact (raisesOnly_checkValue _).bind raisesOnly_checkAddress

theorem raisesOnly_advance (len : Nat) : RaisesOnly c (advance c x len) := raisesOnly_checkValue _

theorem raisesOnly_check3 {r : Word → Word → Except FaultKind Word} (hres : ∀ v1 v2, RaisesOnly c (r v1 v2)) :
    RaisesOnly c (check3 c x r p1 p2 p3) :=
  raisesOnly_readOperand.bind fun v1 => raisesOnly_readOperand.bind fun v2 => raisesOnly_writeAddress.bind fun _ =>
    (hres v1 v2).bind fun _ => (raisesOnly_advance 4).bind fun _ => .ok _

theorem raisesOnly_checkJump {taken : Word → Bool} : RaisesOnly c (checkJump c x taken p1 p2) :=
  raisesOnly_readOperand.bind fun v1 => raisesOnly_readOperand.bind fun v2 => by
    cases taken v1 with
    | true => exact .ok v2
    | false => exact raisesOnly_advance 3

theorem raisesOnly_checkIn : RaisesOnly c (checkIn c x p1) :=
  raisesOnly_writeAddress.bind fun _ => (raisesOnly_advance 2).bind fun _ => .ok _

theorem raisesOnly_checkOut : RaisesOnly c (checkOut c x p1) :=
  raisesOnly_readOperand.bind fun _ => (raisesOnly_advance 2).bind fun _ => .ok _

theorem raisesOnly_checkArb : RaisesOnly c (checkArb c x p1) :=
  raisesOnly_readOperand.bind fun _ => (raisesOnly_checkValue _).bind fun _ =>
    (raisesOnly_advance 2).bind fun _ => .ok _

/-- R181 to R183: the decoder's faults need no parameter. -/
theorem raisesOnly_decodeWord (w : Word) : RaisesOnly c (decodeWord w) := fun k h => by
  rcases decodeWord_error h with rfl | rfl | rfl <;> trivial

theorem raisesOnly_paramCellOf (n k : Nat) : RaisesOnly c (paramCellOf c x n k) := by
  unfold paramCellOf
  split
  · exact (raisesOnly_checkValue _).bind raisesOnly_memRead
  · exact .ok 0

theorem raisesOnly_fetch : RaisesOnly c (fetch c x) :=
  (raisesOnly_memRead _).bind fun w => (raisesOnly_decodeWord w).bind fun _ =>
    (raisesOnly_paramCellOf _ 1).bind fun _ => (raisesOnly_paramCellOf _ 2).bind fun _ =>
      (raisesOnly_paramCellOf _ 3).bind fun _ => .ok _

theorem takeFault_ctl (hr : Running s i m x) : (s.takeFault i k).ctl = .stopped i (.fault k) := by
  rw [State.takeFault_eq hr.2.1, State.stop_ctl]

theorem takeFault_inj (hr : Running s i m x) (h : s.takeFault i k = s.takeFault i k') : k = k' := by
  have hctl := congrArg State.ctl h
  rw [takeFault_ctl hr, takeFault_ctl hr] at hctl
  cases hctl
  rfl

/-- R190: fault entry ends the resume transaction; what goes on in it, or stops it otherwise, is no fault entry. -/
theorem takeFault_ne_of_ctl (hr : Running s i m x)
    (h : t.ctl = s.ctl ∨ ∃ st, t.ctl = .stopped i st ∧ st ≠ .fault k) :
    s.takeFault i k ≠ t := by
  rintro rfl
  rw [takeFault_ctl hr, hr.1] at h
  rcases h with h | ⟨st, h, hne⟩
  · cases h
  · cases h
    exact hne rfl

theorem store3_raisable {r : Config → Word → Word → Except FaultKind Word} (hr : Running s i m x)
    (hres : ∀ v1 v2, RaisesOnly s.cfg (r s.cfg v1 v2)) (h : store3 r p1 p2 p3 s = .next (s.takeFault i k)) :
    Raisable s.cfg k := by
  rcases store3_next hr h with ⟨k', hk, e⟩ | ⟨ea, v, n, _, e⟩
  · exact takeFault_inj hr e ▸ raisesOnly_check3 hres k' hk
  · exact absurd e (takeFault_ne_of_ctl hr (.inl rfl))

theorem jump_raisable {taken : Word → Bool} (hr : Running s i m x)
    (h : jump taken p1 p2 s = .next (s.takeFault i k)) : Raisable s.cfg k := by
  rcases jump_next hr h with ⟨k', hk, e⟩ | ⟨n, _, e⟩
  · exact takeFault_inj hr e ▸ raisesOnly_checkJump k' hk
  · exact absurd e (takeFault_ne_of_ctl hr (.inl rfl))

theorem execInp_raisable (hr : Running s i m x) (h : execInp p1 s = .next (s.takeFault i k)) : Raisable s.cfg k := by
  rcases execInp_next hr h with ⟨k', hk, e⟩ | ⟨ea, n, _, ⟨_, _, e⟩ | ⟨_, _, e⟩ | ⟨v, q, _, e⟩⟩
  · exact takeFault_inj hr e ▸ raisesOnly_checkIn k' hk
  · exact absurd e (takeFault_ne_of_ctl hr (.inr ⟨_, rfl, nofun⟩))
  · rw [takeFault_inj hr e]
    trivial
  · exact absurd e (takeFault_ne_of_ctl hr (.inl rfl))

/-- R188: a queue overflows only where QUEUE_DEPTH is finite. -/
theorem queueDepth_ne_none {n : Nat} (h : holds c n = false) : c.queueDepth ≠ none := fun hd => by
  simp [holds_unbounded hd] at h

theorem execOut_raisable (hr : Running s i m x) (h : execOut p1 s = .next (s.takeFault i k)) : Raisable s.cfg k := by
  rcases execOut_next hr h with ⟨k', hk, e⟩ | ⟨v, n, q, _, _, ⟨_, e⟩ | ⟨hfull, e⟩⟩
  · exact takeFault_inj hr e ▸ raisesOnly_checkOut k' hk
  · refine absurd e (takeFault_ne_of_ctl hr ?_)
    rw [outState_ctl]
    split
    · exact .inr ⟨_, rfl, nofun⟩
    · exact .inl rfl
  · rw [takeFault_inj hr e]
    exact queueDepth_ne_none hfull

theorem execArb_raisable (hr : Running s i m x) (h : execArb p1 s = .next (s.takeFault i k)) : Raisable s.cfg k := by
  rcases execArb_next hr h with ⟨k', hk, e⟩ | ⟨r, n, _, e⟩
  · exact takeFault_inj hr e ▸ raisesOnly_checkArb k' hk
  · exact absurd e (takeFault_ne_of_ctl hr (.inl rfl))

/-- R97: every instruction. -/
theorem exec_raisable (hr : Running s i m x) (h : exec ins s = .next (s.takeFault i k)) : Raisable s.cfg k := by
  cases ins with
  | add => exact store3_raisable (r := sumResult) hr (fun _ _ => raisesOnly_checkValue _) h
  | mul => exact store3_raisable (r := productResult) hr (fun _ _ => raisesOnly_checkValue _) h
  | lt => exact store3_raisable (r := lessResult) hr (fun _ _ => .ok _) h
  | eq => exact store3_raisable (r := equalResult) hr (fun _ _ => .ok _) h
  | inp => exact execInp_raisable hr h
  | out => exact execOut_raisable hr h
  | jt => exact jump_raisable hr h
  | jf => exact jump_raisable hr h
  | arb => exact execArb_raisable hr h
  | halt =>
    have e : s.takeFault i k = _ := Host.Outcome.next.inj (h.symm.trans (execHalt_eq hr))
    exact absurd e (takeFault_ne_of_ctl hr (.inr ⟨_, rfl, nofun⟩))

/-- R186 to R188: whatever a step faults the running instance with, the parameters allow. -/
theorem step_raisable (hr : Running s i m x) (h : step s = .next t) (hy : t.inst? i = some y)
    (hf : y.fault = some k) : Raisable s.cfg k := by
  rcases step_faulted hr h hy hf with ⟨_, hk | ⟨ins, he⟩⟩
  · exact raisesOnly_fetch k hk
  · exact exec_raisable hr he

end

/-! ### The statements -/

/-- Settles O28: the step has taken the fault (`step_faulted`), and fault entry is all it has done. -/
theorem faultEntryIsPrecise : Obligations.FaultEntryIsPrecise := by
  intro s t i m x y k hr h hy hf
  obtain ⟨rfl, _⟩ := step_faulted hr h hy hf
  exact faultEntry_takeFault hr.2.1 k

/-- Settles O29: the check phases in the order of their checks (`check3_error` and the like). -/
theorem operandFaultsInOrder : Obligations.OperandFaultsInOrder := by
  intro s i m x p1 p2 p3 k ins hr
  refine ⟨fun hins h1 => ?_, fun hins v1 h1 h2 => ?_, fun hins v1 v2 h1 h2 h3 => ?_, fun hins h => ?_⟩
  · have hthree : ∀ r, check3 s.cfg x r p1 p2 p3 = .error k := fun _ => check3_error.mpr (.inl h1)
    have hjump : ∀ taken, checkJump s.cfg x taken p1 p2 = .error k := fun _ => checkJump_error.mpr (.inl h1)
    rcases hins with rfl | rfl | rfl | rfl | rfl | rfl | rfl | rfl
    exacts [store3_faults hr (hthree _), store3_faults hr (hthree _), store3_faults hr (hthree _),
      store3_faults hr (hthree _), jump_faults hr (hjump _), jump_faults hr (hjump _),
      execOut_faults hr (checkOut_error.mpr (.inl h1)), execArb_faults hr (checkArb_error.mpr (.inl h1))]
  · have hthree : ∀ r, check3 s.cfg x r p1 p2 p3 = .error k :=
      fun _ => check3_error.mpr (.inr ⟨v1, h1, .inl h2⟩)
    have hjump : ∀ taken, checkJump s.cfg x taken p1 p2 = .error k :=
      fun _ => checkJump_error.mpr (.inr ⟨v1, h1, .inl h2⟩)
    rcases hins with rfl | rfl | rfl | rfl | rfl | rfl
    exacts [store3_faults hr (hthree _), store3_faults hr (hthree _), store3_faults hr (hthree _),
      store3_faults hr (hthree _), jump_faults hr (hjump _), jump_faults hr (hjump _)]
  · have hthree : ∀ r, check3 s.cfg x r p1 p2 p3 = .error k :=
      fun _ => check3_error.mpr (.inr ⟨v1, h1, .inr ⟨v2, h2, .inl h3⟩⟩)
    rcases hins with rfl | rfl | rfl | rfl <;> exact store3_faults hr (hthree _)
  · subst hins
    exact execInp_faults hr (checkIn_error.mpr (.inl h))

/-- Settles O30: the checks before the result and the advance pass, so one of these two is the first to fail. -/
theorem resultOutOfRangeFaults : Obligations.ResultOutOfRangeFaults := by
  intro s i m x p1 p2 p3 v1 v2 ea hr h1 h2 hea
  refine ⟨fun h => ?_, fun h => ?_, fun h => ⟨?_, ?_⟩, fun h => ?_, fun h => ⟨fun hv => ?_, fun hv => ?_⟩,
    fun h => ⟨?_, ?_⟩⟩
  · exact store3_faults (r := sumResult) hr (check3_out_of_range h1 h2 hea (checkValue_error_or h))
  · exact store3_faults (r := productResult) hr (check3_out_of_range h1 h2 hea (checkValue_error_or h))
  · exact store3_faults (r := lessResult) hr (check3_out_of_range h1 h2 hea (.inr ⟨_, rfl, h⟩))
  · exact store3_faults (r := equalResult) hr (check3_out_of_range h1 h2 hea (.inr ⟨_, rfl, h⟩))
  · exact execArb_faults hr (checkArb_error.mpr (.inr ⟨v1, h1,
      checkValue_error_or (h.imp_right advance_out_of_range)⟩))
  · exact jump_faults hr (checkJump_out_of_range h1 h2 (by simp [takenTrue, hv]) h)
  · exact jump_faults hr (checkJump_out_of_range h1 h2 (by simp [takenFalse, hv]) h)
  · exact execOut_faults hr (checkOut_error.mpr (.inr ⟨v1, h1, advance_out_of_range h⟩))
  · exact execInp_faults hr (checkIn_error.mpr (.inr ⟨ea, hea, advance_out_of_range h⟩))

/-- Settles O31: OUT finds no room (`execOut_overflows`); with unbounded queues the fault is not `Raisable`. -/
theorem outToFullQueueOverflows : Obligations.OutToFullQueueOverflows := by
  refine ⟨fun s i m x p1 v q n hr hv hip hq hn hfull => ?_, fun s t i m x y hr h hy hf => ?_⟩
  · have hc : checkOut s.cfg x p1 = .ok (v, x.ip + 2) := checkOut_ok.mpr ⟨hv, advance_ok.mpr ⟨rfl, hip⟩⟩
    have hroom : holds s.cfg (q.length + 1) = false := by
      simp only [holds, hn, decide_eq_false_iff_not]
      omega
    exact ⟨_, execOut_overflows hr hc hq hroom, faultEntry_takeFault hr.2.1 _⟩
  · exact step_raisable hr h hy hf

/-- Settles O32: with the parameter unbounded the fault is not `Raisable` (`step_raisable`). -/
theorem unboundedParametersNeverFault : Obligations.UnboundedParametersNeverFault :=
  fun _ _ _ _ _ _ hr h hy => ⟨fun hf => step_raisable hr h hy hf, fun hf => step_raisable hr h hy hf⟩

/-- Settles O34: the fetch fails at its first failing part (`fetch_memRead_error`, `fetch_decode_error`,
`fetch_cell_error`). -/
theorem fetchFaultsInOrder : Obligations.FetchFaultsInOrder := by
  intro s i m x hr hq
  refine ⟨fun hneg => ?_, fun h0 hlim => ?_, fun h0 hlim => ?_⟩
  · exact step_fetch_faults hr hq (fetch_memRead_error (memRead_error.mpr (.inl ⟨rfl, hneg⟩)))
  · exact step_fetch_faults hr hq (fetch_memRead_error (memRead_error.mpr (.inr ⟨rfl, h0, hlim⟩)))
  · have hw : memRead s.cfg x x.ip = .ok (Mem.read x.mem x.ip.toNat) := memRead_ok.mpr ⟨h0, hlim, rfl⟩
    refine ⟨fun k hk => step_fetch_faults hr hq (fetch_decode_error hw hk), fun h n hd h1 hn hbefore => ?_⟩
    have hpos : ∀ k : Nat, 0 ≤ x.ip + k := fun k => Int.add_nonneg h0 (Int.natCast_nonneg k)
    have hnat : ∀ k : Nat, (x.ip + k).toNat = x.ip.toNat + k := fun k => Int.toNat_add_nat h0 k
    have hcells : ∀ k, 1 ≤ k → k < n → ∃ v, paramCell s.cfg x k = .ok v := fun k hk hkn =>
      ⟨_, paramCell_ok.mpr ⟨(hbefore k hk hkn).2,
        memRead_ok.mpr ⟨hpos k, (hnat k).symm ▸ (hbefore k hk hkn).1, rfl⟩⟩⟩
    refine ⟨fun hrep => ?_, fun hrep hlim' => ?_⟩
    · exact step_fetch_faults hr hq (fetch_cell_error hw hd h1 hn hcells (paramCell_error.mpr (.inl ⟨rfl, hrep⟩)))
    · exact step_fetch_faults hr hq (fetch_cell_error hw hd h1 hn hcells
        (paramCell_error.mpr (.inr ⟨hrep, memRead_error.mpr (.inr ⟨rfl, hpos n, (hnat n).symm ▸ hlim'⟩)⟩)))

end Sys2Proof.Machine
end

section
/-! An instruction of an unwired instance sees that instance, the mask and the parameters alone (O36;
spec/70_reset_and_hazards.md R227, spec/60_exceptions.md R221): run on the same instance in two blocks with the same
parameters, it does the same to it in both. -/

namespace Sys2Proof.Machine

/-- What r1 makes of instance i, r2 makes of instance j, and where r1 answers a next state r2 does. -/
def Agree (i j : Nat) (r1 r2 : Result) : Prop :=
  ∀ t1, r1 = .next t1 → ∃ t2, r2 = .next t2 ∧ t1.inst? i = t2.inst? j

section
variable {s1 s2 t1 t2 : State} {i j : Nat} {m : Mask} {x : Inst} {p1 p2 p3 : Param}

theorem Agree.next (h : t1.inst? i = t2.inst? j) : Agree i j (.next t1) (.next t2) := by
  rintro _ ⟨⟩
  exact ⟨t2, rfl, h⟩

section
variable (hr1 : Running s1 i m x) (hr2 : Running s2 j m x)
include hr1 hr2

theorem Agree.setInst (y : Inst) : Agree i j (.next (s1.setInst i y)) (.next (s2.setInst j y)) :=
  .next (by rw [State.inst?_setInst_self hr1.lt, State.inst?_setInst_self hr2.lt])

/-- R196: a stop changes no instance. -/
theorem Agree.stop (st : Status) : Agree i j (.next (s1.stop i st)) (.next (s2.stop j st)) :=
  .next (by rw [State.inst?_stop, State.inst?_stop, hr1.2.1, hr2.2.1])

theorem Agree.takeFault (k : FaultKind) : Agree i j (.next (s1.takeFault i k)) (.next (s2.takeFault j k)) := by
  rw [State.takeFault_eq hr1.2.1, State.takeFault_eq hr2.2.1]
  exact .next (by
    rw [State.inst?_stop, State.inst?_stop, State.inst?_setInst_self hr1.lt, State.inst?_setInst_self hr2.lt])

/-- R85: the same checks, and commits that agree. -/
theorem Agree.attempt {α : Type} {e : Except FaultKind α} {k1 k2 : α → Result} (h : ∀ a, Agree i j (k1 a) (k2 a)) :
    Agree i j (s1.attempt i e k1) (s2.attempt j e k2) := by
  cases e with
  | ok a => exact h a
  | error f => exact .takeFault hr1 hr2 f

theorem execHalt_agree : Agree i j (execHalt s1) (execHalt s2) := by
  rw [execHalt_eq hr1, execHalt_eq hr2]
  exact .next (by
    rw [State.inst?_stop, State.inst?_stop, State.inst?_setInst_self hr1.lt, State.inst?_setInst_self hr2.lt])

variable (hc : s1.cfg = s2.cfg)
include hc

theorem store3_agree (r : Config → Word → Word → Except FaultKind Word) :
    Agree i j (store3 r p1 p2 p3 s1) (store3 r p1 p2 p3 s2) := by
  rw [store3, store3, State.onActive_running hr1, State.onActive_running hr2, hc]
  exact .attempt hr1 hr2 fun _ => .setInst hr1 hr2 _

theorem jump_agree (taken : Word → Bool) : Agree i j (jump taken p1 p2 s1) (jump taken p1 p2 s2) := by
  rw [jump, jump, State.onActive_running hr1, State.onActive_running hr2, hc]
  exact .attempt hr1 hr2 fun _ => .setInst hr1 hr2 _

theorem execArb_agree : Agree i j (execArb p1 s1) (execArb p1 s2) := by
  rw [execArb, execArb, State.onActive_running hr1, State.onActive_running hr2, hc]
  exact .attempt hr1 hr2 fun _ => .setInst hr1 hr2 _

/-- R103, R105: INQ and the mask decide. -/
theorem execInp_agree : Agree i j (execInp p1 s1) (execInp p1 s2) := by
  rw [execInp, execInp, State.onActive_running hr1, State.onActive_running hr2, hc]
  refine .attempt hr1 hr2 fun a => ?_
  dsimp only
  split
  · split
    · exact .stop hr1 hr2 .needsInput
    · exact .takeFault hr1 hr2 .channelUnderflow
  · exact .setInst hr1 hr2 _

/-- R104: where OUTQ is the instance's own, the room in it and the push are a matter of that instance. -/
theorem execOut_agree (hw : x.outTo = none) : Agree i j (execOut p1 s1) (execOut p1 s2) := by
  rw [execOut, execOut, State.onActive_running hr1, State.onActive_running hr2, hc]
  refine .attempt hr1 hr2 fun a => ?_
  dsimp only
  rw [State.outQueue_own hr1.2.1 hw, State.outQueue_own hr2.2.1 hw]
  dsimp only
  split
  · obtain ⟨h1, _⟩ := outState_own (m := m) (n := a.2) (v := a.1) hr1.2.1 hw
    obtain ⟨h2, _⟩ := outState_own (m := m) (n := a.2) (v := a.1) hr2.2.1 hw
    exact .next (h1.trans h2.symm)
  · exact .takeFault hr1 hr2 .channelOverflow

/-- R97: every instruction. -/
theorem exec_agree (ins : Instr) (hw : x.outTo = none) : Agree i j (exec ins s1) (exec ins s2) := by
  cases ins with
  | add => exact store3_agree hr1 hr2 hc _
  | mul => exact store3_agree hr1 hr2 hc _
  | lt => exact store3_agree hr1 hr2 hc _
  | eq => exact store3_agree hr1 hr2 hc _
  | inp => exact execInp_agree hr1 hr2 hc
  | out => exact execOut_agree hr1 hr2 hc hw
  | jt => exact jump_agree hr1 hr2 hc _
  | jf => exact jump_agree hr1 hr2 hc _
  | arb => exact execArb_agree hr1 hr2 hc
  | halt => exact execHalt_agree hr1 hr2

end

end

/-! ### The statements -/

/-- Settles O36: the two runs agree, instruction by instruction (`exec_agree`). -/
theorem instructionSeesOnlyItsInstance : Obligations.InstructionSeesOnlyItsInstance :=
  fun ins _ _ t1 _ _ _ _ hr1 hr2 hc hw h => exec_agree hr1 hr2 hc ins hw t1 h

end Sys2Proof.Machine
end

section
/-! The state after reset, and what names an instance that was never LOADed (O42, O50; spec/70_reset_and_hazards.md R224
to R228, spec/00_scope.md R10). -/

namespace Sys2Proof.Machine

section
variable {s : State} {n i : Nat} {x : Inst} {c : HostCmd}

/-! ### Reset -/

/-- R224: every instance after reset. -/
theorem resetOf_inst? : (State.resetOf n).inst? i = some x ↔ i < n ∧ x = Inst.reset := by
  rw [State.inst?_eq_some]
  simp [State.resetOf, List.getElem?_replicate, eq_comm]

/-- R224: LOAD with an empty program and no inbound value, which every block accepts. -/
theorem instOk_reset : InstOk Config.default Inst.reset := .load (prog := []) (inbound := []) rfl rfl

theorem resetOf_dataOk (hn : 1 ≤ n) : DataOk (State.resetOf n) where
  legal := rfl
  nonempty := by simpa [State.resetOf] using hn
  sched := rfl
  insts i x hx := by
    obtain ⟨_, rfl⟩ := resetOf_inst?.mp hx
    exact instOk_reset

/-- R226, R228: nothing is in progress, and no OUTQ is wired. -/
theorem resetOf_ctlOk : CtlOk (State.resetOf n) := by
  refine .of_idle (wiringOk_iff.mpr fun i x j hx hw => ?_) rfl rfl
  obtain ⟨_, rfl⟩ := resetOf_inst?.mp hx
  cases hw

/-! ### Instances that do not exist -/

/-- R225: a transaction that names an instance that was never LOADed, and is no LOAD. -/
theorem namesUnloaded_of_names (hi : s.inst? i = none) (hn : c.names = some i) (hl : c.isLoad = false) :
    NamesUnloaded s c :=
  namesUnloaded_iff.mp (by simp [State.namesUnloaded, hn, hl, hi])

end

/-! ### The statements -/

/-- Settles O42: every instance is `Inst.reset`, which is a LOAD's (`instOk_reset`), and nothing is in progress. -/
theorem resetState : Obligations.ResetState := by
  refine ⟨fun n hn => ?_, rfl, fun _ _ => ⟨rfl, rfl, rfl⟩⟩
  have hpos : 1 ≤ n := of_decide_eq_true hn
  refine ⟨dataOk_iff.mp (resetOf_dataOk hpos), ctlOk_iff.mp resetOf_ctlOk, rfl, rfl, List.length_replicate,
    fun i hi => ⟨Inst.reset, resetOf_inst?.mpr ⟨hi, rfl⟩, rfl, rfl, rfl, rfl, rfl, rfl, fun _ => rfl⟩⟩

/-- Settles O50: such a transaction must be refused at the ports (`step_mustRefuse`), and performing it refuses it too
(`perform_unloaded`). -/
theorem unloadedInstanceIsRefused : Obligations.UnloadedInstanceIsRefused := by
  intro s i m v a c l hi hc
  have hu : NamesUnloaded s c := by
    rcases hc with rfl | rfl | rfl | rfl | rfl | rfl <;> exact namesUnloaded_of_names hi rfl rfl
  refine ⟨fun ha => step_mustRefuse ha (.inl hu), fun hctl ha hh => ?_⟩
  rw [step_idle hctl ha, stepIdle_cons hh]
  exact perform_unloaded (s := { s with host := l }) hu

end Sys2Proof.Machine
end

section
/-! Turns and stops of every pattern, and the linear pipeline (O51, O52, O56, O60; spec/60_exceptions.md R200 to R203,
R205, R208, R215). -/

namespace Sys2Proof.Machine

section
variable {s : State} {i : Nat} {x : Inst} {st : Status}

/-! ### A turn and a stop, by the pattern that runs -/

/-- R195, R198, R200: a turn's RESUME changes who moves next, by the instance's RUN_STATE, and nothing else. -/
theorem issueTurn_resumes (hx : s.inst? i = some x) (m : Mask) :
    ∃ k : Control, s.issueTurn i m = .next { s with ctl := k }
      ∧ (x.ready = true → k = .running i m) ∧ (x.fault = none → x.halted = true → k = .stopped i .halted) := by
  obtain ⟨t, ht⟩ := State.beginResume_isSome (m := m) hx
  obtain ⟨y, hy, hcase⟩ := State.beginResume_eq_some ht
  obtain rfl : x = y := by simpa [hx] using hy
  rcases hcase with ⟨f, hf, rfl⟩ | ⟨hf, hh, rfl⟩ | ⟨hr, rfl⟩
  · exact ⟨_, State.issueTurn_eq ht, by simp [Inst.ready_iff, hf], by simp [hf]⟩
  · exact ⟨_, State.issueTurn_eq ht, by simp [Inst.ready_iff, hh], fun _ _ => rfl⟩
  · exact ⟨_, State.issueTurn_eq ht, fun _ => rfl, by simp [(Inst.ready_iff.mp hr).1]⟩

theorem step_pipelineTurn {p : Pipeline} (hc : s.ctl = .turn) (hq : PortQuiet s) (hd : s.sched = .pipeline p) :
    step s = pipelineTurn p s := by
  rw [step_turn hc hq, stepTurn, hd]

theorem step_ringTurn {r : Ring} (hc : s.ctl = .turn) (hq : PortQuiet s) (hd : s.sched = .ring r) :
    step s = s.issueTurn r.next ringMask := by
  rw [step_turn hc hq, stepTurn, hd]
  rfl

theorem step_starTurn {n : Star} (hc : s.ctl = .turn) (hq : PortQuiet s) (hd : s.sched = .star n) :
    step s = s.issueTurn n.next starMask := by
  rw [step_turn hc hq, stepTurn, hd]
  rfl

theorem step_pipelineStop {p : Pipeline} (hc : s.ctl = .stopped i st) (hq : PortQuiet s)
    (hd : s.sched = .pipeline p) : step s = pipelineStop p i st s := by
  rw [step_stopped hc hq, stepStopped, hd]

theorem step_ringStop {r : Ring} (hc : s.ctl = .stopped i st) (hq : PortQuiet s) (hd : s.sched = .ring r) :
    step s = ringStop r i st s := by
  rw [step_stopped hc hq, stepStopped, hd]

theorem step_starStop {n : Star} (hc : s.ctl = .stopped i st) (hq : PortQuiet s) (hd : s.sched = .star n) :
    step s = starStop n i st s := by
  rw [step_stopped hc hq, stepStopped, hd]

/-! ### Pipeline -/

/-- R202: the LOAD of a stage, where the port accepts it. -/
theorem pipelineTurn_load {p : Pipeline} {ph : Word} (hl : p.loaded = false) (hph : p.phases[p.next]? = some ph)
    (hi : p.next < s.insts.length) (hc : canLoad s.cfg p.prog [ph, p.signal] = true) :
    pipelineTurn p s = .next ((s.setInst p.next (Inst.load p.prog [ph, p.signal])).nextTurn
      (.pipeline { p with loaded := true })) := by
  have hload : s.load p.next p.prog [ph, p.signal] = some (s.setInst p.next (Inst.load p.prog [ph, p.signal])) :=
    State.load_eq_some.mpr ⟨hi, hc, rfl⟩
  simp [pipelineTurn, pipelineLoad, hl, hph, hload]

/-- R202: the RESUME of a stage that has been LOADed. -/
theorem pipelineTurn_resume {p : Pipeline} (hl : p.loaded = true) :
    pipelineTurn p s = s.issueTurn p.next Mask.none :=
  if_pos hl

/-- R202, R203: exactly one output. -/
theorem pipelineStop_one {p : Pipeline} {v : Word} (hq : s.outQueue i = some [v]) :
    pipelineStop p i .halted s =
      if i + 1 < p.phases.length then
        .next (s.nextTurn (.pipeline { p with next := i + 1, signal := v, loaded := false }))
      else .next (s.finish (.result v)) := by
  simp only [pipelineStop, hq]

/-- R202: no output, or several. -/
theorem pipelineStop_outputError {p : Pipeline} {q : List Word} (hq : s.outQueue i = some q) (hlen : q.length ≠ 1) :
    pipelineStop p i .halted s = .next (s.finish (.pipelineOutputError i)) := by
  rcases q with _ | ⟨v, _ | ⟨w, q⟩⟩
  · simp only [pipelineStop, hq]
  · exact absurd rfl hlen
  · simp only [pipelineStop, hq]

/-- R37: what a LOAD's memory reads as. -/
theorem load_read (prog inbound : List Word) (a : Nat) :
    Mem.read (Inst.load prog inbound).mem a = prog.getD a 0 :=
  (Mem.read_ofProgram prog 0 a).trans (if_pos (Nat.zero_le a))

end

/-! ### The statements -/

/-- Settles O51: the boot is START's set-up, the turn the stage's LOAD (`pipelineTurn_load`), then its RESUME
(`issueTurn_resumes`). -/
theorem pipelineTurnLoadsStage : Obligations.PipelineTurnLoadsStage := by
  refine ⟨fun s u prog phases h hlen hne hload => ?_, fun s p ph hq hc hd hl hph hi hok => ?_,
    fun s p x hq hc hd hl hx => ?_⟩
  · have hpos : 0 < s.insts.length := hlen ▸ List.length_pos_iff.mpr hne
    have hboot : startPipeline prog phases u = some (u.nextTurn (.pipeline
        { prog := prog, phases := phases, next := 0, signal := s.cfg.pipelineInput, loaded := false })) := by
      refine startPipeline_eq_some.mpr ⟨by rwa [h.insts], by rwa [h.insts], by rwa [h.cfg], ?_⟩
      rw [h.cfg]
    rw [h.step]
    exact State.orRefuse_some hboot
  · refine ⟨s.setInst p.next (Inst.load p.prog [ph, p.signal]), Inst.load p.prog [ph, p.signal], ?_,
      onlyInst_setInst hi, hc, load_read _ _, rfl, rfl, rfl, rfl, rfl, rfl⟩
    rw [step_pipelineTurn hc hq hd, pipelineTurn_load hl hph hi hok, State.nextTurn, ← hc]
    rfl
  · rw [step_pipelineTurn hc hq hd, pipelineTurn_resume hl]
    exact issueTurn_resumes hx Mask.none

/-- Settles O52: the stage has put out one value (`pipelineStop_one`), or not (`pipelineStop_outputError`). -/
theorem pipelineStageEnds : Obligations.PipelineStageEnds := by
  intro s p i q hc hq hd hout
  rw [step_pipelineStop hc hq hd]
  refine ⟨fun v hv hi => ?_, fun v hv hi => ?_, fun hlen => pipelineStop_outputError hout hlen⟩
  · rw [pipelineStop_one (hv ▸ hout), if_pos hi]
    rfl
  · rw [pipelineStop_one (hv ▸ hout), if_neg (by omega)]
    rfl

/-- Settles O56: both turns are a RESUME (`issueTurn_resumes`), with `ringMask` and `starMask`. -/
theorem ringAndStarTurnsResume : Obligations.RingAndStarTurnsResume := by
  intro s i x hc hq hx
  refine ⟨fun r hd hi => ?_, fun n hd hi => ?_⟩
  · rw [step_ringTurn hc hq hd, hi]
    exact issueTurn_resumes hx ringMask
  · rw [step_starTurn hc hq hd, hi]
    exact issueTurn_resumes hx starMask

/-- Settles O60: each pattern's answer to a fault. -/
theorem faultStopsPattern : Obligations.FaultStopsPattern := by
  intro s i k hc hq hne
  rcases hd : s.sched with _ | p | r | n
  · exact absurd hd hne
  · exact step_pipelineStop hc hq hd
  · exact step_ringStop hc hq hd
  · exact step_starStop hc hq hd

end Sys2Proof.Machine
end

section
/-! The feedback ring (O53, O54; spec/60_exceptions.md R204 to R206, spec/70_reset_and_hazards.md R230). -/

namespace Sys2Proof.Machine

section
variable {s : State} {i : Nat} {st : Status} {q prog phases : List Word}

/-! ### Boot -/

/-- R204: instance i of a ring just set up. -/
theorem ringBooted_inst? {ph : Word} (h : phases[i]? = some ph) :
    (ringBooted prog phases s).inst? i
      = some { Inst.load prog [ph] with outTo := some ((i + 1) % phases.length) } := by
  have hi : i < (ringInsts prog phases.length 0 phases).length := by
    rw [ringInsts_length]
    exact (List.getElem?_eq_some_iff.mp h).1
  obtain ⟨ph', hph', hget⟩ := ringInsts_get (List.getElem?_eq_getElem hi)
  obtain rfl : ph = ph' := by simpa [h] using hph'
  rw [Nat.zero_add] at hget
  exact State.inst?_eq_some.mpr ((List.getElem?_eq_getElem hi).trans (congrArg some hget))

/-- R204, R230: INQ(0), which holds its phase, has room for RING_INPUT. -/
theorem ringBooted_append {ph v : Word} (h : phases[0]? = some ph) (hd : ∀ n, s.cfg.queueDepth = some n → 2 ≤ n) :
    (ringBooted prog phases s).append 0 v = .ok ((ringBooted prog phases s).setInst 0
      { Inst.load prog [ph, v] with outTo := some ((0 + 1) % phases.length) }) :=
  State.append_ok.mpr ⟨_, ringBooted_inst? h, holds_iff.mpr hd, rfl⟩

/-- R204, R230: START of a ring that the port accepts: the set-up, then RING_INPUT appended to INQ(0). -/
theorem startRing_accepts (hlen : phases.length = s.insts.length) (hne : phases ≠ [])
    (hload : ∀ ph ∈ phases, canLoad s.cfg prog [ph] = true) (hin : representable s.cfg s.cfg.ringInput = true) :
    startRing prog phases s = some ((ringBooted prog phases s).append 0 s.cfg.ringInput) := by
  have hpos : 0 < s.insts.length := hlen ▸ List.length_pos_iff.mpr hne
  exact if_pos ⟨hpos, hlen, List.all_eq_true.mpr hload, hin⟩

/-! ### After a turn -/

/-- R205, R206: what a ring keeps after the turn of instance i: the last value that instance N-1 pushed. -/
def Ring.afterTurn (r : Ring) (s : State) (i : Nat) (st : Status) (q : List Word) : Ring :=
  { r with last := if st = .hasOutput ∧ i + 1 = s.insts.length then q.getLast? else r.last }

theorem ringStop_turn {r : Ring} (hst : st = .halted ∨ st = .hasOutput) (hq : s.outQueue i = some q) :
    ringStop r i st s = ringAfterTurn (r.afterTurn s i st q) i s := by
  rcases hst with rfl | rfl
  · simp [ringStop, Ring.afterTurn]
  · by_cases hi : i + 1 = s.insts.length <;> simp [ringStop, Ring.afterTurn, lastPushed, hq, hi]

theorem ringAfterTurn_goes {r : Ring} (h : allHalted s = false) :
    ringAfterTurn r i s = .next (s.nextTurn (.ring { r with next := (i + 1) % s.insts.length })) := by
  simp [ringAfterTurn, h]

theorem ringAfterTurn_ends {r : Ring} (h : allHalted s = true) :
    ringAfterTurn r i s = .next (s.finish (match r.last with
      | some v => .result v
      | none   => .noResult)) := by
  rcases hl : r.last with _ | v <;> simp [ringAfterTurn, h, hl]

end

/-! ### The statements -/

/-- Settles O53: the set-up is accepted (`startRing_accepts`), and INQ(0) has room for RING_INPUT. -/
theorem ringBoots : Obligations.RingBoots := by
  intro s u prog phases h hlen hne hload hin hdepth
  have hstart : startRing prog phases u = some ((ringBooted prog phases u).append 0 s.cfg.ringInput) := by
    rw [← h.cfg]
    exact startRing_accepts (by rwa [h.insts]) hne (by rwa [h.cfg]) (by rwa [h.cfg])
  obtain ⟨ph0, h0⟩ : ∃ ph0, phases[0]? = some ph0 :=
    ⟨_, List.getElem?_eq_getElem (List.length_pos_iff.mpr hne)⟩
  have hstep : step s = .next ((ringBooted prog phases u).setInst 0
      { Inst.load prog [ph0, s.cfg.ringInput] with outTo := some ((0 + 1) % phases.length) }) := by
    rw [h.step, perform, startPattern, hstart, ringBooted_append h0 (h.cfg ▸ hdepth)]
    rfl
  refine ⟨_, hstep, rfl, rfl, fun i ph hph => ?_⟩
  by_cases hi : i = 0
  · subst hi
    obtain rfl : ph0 = ph := by simpa [h0] using hph
    exact ⟨_, State.inst?_setInst_self (State.inst?_lt (ringBooted_inst? h0)), rfl, rfl, rfl, rfl, rfl,
      load_read prog [ph0, s.cfg.ringInput]⟩
  · rw [if_neg hi]
    exact ⟨_, (State.inst?_setInst_ne hi).trans (ringBooted_inst? hph), rfl, rfl, rfl, rfl, rfl,
      load_read prog [ph]⟩

/-- Settles O54: the last pushed value (`Ring.afterTurn`), then whether every instance is halted. -/
theorem ringTurnsAndEnds : Obligations.RingTurnsAndEnds := by
  intro s r i st q hc hq hd hst hout
  refine ⟨r.afterTurn s i st q, rfl, ?_⟩
  rw [step_ringStop hc hq hd, ringStop_turn hst hout]
  refine ⟨fun ⟨o, ho, hnot⟩ => ?_, fun hall => ?_⟩
  · have hsome : allHalted s = false := by
      refine List.all_eq_false.mpr ⟨o, ho, ?_⟩
      rcases o with _ | x
      · simp
      · simp [hnot x rfl]
    rw [ringAfterTurn_goes hsome]
    rfl
  · have hevery : allHalted s = true := by
      refine List.all_eq_true.mpr fun o ho => ?_
      obtain ⟨x, rfl, hx⟩ := hall o ho
      exact hx
    rw [ringAfterTurn_ends hevery]
    rfl

end Sys2Proof.Machine
end

section
/-! The star network (O55, O57 to O59; spec/60_exceptions.md R207 to R214, spec/70_reset_and_hazards.md R228, R230): its
boot, the end of a turn, the routing of an output and the empty read. -/

namespace Sys2Proof.Machine

section
variable {s : State} {i : Nat} {n : Star} {st : Status} {v : Word}

/-! ### Boot -/

/-- R11, R207: every instance's seed, by whichever value of NAT_SEED. -/
theorem natSeeds_eq {c : Config} {seed : Nat → List Word}
    (hown : c.natSeed = .ownAddress → ∀ i : Nat, seed i = [(i : Word)])
    (htable : ∀ l, c.natSeed = .table l → ∀ i : Nat, seed i = l.getD i []) (k : Nat) :
    natSeeds c k = (List.range k).map seed := by
  rcases hs : c.natSeed with _ | l
  · simp only [natSeeds, hs, funext (hown hs)]
  · simp only [natSeeds, hs, funext (htable l hs)]

/-- R207, R228: the block after the boot of a star network with these seeds. -/
def starBooted (prog : List Word) (seed : Nat → List Word) (s : State) : State :=
  { s with insts := (List.range s.insts.length).map fun i => some (Inst.load prog (seed i)) }.nextTurn
    (.star { next := 0, part := List.replicate s.insts.length [], held := none, lastInj := none, roundOut := false,
             supplied := false })

theorem starBooted_inst? {prog : List Word} {seed : Nat → List Word} (hi : i < s.insts.length) :
    (starBooted prog seed s).inst? i = some (Inst.load prog (seed i)) :=
  State.inst?_eq_some.mpr (by simp [starBooted, hi])

/-- R207, R230: START of a star network that the port accepts. -/
theorem startStar_accepts {prog : List Word} {seed : Nat → List Word} (hne : s.insts ≠ [])
    (hsupply : supplyOk s.cfg = true) (hseeds : natSeeds s.cfg s.insts.length = (List.range s.insts.length).map seed)
    (hload : ∀ i < s.insts.length, canLoad s.cfg prog (seed i) = true) :
    startStar prog s = some (starBooted prog seed s) := by
  have hall : (natSeeds s.cfg s.insts.length).all (canLoad s.cfg prog) = true := by
    rw [hseeds]
    simpa using hload
  rw [startStar, if_pos ⟨List.length_pos_iff.mpr hne, hall, hsupply⟩, hseeds, List.map_map]
  rfl

/-! ### The end of a turn -/

/-- R212: when a star network is idle. -/
theorem starIdle_iff :
    starIdle n s = true ↔
      (∀ j w, s.inst? j = some w → w.inq = []) ∧ (∀ q ∈ n.part, q = []) ∧ n.roundOut = false := by
  unfold starIdle
  rw [Bool.and_eq_true, Bool.and_eq_true, all_insts_iff rfl, and_assoc]
  simp

/-- R208: before the round's last instance. -/
theorem starEndTurn_before_last (hi : i + 1 < s.insts.length) :
    starEndTurn n i s = .next (s.nextTurn (.star { n with next := i + 1, supplied := false })) :=
  if_pos hi

/-- R212: the round ends, and the network is not idle. -/
theorem starEndTurn_busy (hi : i + 1 = s.insts.length) (h : starIdle n s = false) :
    starEndTurn n i s = .next (s.nextTurn (.star { n with next := 0, roundOut := false, supplied := false })) := by
  simp [starEndTurn, hi, h]

/-- R213: the round ends, and the network is idle. -/
theorem starEndTurn_idle (hi : i + 1 = s.insts.length) (h : starIdle n s = true) :
    starEndTurn n i s = starInject n s := by
  simp [starEndTurn, hi, h]

/-- R208, R212: a network that has recorded an output in this round is not idle, so the next turn is due. -/
theorem starEndTurn_output {N : Nat} (hN : s.insts.length = N) (hi : i < N) (h : n.roundOut = true) :
    starEndTurn n i s = .next (s.nextTurn (.star { n with
      next     := if i + 1 < N then i + 1 else 0
      roundOut := decide (i + 1 < N)
      supplied := false })) := by
  subst hN
  by_cases hl : i + 1 < s.insts.length
  · rw [starEndTurn_before_last hl]
    simp [hl, h]
  · have hbusy : starIdle n s = false := by simp [starIdle, h]
    rw [starEndTurn_busy (by omega) hbusy]
    simp [hl]

/-- R214: the termination test. -/
theorem sameInjection_iff {c : Config} {last : Option (Word × Word)} {x y : Word} :
    sameInjection c last x y = true ↔ ∃ x' y', last = some (x', y') ∧ y = y' ∧ (c.natCompare = .xy → x = x') := by
  rcases last with _ | ⟨x', y'⟩
  · simp [sameInjection]
  · rcases hc : c.natCompare with _ | _ <;> simp only [sameInjection, hc, decide_eq_true_eq]
    · constructor
      · exact fun hy => ⟨x', y', rfl, hy, nofun⟩
      · rintro ⟨_, _, ⟨⟩, hy, _⟩
        exact hy
    · constructor
      · exact fun ⟨hx, hy⟩ => ⟨x', y', rfl, hy, fun _ => hx⟩
      · rintro ⟨_, _, ⟨⟩, hy, hx⟩
        exact ⟨hx trivial, hy⟩

/-- R213: idle with nothing held. -/
theorem starInject_none (h : n.held = none) : starInject n s = .next (s.finish .networkDeadlock) := by
  simp only [starInject, h]

/-- R213, R214: the held packet goes into an empty INQ(0); then the end, or a new round. -/
theorem starInject_some {z : Inst} {x y : Word} (h : n.held = some (x, y)) (hz : s.inst? 0 = some z)
    (hempty : z.inq = []) (hd : ∀ q, s.cfg.queueDepth = some q → 2 ≤ q) :
    starInject n s = .next (if sameInjection s.cfg n.lastInj x y = true
      then (s.setInst 0 { z with inq := [x, y] }).finish (.packet x y)
      else (s.setInst 0 { z with inq := [x, y] }).nextTurn
        (.star { n with next := 0, roundOut := false, supplied := false, lastInj := some (x, y) })) := by
  have happend : s.append2 0 x y = .ok (s.setInst 0 { z with inq := [x, y] }) :=
    State.append2_ok.mpr ⟨z, hz, holds_iff.mpr (by simpa [hempty] using hd), by rw [hempty]; rfl⟩
  simp only [starInject, h, happend, orFault]
  split <;> rfl

/-- R208, R211: a turn that ends without an output: of a halted instance, or at an empty read that is supplied nothing
(more). -/
theorem starStop_ends
    (hst : st = .halted ∨ (st = .needsInput ∧ (n.supplied = true ∨ s.cfg.natEmptyRead = .block))) :
    starStop n i st s = starEndTurn n i s := by
  rcases hst with rfl | ⟨rfl, hs | hb⟩
  · rfl
  · simp [starStop, starEmptyRead, hs]
  · simp [starStop, starEmptyRead, hb]

/-! ### The empty read -/

/-- R211: Supply(v), at the first empty read of a turn. -/
theorem starStop_supplies {x : Inst} (hs : n.supplied = false) (hv : s.cfg.natEmptyRead = .supply v)
    (hx : s.inst? i = some x) (hd : ∀ q, s.cfg.queueDepth = some q → x.inq.length < q) :
    starStop n i .needsInput s = .next ((s.setInst i { x with inq := x.inq ++ [v] }).nextTurn
      (.star { n with next := i, supplied := true })) := by
  have happend : s.append i v = .ok (s.setInst i { x with inq := x.inq ++ [v] }) :=
    State.append_ok.mpr ⟨x, hx, holds_iff.mpr hd, rfl⟩
  simp [starStop, starEmptyRead, hs, hv, happend, orFault]

/-! ### The output -/

/-- R209: the value that an unwired instance has put out leaves its OUTQ. -/
theorem starStop_collects {z : Inst} (hz : s.inst? i = some z) (hw : z.outTo = none) (hq : z.outq = [v]) :
    starStop n i .hasOutput s = starCollect n i v (s.setInst i { z with outq := [] }) := by
  have hpop : s.popOut i = some (s.setInst i { z with outq := [] }, some v) := by
    refine State.popOut_eq_some.mpr ⟨_, State.outQueue_own hz hw, by simp [hq], .inr ⟨by simp [hq], ?_⟩⟩
    rw [State.setOutQueue_own hz hw, hq, List.tail_cons]
  simp only [starStop, hpop]

/-- R208, R209, R212: what a star network's scheduler has after an output turn of instance i of N, its triples now
these, and this packet held. -/
def Star.afterOutput (n : Star) (i N : Nat) (part : List (List Word)) (held : Option (Word × Word)) : Star :=
  { n with
    next     := if i + 1 < N then i + 1 else 0
    part     := part
    held     := held
    roundOut := decide (i + 1 < N)
    supplied := false }

theorem Star.afterOutput_recorded (part : List (List Word)) (held : Option (Word × Word)) :
    OutputTurnRecorded s i n (n.afterOutput i s.insts.length part held) :=
  ⟨rfl, rfl, rfl, rfl⟩

section
variable {d x : Word} {q : List Word} (hi : i < s.insts.length)
include hi

/-- R209: a value that does not complete its triple. -/
theorem starCollect_short (hq : n.part[i]? = some q) (hlen : q.length < 2) :
    starCollect n i v s = .next (s.nextTurn
      (.star (n.afterOutput i s.insts.length (n.part.set i (q ++ [v])) n.held))) := by
  have hcollect : starCollect n i v s
      = starEndTurn { n with roundOut := true, part := n.part.set i (q ++ [v]) } i s := by
    rcases q with _ | ⟨a, _ | ⟨b, q⟩⟩
    · simp [starCollect, List.getD, hq]
    · simp [starCollect, List.getD, hq]
    · simp at hlen
  rw [hcollect, starEndTurn_output rfl hi rfl]
  rfl

/-- R209, R210: a packet whose address is no instance's. -/
theorem starCollect_holds (hq : n.part[i]? = some [d, x]) (hd : ¬ (0 ≤ d ∧ d < s.insts.length)) :
    starCollect n i v s = .next (s.nextTurn
      (.star (n.afterOutput i s.insts.length (n.part.set i []) (some (x, v))))) := by
  have hcollect : starCollect n i v s
      = starEndTurn { n with roundOut := true, part := n.part.set i [], held := some (x, v) } i s := by
    simp only [starCollect, List.getD, hq, Option.getD_some, List.cons_append, List.nil_append, if_neg hd]
  rw [hcollect, starEndTurn_output rfl hi rfl]
  rfl

/-- R209: a packet for instance j. -/
theorem starCollect_routes {j : Nat} {w : Inst} (hq : n.part[i]? = some [(j : Word), x]) (hw : s.inst? j = some w)
    (hd : ∀ q, s.cfg.queueDepth = some q → w.inq.length + 2 ≤ q) :
    starCollect n i v s = .next ((s.setInst j { w with inq := w.inq ++ [x, v] }).nextTurn
      (.star (n.afterOutput i s.insts.length (n.part.set i []) n.held))) := by
  have hj : (0 : Int) ≤ j ∧ (j : Int) < s.insts.length :=
    ⟨Int.natCast_nonneg j, Int.ofNat_lt.mpr (State.inst?_lt hw)⟩
  have happend : s.append2 j x v = .ok (s.setInst j { w with inq := w.inq ++ [x, v] }) :=
    State.append2_ok.mpr ⟨w, hw, holds_iff.mpr hd, rfl⟩
  have hcollect : starCollect n i v s
      = starEndTurn { n with roundOut := true, part := n.part.set i [] } i
          (s.setInst j { w with inq := w.inq ++ [x, v] }) := by
    simp only [starCollect, List.getD, hq, Option.getD_some, List.cons_append, List.nil_append, if_pos hj,
      Int.toNat_natCast, happend, orFault]
  rw [hcollect, starEndTurn_output State.length_setInst hi rfl]
  rfl

end

end

/-! ### The statements -/

/-- Settles O55: the set-up is accepted (`startStar_accepts`), and `starBooted` is what it leaves. -/
theorem starBoots : Obligations.StarBoots := by
  intro s u prog seed h hne hsupply hown htable hload
  have hstart : startStar prog u = some (starBooted prog seed u) := by
    refine startStar_accepts (by rwa [h.insts]) (by rwa [h.cfg]) ?_ (by rwa [h.insts, h.cfg])
    rw [h.cfg]
    exact natSeeds_eq hown htable _
  have hlen : u.insts.length = s.insts.length := congrArg List.length h.insts
  refine ⟨starBooted prog seed u, _, ?_, rfl, rfl, rfl, rfl, rfl, rfl, rfl, ?_, ?_, ?_, fun i hi => ?_⟩
  · rw [h.step]
    exact State.orRefuse_some hstart
  · rw [List.length_replicate, hlen]
  · exact fun q hq => List.eq_of_mem_replicate hq
  · simp [starBooted, hlen]
  · exact ⟨_, starBooted_inst? (hlen.symm ▸ hi), rfl, rfl, rfl, rfl, rfl, rfl, load_read _ _⟩

/-- Settles O57: the value is collected (`starStop_collects`), and the triple goes to the sentinel, or to an instance,
or is not complete yet. -/
theorem starAssemblesAndRoutes : Obligations.StarAssemblesAndRoutes := by
  intro s n i z d x y hc hq hd hz hw hout
  have hi := State.inst?_lt hz
  have hlen : (s.setInst i { z with outq := [] }).insts.length = s.insts.length := State.length_setInst
  have hself : (s.setInst i { z with outq := [] }).inst? i = some { z with outq := [] } :=
    State.inst?_setInst_self hi
  have hother : ∀ j, j ≠ i → (s.setInst i { z with outq := [] }).inst? j = s.inst? j :=
    fun j hj => State.inst?_setInst_ne hj
  rw [step_starStop hc hq hd, starStop_collects hz hw hout]
  refine ⟨fun hp hnoinst => ?_, fun j w hp hdj hjw hroom => ?_, fun q hp hshort => ?_⟩
  · have hnone : ¬ (0 ≤ d ∧ d < (s.setInst i { z with outq := [] }).insts.length) := by
      rw [hlen]
      rintro ⟨h0, hlt⟩
      exact hnoinst.elim (not_lt.mpr h0) fun hge => not_lt.mpr hge hlt
    rw [starCollect_holds (by rwa [hlen]) hp hnone, hlen]
    exact ⟨_, _, rfl, rfl, rfl, rfl, rfl, Star.afterOutput_recorded _ _, hself, hother⟩
  · subst hdj
    by_cases hji : j = i
    · subst hji
      obtain rfl : z = w := by simpa [hz] using hjw
      rw [starCollect_routes (by rwa [hlen]) hp hself hroom, hlen]
      refine ⟨_, _, rfl, rfl, rfl, rfl, rfl, Star.afterOutput_recorded _ _, fun hne => absurd rfl hne, fun _ => ?_,
        fun k hk _ => ?_⟩
      · exact State.inst?_setInst_self (by rwa [hlen])
      · exact (State.inst?_setInst_ne hk).trans (hother k hk)
    · rw [starCollect_routes (by rwa [hlen]) hp ((hother j hji).trans hjw) hroom, hlen]
      refine ⟨_, _, rfl, rfl, rfl, rfl, rfl, Star.afterOutput_recorded _ _, fun _ => ⟨?_, ?_⟩,
        fun e => absurd e hji, fun k hk hkj => ?_⟩
      · exact (State.inst?_setInst_ne (Ne.symm hji)).trans hself
      · exact State.inst?_setInst_self (by rw [hlen]; exact State.inst?_lt hjw)
      · exact (State.inst?_setInst_ne hkj).trans (hother k hk)
  · rw [starCollect_short (by rwa [hlen]) hp hshort, hlen]
    exact ⟨_, _, rfl, rfl, rfl, rfl, rfl, Star.afterOutput_recorded _ _, hself, hother⟩

/-- Settles O58: the turn ends (`starStop_ends`), then whether the round does, whether the network is idle
(`starIdle_iff`), and whether a packet is held. -/
theorem starRoundEnds : Obligations.StarRoundEnds := by
  refine ⟨fun s n i st hc hq hd hi hst => ?_, fun s n i z st hc hq hd hi hz hst hdepth => ?_⟩
  · rw [step_starStop hc hq hd, starStop_ends hst, starEndTurn_before_last hi]
    rfl
  · rw [step_starStop hc hq hd, starStop_ends hst]
    refine ⟨fun hbusy => ?_, fun hinq hpart hround => ?_⟩
    · have hidle : starIdle n s = false := by
        rw [← Bool.not_eq_true, starIdle_iff]
        rintro ⟨hinq, hpart, hround⟩
        rcases hbusy with ⟨j, w, hw, hne⟩ | ⟨q, hq, hne⟩ | hout
        · exact hne (hinq j w hw)
        · exact hne (hpart q hq)
        · simp [hout] at hround
      rw [starEndTurn_busy hi hidle]
      rfl
    · rw [starEndTurn_idle hi (starIdle_iff.mpr ⟨hinq, hpart, hround⟩)]
      refine ⟨fun hheld => starInject_none hheld, fun x y hheld => ?_⟩
      have h0 := State.inst?_lt hz
      rw [starInject_some hheld hz (hinq 0 z hz) hdepth, ← sameInjection_iff]
      refine ⟨_, rfl, ?_⟩
      split
      · next hsame =>
        exact ⟨State.inst?_setInst_self h0, fun j hj => State.inst?_setInst_ne hj, fun _ => ⟨rfl, rfl, rfl⟩,
          fun hne => absurd hsame hne⟩
      · next hdiff =>
        exact ⟨State.inst?_setInst_self h0, fun j hj => State.inst?_setInst_ne hj, fun h => absurd h hdiff,
          fun _ => ⟨rfl, rfl, rfl⟩⟩

/-- Settles O59: the turn ends (`starStop_ends`), or the value is supplied (`starStop_supplies`) and the next step
is a RESUME of the same instance. -/
theorem starEmptyReadOutcome : Obligations.StarEmptyRead := by
  intro s n i x hc hq hd hx hready
  rw [step_starStop hc hq hd]
  refine ⟨fun hi hend => ?_, fun v hv hs hroom => ?_⟩
  · rw [starStop_ends (.inr ⟨rfl, hend.symm⟩), starEndTurn_before_last hi]
    rfl
  · have hself : (s.setInst i { x with inq := x.inq ++ [v] }).inst? i = some { x with inq := x.inq ++ [v] } :=
      State.inst?_setInst_self (State.inst?_lt hx)
    refine ⟨_, starStop_supplies hs hv hx hroom, rfl, rfl, fun hquiet => ?_, hself,
      fun j hj => State.inst?_setInst_ne hj⟩
    obtain ⟨k, hk, hrun, _⟩ := issueTurn_resumes (s := (s.setInst i { x with inq := x.inq ++ [v] }).nextTurn
      (.star { n with next := i, supplied := true })) hself starMask
    rw [step_starTurn rfl hquiet rfl, hk, hrun hready]
    rfl

end Sys2Proof.Machine
end
